-- ==== Sys2Proof/Word.lean ====
section
/-! DEFINITION. The word types of the tapecart flash sequencer (00_scope.md rules R7 and R8). -/

namespace Sys2Proof

/-- An 8-bit unsigned value (R8 `Byte`, R7 `DATA_W`). -/
abbrev Byte := BitVec 8

/-- A 24-bit unsigned flash address (R8 `Addr`, R7 `ADDR_W`); `S.cap` has the same width (R7 `CAP_W`). -/
abbrev Addr := BitVec 24

/-- The 40-bit upward command word (R80). -/
abbrev CmdWord := BitVec 40

/-- The two encodings of this hardware (30_encoding.md): an upward command word (R80), or the bytes
sent in one wire transaction, the opcode first (R85). -/
inductive Encoded where
  | command (w : CmdWord)
  | wire (tx : List Byte)
  deriving DecidableEq, Repr

end Sys2Proof
end

