-- ==== Sys2Proof/Config.lean ====
section
/-! DEFINITION. What an implementation fixes and the free values: the OPEN parameters of 00_scope.md R7
and 20_memory.md R55, and the values the spec leaves to the environment or unspecified. An `opaque`
constant has no body: nothing can be proved about which value it is. -/

namespace Sys2Proof

/-- The contents of the reference flash array at its reset, `RF_IMAGE` (20_memory.md R55): the listed
cells, and `fill` at every other address. -/
structure Image where
  fill : Byte
  cells : List Host.Cell
  deriving DecidableEq, Repr, Inhabited

/-- The parameters of the reference flash (20_memory.md R55), each under its name there. -/
structure RfParams where
  /-- `P`: physical size in bytes. -/
  size : Nat
  /-- `PAGE_SIZE`, default 256. -/
  pageSize : Nat := 256
  /-- `SECTOR_SIZE`. -/
  sectorSize : Nat
  /-- `T_PROG`: busy latency of a program, in busy status polls. -/
  tProg : Nat
  /-- `T_ERASE`: busy latency of an erase, in busy status polls. -/
  tErase : Nat
  /-- `RF_MFR`. -/
  mfr : Byte
  /-- `RF_TYPE`. -/
  type : Byte
  /-- `RF_CAPCODE`. -/
  capCode : Byte
  /-- `RF_IMAGE`. -/
  image : Image
  deriving DecidableEq, Repr, Inhabited

/-- The order of bits inside a byte on the wire. -/
inductive BitOrder where
  | msbFirst
  | lsbFirst
  deriving DecidableEq, Repr, Inhabited

/-- The environment's draw for the `n`-th free value of a run: the byte received in an exchange that
nothing defines (00_scope.md R10, 92_eei_decisions.md D2). DESIGN CHOICE for
the form, safe for one run: free, log entry 1. -/
opaque Config.draw : Nat → Byte

/-- `S.cap` after a reset: "unspecified, and a model must not give it one" (10_state.md R22,
70_reset_and_hazards.md R230). DESIGN CHOICE, unsafe as every named reset value is: free, log
entry 2. -/
opaque Config.freeCap : Nat → Addr

/-- The reference flash parameters of the machine that `State.reset` describes (20_memory.md R55, OPEN).
DESIGN CHOICE: free, log entry 3. -/
opaque Config.rfParams : RfParams

/-- Whether the chip attached to the machine that `State.reset` describes is the reference flash
(00_scope.md R10). DESIGN CHOICE: free, log entry 3. -/
opaque Config.rfAttached : Bool

/-- `WIRE_BIT_ORDER` (00_scope.md R7, 20_memory.md R44): OPEN, and no rule depends on it.
DESIGN CHOICE, safe: nothing reads it, log entry 13. -/
opaque Config.wireBitOrder : BitOrder

end Sys2Proof
end

