-- ==== Sys2Proof/Syntax.lean ====
section
/-! DEFINITION. The instructions: one constructor per row of spec/opcode_table.json. -/

namespace Sys2Proof

/-- The ten upward commands (00_scope.md R3, 30_encoding.md R81) and the six wire transactions, one per
wire opcode (30_encoding.md R84, R85). -/
inductive Instr where
  /-- `init`: read the device ID and set the capacity (R101). -/
  | init
  /-- `read_start <addr>` (R120). -/
  | readStart (addr : Addr)
  /-- `read_byte <last>` (R121). -/
  | readByte (isLast : Bool)
  /-- `read_stop` (R122). -/
  | readStop
  /-- `write_start <addr>` (R141). -/
  | writeStart (addr : Addr)
  /-- `write_byte <byte>` (R142). -/
  | writeByte (data : Byte)
  /-- `write_stop` (R143). -/
  | writeStop
  /-- `write_isbusy` (R161). -/
  | writeIsbusy
  /-- `erase <addr>` (R162). -/
  | erase (addr : Addr)
  /-- `getsize` (R102). -/
  | getsize
  /-- WREN, wire opcode 0x06: no follow-on bytes (R84, R140). -/
  | wren
  /-- PAGE_PROGRAM, wire opcode 0x02: 3-byte address, then data bytes (R84). -/
  | pageProgram (addr : Addr) (data : List Byte)
  /-- SECTOR_ERASE, wire opcode 0x20: 3-byte address (R84). -/
  | sectorErase (addr : Addr)
  /-- READ_DATA, wire opcode 0x03: 3-byte address, then `count` data bytes clocked out (R84). -/
  | readData (addr : Addr) (count : Nat)
  /-- READ_STATUS1, wire opcode 0x05: `count` status bytes clocked out; R85 has one, R65 accepts any. -/
  | readStatus1 (count : Nat)
  /-- READ_ID, wire opcode 0x9F: `count` bytes clocked out; R85 has three, R65 accepts any. -/
  | readId (count : Nat)
  deriving DecidableEq, Repr

end Sys2Proof
end

