-- ==== Sys2Proof/WellFormed.lean ====
section
/-! DEFINITION. Well-formed instructions and well-formed reference flash parameters. -/

namespace Sys2Proof

/-- A well-formed instruction. The operands of an upward command have exactly the widths of their fields
(30_encoding.md R80), so every command is well-formed. A wire transaction is well-formed when it has the
length 30_encoding.md R85 gives its opcode: one status byte, three device-ID bytes; the two streaming
opcodes take any number of data bytes. -/
def Instr.wf : Instr → Bool
  | .init => true
  | .readStart _ => true
  | .readByte _ => true
  | .readStop => true
  | .writeStart _ => true
  | .writeByte _ => true
  | .writeStop => true
  | .writeIsbusy => true
  | .erase _ => true
  | .getsize => true
  | .wren => true
  | .pageProgram _ _ => true
  | .sectorErase _ => true
  | .readData _ _ => true
  | .readStatus1 count => count == 1
  | .readId count => count == 3

/-- The constraints of 20_memory.md R55: `1 <= P <= 2^24`, `P` a multiple of `SECTOR_SIZE`, `SECTOR_SIZE` a
multiple of `PAGE_SIZE`. DEDUCED: both sizes are at least 1, since R67 and R68 take remainders by them (log
entry 3). -/
def RfParams.wf (p : RfParams) : Bool :=
  decide (1 ≤ p.size) && decide (p.size ≤ 2 ^ 24) && decide (1 ≤ p.sectorSize) && decide (1 ≤ p.pageSize) &&
    (p.size % p.sectorSize == 0) && (p.sectorSize % p.pageSize == 0)

/-- The parameters themselves where R55 allows them, else a one-page chip: the limit R55 sets on the free
parameters of `State.reset` (log entry 3). -/
def RfParams.legal (p : RfParams) : RfParams :=
  if p.wf then p
  else { p with size := 256, pageSize := 256, sectorSize := 256 }

/-- Whichever parameters `legal` is given, it answers ones that meet R55. -/
theorem RfParams.legal_wf (p : RfParams) : p.legal.wf = true := by
  unfold RfParams.legal
  split
  · assumption
  · simp [RfParams.wf]

end Sys2Proof
end

