-- ==== Sys2Proof/Machine/State.lean ====
section
/-! DEFINITION. Every piece of state the spec gives the machine (10_state.md R20, 20_memory.md R56,
30_encoding.md R93 and R94), as plain data, and the state after power-on reset. -/

namespace Sys2Proof.Machine

/-- The session kind `S.sess` (R20, R23). The encoding value 3 is never held. -/
inductive Session where
  | idle
  | read
  | write
  deriving DecidableEq, Repr

/-- The four kinds of bus event (00_scope.md R9). -/
inductive BusEvent where
  /-- `TINIT`: the block initialises the transport. -/
  | tinit
  /-- `CSA`: chip-select asserted. -/
  | csa
  /-- `CSD`: chip-select deasserted. -/
  | csd
  /-- `XFER(tx, rx)`: one byte exchanged, `tx` sent and `rx` clocked back. -/
  | xfer (tx rx : Byte)
  deriving DecidableEq, Repr

/-- The block's fault codes 1 to 6 (60_exceptions.md R201). -/
inductive FaultCode where
  | illegalCmd
  | notInit
  | reinit
  | sessionOpen
  | noSession
  | wrongSession
  deriving DecidableEq, Repr

/-- The environment fault codes of the reference flash (20_memory.md R71). -/
inductive RfFault where
  | busy
  | opcode
  | trunc
  | range
  | align
  deriving DecidableEq, Repr

/-- A command's response (30_encoding.md R94). -/
inductive Response where
  /-- `NONE`. -/
  | noValue
  /-- `BYTE(b)`. -/
  | byte (b : Byte)
  /-- `BOOL(v)`. -/
  | bool (v : Bool)
  /-- `SIZE(c)`. -/
  | size (c : Addr)
  /-- `FAULT(code)`. -/
  | fault (code : BitVec 3)
  deriving DecidableEq, Repr

/-- The sticky fault register `S.fault` (10_state.md R25). -/
structure FaultReg where
  /-- 0 means no fault; 1 to 6 are the codes of R201. -/
  code : BitVec 3
  /-- The command word that faulted. -/
  word : CmdWord
  deriving DecidableEq, Repr

/-- The state of the reference flash (20_memory.md R56), field by field. -/
structure Rf where
  /-- `RF.mem`, as the cells whose byte differs from `RF_IMAGE` there, in rising order of address. -/
  mem : List Host.Cell
  /-- `RF.wel`, the write-enable latch. -/
  wel : Bool
  /-- `RF.busy`, busy polls remaining. -/
  busy : Nat
  /-- `RF.sel`. -/
  sel : Bool
  /-- `RF.txn`, the bytes received since the last `CSA`, the opcode first. -/
  txn : List Byte
  /-- `RF.fault`, sticky. -/
  fault : Option RfFault
  deriving DecidableEq, Repr

/-- An item of the caller's program (30_encoding.md R93): a command word or `wait_ready`; and a wire
transaction that a bus master other than the block drives, which R93 does not list (DESIGN CHOICE, log
entry 6). -/
inductive Item where
  | issue (e : Encoded)
  | waitReady
  deriving DecidableEq, Repr

/-- The whole machine: the block's six fields (R20), the attached chip, the caller's program, and the
model's own fields (INVENTORY.md, State). -/
structure State where
  /-- `S.init_done` (R21). -/
  initDone : Bool
  /-- `S.cap` (R22). -/
  cap : Addr
  /-- `S.sess` (R23). -/
  sess : Session
  /-- `S.cs`, 1 = asserted (R24). -/
  cs : Bool
  /-- `S.fault` (R25). -/
  fault : FaultReg
  /-- `S.trace`, oldest event first (R26). -/
  trace : List BusEvent
  /-- The response last returned on the upward interface (R31, R94); none before the first. DESIGN
  CHOICE: log entry 8. -/
  resp : Option Response
  /-- Whether the attached chip is the reference flash; otherwise every received byte is a draw (R10). -/
  attached : Bool
  /-- The parameters of the reference flash (R55), constant during a run. -/
  params : RfParams
  /-- The reference flash (R56). -/
  rf : Rf
  /-- The caller's program (R93). -/
  prog : List Item
  /-- The program position (R93). -/
  pc : Nat
  /-- The model's own: how many free values have been drawn. DESIGN CHOICE: log entry 1. -/
  draws : Nat
  /-- The model's own: the events of wire transactions that the block did not drive (DESIGN CHOICE, log
  entry 6). -/
  wireLog : List BusEvent
  /-- The model's own: a reset request from outside, honoured by the next step (R230; DESIGN CHOICE, log
  entry 10). -/
  resetReq : Bool
  deriving DecidableEq, Repr

/-- Why the machine stops with a fault. -/
inductive Fault where
  /-- Raised by every upward command and by the step while `S.fault.code` is not 0: the block takes no
  step (60_exceptions.md R204). Safe: the spec's own stop, and nothing can be proved past it. -/
  | blockFaulted (code : BitVec 3)
  /-- Raised by the step alone, when the attached reference flash has recorded a fault: the run of the
  program has stopped (30_encoding.md R93, R95, 60_exceptions.md R208). Safe: the spec's own stop. -/
  | environment (c : RfFault)
  deriving DecidableEq, Repr

/-- Why an instruction is refused. -/
inductive Refusal where
  /-- An instruction whose meaning is not written, raised by its arm of `exec` alone. Safe: nothing can
  be proved of it. No instruction of this model is refused. -/
  | notModelled (mnemonic : String)
  deriving DecidableEq, Repr

/-- The reference flash at its reset (20_memory.md R57): the array holds `RF_IMAGE`, so no cell differs
from it (log entry 4). -/
def Rf.reset : Rf :=
  { mem := [], wel := false, busy := 0, sel := false, txn := [], fault := none }

/-- The machine right after power-on reset (10_state.md R20, 70_reset_and_hazards.md R230, 20_memory.md
R57), for given OPEN parameters: `attached` and `p` (R7), and `S.cap` unspecified (log entry 2). No
program is loaded (log entry 9), and the model's own fields start as their log entries say. -/
def State.resetWith (attached : Bool) (p : RfParams) : State :=
  { initDone := false
    cap := Config.freeCap 0
    sess := .idle
    cs := false
    fault := { code := 0, word := 0 }
    trace := []
    resp := none
    attached := attached
    params := p
    rf := Rf.reset
    prog := []
    pc := 0
    draws := 0
    wireLog := []
    resetReq := false }

/-- The machine right after power-on reset, its OPEN parameters the free constants of Config, limited to
what 20_memory.md R55 allows. -/
def State.reset : State := State.resetWith Config.rfAttached Config.rfParams.legal

end Sys2Proof.Machine
end

