-- ==== Sys2Proof/Machine/Flags.lean ====
section
/-! DEFINITION. The one flag of the source, the flash's busy bit (10_state.md R30): the block's parser of the
status byte, and the status byte the reference flash gives. -/

namespace Sys2Proof.Machine

/-- The status-byte parser `StatusBusy(s)` (43_status_erase.md R160): bit 0, the others ignored. -/
def statusBusy (s : Byte) : Bool := s.getLsbD 0

/-- The status byte of the reference flash, `zext_8(RF.busy > 0)` (20_memory.md R61). -/
def statusByte (busy : Nat) : Byte := if busy > 0 then 1 else 0

end Sys2Proof.Machine
end

