-- ==== Sys2Proof/Machine/Memory.lean ====
section
/-! DEFINITION. The reference flash array `RF.mem` (20_memory.md R56, R70): reads and writes of one byte, over
a list of the cells that differ from `RF_IMAGE`, in strictly rising order of address. -/

namespace Sys2Proof.Machine

/-- The byte of `RF_IMAGE` at an address: what an address that `RF.mem` does not list reads as (R57, log
entry 4). -/
def imageRead (im : Image) (a : Nat) : Byte := (im.cells.lookup a).getD im.fill

/-- `MemRead(a, 1)` (R70). -/
def memRead (im : Image) (m : List Host.Cell) (a : Nat) : Byte := (m.lookup a).getD (imageRead im a)

/-- The cell put before a list of cells, unless it holds what the image holds there. -/
def memCons (im : Image) (a : Nat) (v : Byte) (m : List Host.Cell) : List Host.Cell :=
  if v = imageRead im a then m else (a, v) :: m

/-- `MemWrite(a, 1, v)` (R70), keeping the canonical form. -/
def memWrite (im : Image) : List Host.Cell → Nat → Byte → List Host.Cell
  | [], a, v => memCons im a v []
  | c :: m, a, v =>
    if a < c.1 then memCons im a v (c :: m)
    else if a = c.1 then memCons im a v m
    else c :: memWrite im m a v

/-- Writes of a list of cells, first to last. -/
def memWriteAll (im : Image) (m : List Host.Cell) (ws : List Host.Cell) : List Host.Cell :=
  ws.foldl (fun m c => memWrite im m c.1 c.2) m

/-- The canonical form: addresses strictly rising, and no cell equal to the image's byte. -/
abbrev Memory.wf (im : Image) (m : List Host.Cell) : Prop :=
  m.Pairwise (fun c d => c.1 < d.1) ∧ ∀ c ∈ m, c.2 ≠ imageRead im c.1

/-- One byte of the flash array of a state, as the frames of the statements read it. -/
def State.flashByte (s : State) (a : Nat) : Byte := memRead s.params.image s.rf.mem a

end Sys2Proof.Machine
end

