-- ==== Sys2Proof/Decode.lean ====
section
/-! DEFINITION. The decoder and the encoder, from 30_encoding.md: R80 to R83 for the upward command word,
R84 and R85 for the wire transactions. Decoding is total and rejects by name. -/

namespace Sys2Proof

/-- Why a decoder rejects. -/
inductive Reject where
  /-- `Decode(w) = ILLEGAL` (R83): `OP` is 10 to 15, or a bit outside the command's operand fields is 1. -/
  | illegalCommand
  /-- A wire transaction with no byte has no opcode (R84). -/
  | wireEmpty
  /-- The first byte is none of the six wire opcodes (R84). -/
  | wireOpcode
  /-- The byte count is one the opcode does not allow (R65, R85). -/
  | wireLength
  /-- A byte sent only to receive is not the placeholder 0xFF (R89). -/
  | wirePlaceholder
  deriving DecidableEq, Repr

/-- What a decoder answers. -/
inductive Decoded where
  | instr (i : Instr)
  | reject (why : Reject)
  deriving DecidableEq, Repr

/-! ### Fields of the command word (R80) -/

/-- `OP`, `w[3:0]`. -/
def opField (w : CmdWord) : BitVec 4 := w.extractLsb' 0 4

/-- `DATA`, `w[11:4]`. -/
def dataField (w : CmdWord) : Byte := w.extractLsb' 4 8

/-- `LAST`, `w[12]`. -/
def lastField (w : CmdWord) : Bool := w.getLsbD 12

/-- `RSV`, `w[15:13]`. -/
def rsvField (w : CmdWord) : BitVec 3 := w.extractLsb' 13 3

/-- `ADDR`, `w[39:16]`. -/
def addrField (w : CmdWord) : Addr := w.extractLsb' 16 24

/-! ### Upward commands -/

/-- One row of the table of R82: a word selects the row when `w AND mask = match`. -/
structure CmdRow where
  matchBits : CmdWord
  mask : CmdWord
  build : CmdWord → Instr

/-- The table of R82, with the operand fields of R80 pulled out. -/
def cmdRows : List CmdRow :=
  [ ⟨0x0000000000, 0xFFFFFFFFFF, fun _ => .init⟩,
    ⟨0x0000000001, 0x000000FFFF, fun w => .readStart (addrField w)⟩,
    ⟨0x0000000002, 0xFFFFFFEFFF, fun w => .readByte (lastField w)⟩,
    ⟨0x0000000003, 0xFFFFFFFFFF, fun _ => .readStop⟩,
    ⟨0x0000000004, 0x000000FFFF, fun w => .writeStart (addrField w)⟩,
    ⟨0x0000000005, 0xFFFFFFF00F, fun w => .writeByte (dataField w)⟩,
    ⟨0x0000000006, 0xFFFFFFFFFF, fun _ => .writeStop⟩,
    ⟨0x0000000007, 0xFFFFFFFFFF, fun _ => .writeIsbusy⟩,
    ⟨0x0000000008, 0x000000FFFF, fun w => .erase (addrField w)⟩,
    ⟨0x0000000009, 0xFFFFFFFFFF, fun _ => .getsize⟩ ]

/-- Whether the word selects the row (R82). -/
def CmdRow.selects (r : CmdRow) (w : CmdWord) : Bool := w &&& r.mask == r.matchBits

/-- `Decode(w)` of R83: the command of the row that matches, or ILLEGAL if no row does. -/
def decodeCommand (w : CmdWord) : Decoded :=
  match cmdRows.find? (fun r => r.selects w) with
  | some r => .instr (r.build w)
  | none => .reject .illegalCommand

/-! ### Wire transactions -/

/-- The three address bytes, most significant first, as one address (R42, R85). -/
def addrOfBytes (a2 a1 a0 : Byte) : Addr := a2 ++ a1 ++ a0

/-- `addr[23:16], addr[15:8], addr[7:0]`: the address bytes in the order they are sent (R42, R86). -/
def addrBytes (a : Addr) : List Byte := [a.extractLsb' 16 8, a.extractLsb' 8 8, a.extractLsb' 0 8]

/-- The placeholder byte `PLACEHOLDER` (R7, R89). -/
def placeholder : Byte := 0xFF

/-- A run of placeholder bytes, decoded to its length. -/
def placeholders (tail : List Byte) (build : Nat → Instr) : Decoded :=
  if tail.all (· == placeholder) then .instr (build tail.length) else .reject .wirePlaceholder

/-- The wire transaction whose sent bytes these are (R84, R85), with the byte counts that R65 accepts. -/
def decodeWire : List Byte → Decoded
  | [] => .reject .wireEmpty
  | op :: tail =>
    if op = 0x06 then
      match tail with
      | [] => .instr .wren
      | _ :: _ => .reject .wireLength
    else if op = 0x02 then
      match tail with
      | a2 :: a1 :: a0 :: data => .instr (.pageProgram (addrOfBytes a2 a1 a0) data)
      | _ => .reject .wireLength
    else if op = 0x20 then
      match tail with
      | [a2, a1, a0] => .instr (.sectorErase (addrOfBytes a2 a1 a0))
      | _ => .reject .wireLength
    else if op = 0x03 then
      match tail with
      | a2 :: a1 :: a0 :: rest => placeholders rest (.readData (addrOfBytes a2 a1 a0))
      | _ => .reject .wireLength
    else if op = 0x05 then placeholders tail .readStatus1
    else if op = 0x9F then placeholders tail .readId
    else .reject .wireOpcode

/-- Decoding of either encoding. -/
def decode : Encoded → Decoded
  | .command w => decodeCommand w
  | .wire tx => decodeWire tx

/-! ### The encoder -/

/-- The command word of R80, assembled from its fields with `RSV` zero. -/
def cmdWord (op : BitVec 4) (data : Byte) (last : Bool) (addr : Addr) : CmdWord :=
  addr ++ (0 : BitVec 3) ++ BitVec.ofBool last ++ data ++ op

/-- The encoding of an instruction: the command word of R80 with the `OP` of R81, or the sent bytes of
R85. -/
def encode : Instr → Encoded
  | .init => .command (cmdWord 0 0 false 0)
  | .readStart a => .command (cmdWord 1 0 false a)
  | .readByte l => .command (cmdWord 2 0 l 0)
  | .readStop => .command (cmdWord 3 0 false 0)
  | .writeStart a => .command (cmdWord 4 0 false a)
  | .writeByte d => .command (cmdWord 5 d false 0)
  | .writeStop => .command (cmdWord 6 0 false 0)
  | .writeIsbusy => .command (cmdWord 7 0 false 0)
  | .erase a => .command (cmdWord 8 0 false a)
  | .getsize => .command (cmdWord 9 0 false 0)
  | .wren => .wire [0x06]
  | .pageProgram a data => .wire (0x02 :: addrBytes a ++ data)
  | .sectorErase a => .wire (0x20 :: addrBytes a)
  | .readData a n => .wire (0x03 :: addrBytes a ++ List.replicate n placeholder)
  | .readStatus1 n => .wire (0x05 :: List.replicate n placeholder)
  | .readId n => .wire (0x9F :: List.replicate n placeholder)

/-- The command word of an upward command; a wire transaction has none, and 0 stands there. -/
def wordOf (i : Instr) : CmdWord :=
  match encode i with
  | .command w => w
  | .wire _ => 0

/-- The bytes sent in a wire transaction; an upward command has none of its own. -/
def wireBytesOf (i : Instr) : List Byte :=
  match encode i with
  | .command _ => []
  | .wire tx => tx

/-! ### The opcode table's numbering of bits -/

/-- A wire opcode with the operand bytes of its transaction laid out: address bytes zero, no data bytes,
and the placeholders of R85. -/
def completeWire (op : Byte) : Option (List Byte) :=
  if op = 0x06 then some [op]
  else if op = 0x02 ∨ op = 0x20 ∨ op = 0x03 then some [op, 0, 0, 0]
  else if op = 0x05 then some [op, placeholder]
  else if op = 0x9F then some [op, placeholder, placeholder, placeholder]
  else none

/-- The instruction of spec/opcode_table.json whose bits are `w`: a row of at most 8 bits is a WIRE8 row
where the byte is a wire opcode; every other row is a CMD40 row, its bits above `nbits` zero (DESIGN
CHOICE, log entry 9). -/
def tableEncoded (nbits w : Nat) : Encoded :=
  if nbits ≤ 8 then
    match completeWire (BitVec.ofNat 8 w) with
    | some tx => .wire tx
    | none => .command (BitVec.ofNat 40 w)
  else .command (BitVec.ofNat 40 w)

/-- The instruction the decoder reads from an instruction whose bits are `w`, none where it rejects. -/
def decodeTableWord (nbits w : Nat) : Option Instr :=
  match decode (tableEncoded nbits w) with
  | .instr i => some i
  | .reject _ => none

end Sys2Proof
end

