-- ==== Sys2Proof/Machine/Operands.lean ====
section
/-! DEFINITION. The operand and data forms of the block: the session code, the fault codes, the address of a
transaction, the Winbond capacity decoder. -/

namespace Sys2Proof.Machine

/-- `IDLE`=0, `READ`=1, `WRITE`=2 (10_state.md R20). -/
def Session.bits : Session → BitVec 2
  | .idle => 0
  | .read => 1
  | .write => 2

/-- The number of a fault code (60_exceptions.md R201). -/
def FaultCode.bits : FaultCode → BitVec 3
  | .illegalCmd => 1
  | .notInit => 2
  | .reinit => 3
  | .sessionOpen => 4
  | .noSession => 5
  | .wrongSession => 6

/-- `RF.txn[1] ++ RF.txn[2] ++ RF.txn[3]`, the 24-bit address of a transaction (20_memory.md R62, R67, R68). -/
def txnAddr (txn : List Byte) : Addr := addrOfBytes (txn.getD 1 0) (txn.getD 2 0) (txn.getD 3 0)

/-- `WINBOND_MFR` (00_scope.md R7). -/
def winbondMfr : Byte := 0xEF

/-- `DEFAULT_CAP`, 2 MiB (00_scope.md R7). -/
def defaultCap : Addr := 0x200000

/-- The Winbond capacity decoder `CapDecode(m, c)` (40_identify.md R100). -/
def capDecode (m c : Byte) : Addr :=
  if m ≠ winbondMfr then defaultCap
  else if c = 0x14 then 0x100000
  else if c = 0x15 then 0x200000
  else if c = 0x16 then 0x400000
  else if c = 0x17 then 0x800000
  else if c = 0x18 then 0xFFFFFF
  else defaultCap

/-- The five values `S.cap` holds once written (10_state.md R20). -/
def legalCaps : List Addr := [0x100000, 0x200000, 0x400000, 0x800000, 0xFFFFFF]

end Sys2Proof.Machine
end

