-- ==== Sys2Proof/Machine/Flash.lean ====
section
/-! DEFINITION. The reference flash (20_memory.md R55 to R72): its reaction to each bus event. A reference
flash that has recorded a fault takes no further step (R58). DEDUCED: the rules are followed to the letter
also where only another bus master can lead (log entry 5). -/

namespace Sys2Proof.Machine

/-- `raise RFFault(c)` (R71). -/
def Rf.raise (f : Rf) (c : RfFault) : Rf := { f with fault := some c }

/-- RF on `CSA` (R58). -/
def Rf.select (f : Rf) : Rf :=
  match f.fault with
  | some _ => f
  | none => { f with sel := true, txn := [] }

/-- The six opcodes of the wire encoding (30_encoding.md R84). -/
def wireOpcodes : List Byte := [0x06, 0x02, 0x20, 0x03, 0x05, 0x9F]

/-- The address read at index `i >= 4` of a Read Data transaction, computed without wrap (R62). -/
def readAddr (txn : List Byte) (i : Nat) : Nat := (txnAddr txn).toNat + (i - 4)

/-- The fault that the byte `tx` raises at index `i = length(RF.txn)`, if any (R59, R62). -/
def Rf.xferFault (p : RfParams) (f : Rf) (tx : Byte) : Option RfFault :=
  match f.txn with
  | [] =>
    if f.busy > 0 ∧ tx ≠ 0x05 then some .busy
    else if tx ∉ wireOpcodes then some .opcode
    else none
  | op :: _ =>
    if op = 0x03 ∧ 4 ≤ f.txn.length ∧ p.size ≤ readAddr f.txn f.txn.length then some .range
    else none

/-- The byte clocked back at index `i = length(RF.txn)` where no fault is raised: the one that R60 to R64
define, else the draw `d`. -/
def Rf.xferByte (p : RfParams) (f : Rf) (d : Byte) : Byte :=
  match f.txn with
  | [] => d
  | op :: _ =>
    let i := f.txn.length
    if op = 0x9F then
      if i = 1 then p.mfr else if i = 2 then p.type else if i = 3 then p.capCode else d
    else if op = 0x05 then statusByte f.busy
    else if op = 0x03 ∧ 4 ≤ i then memRead p.image f.mem (readAddr f.txn i)
    else d

/-- `rx` of `XFER(tx, rx)` at the reference flash, where `d` is the environment's draw (R58 to R64). -/
def Rf.reply (p : RfParams) (f : Rf) (tx d : Byte) : Byte :=
  match f.fault with
  | some _ => d
  | none =>
    match f.xferFault p tx with
    | some _ => d
    | none => f.xferByte p d

/-- RF after `XFER(tx, rx)`: the byte is appended first, then a fault may be raised (R59, R62). -/
def Rf.exchange (p : RfParams) (f : Rf) (tx : Byte) : Rf :=
  match f.fault with
  | some _ => f
  | none => { f with txn := f.txn ++ [tx], fault := f.xferFault p tx }

/-- The page buffer of R67: `PAGE_SIZE` bytes of 0xFF, then each data byte at its offset in the page, a
later byte replacing an earlier one. -/
def pageBuffer (pageSize off : Nat) (data : List Byte) : List Byte :=
  data.zipIdx.foldl (fun buf dj => buf.set ((off + dj.2) % pageSize) dj.1) (List.replicate pageSize 0xFF)

/-- The page program of R67 at address `a`: each byte of the page ANDed with the buffer. -/
def programPage (p : RfParams) (m : List Host.Cell) (a : Nat) (data : List Byte) : List Host.Cell :=
  (List.range p.pageSize).foldl
    (fun m' k =>
      memWrite p.image m' (a - a % p.pageSize + k)
        (memRead p.image m' (a - a % p.pageSize + k) &&& (pageBuffer p.pageSize (a % p.pageSize) data).getD k 0xFF))
    m

/-- The sector erase of R68 at address `a`. -/
def eraseSector (p : RfParams) (m : List Host.Cell) (a : Nat) : List Host.Cell :=
  (List.range p.sectorSize).foldl (fun m' k => memWrite p.image m' (a + k) 0xFF) m

/-- RF action at `CSD` of 0x02 (R67). -/
def Rf.commitProgram (p : RfParams) (f : Rf) : Rf :=
  let a := (txnAddr f.txn).toNat
  if p.size ≤ a then f.raise .range
  else if f.wel = false then f
  else { f with mem := programPage p f.mem a (f.txn.drop 4), wel := false, busy := p.tProg }

/-- RF action at `CSD` of 0x20 (R68). -/
def Rf.commitErase (p : RfParams) (f : Rf) : Rf :=
  let a := (txnAddr f.txn).toNat
  if p.size ≤ a then f.raise .range
  else if a % p.sectorSize ≠ 0 then f.raise .align
  else if f.wel = false then f
  else { f with mem := eraseSector p f.mem a, wel := false, busy := p.tErase }

/-- The length check of R65 for opcode `op` and `n` bytes. -/
def lengthBad (op : Byte) (n : Nat) : Bool :=
  (op == 0x06 && n != 1) || (op == 0x20 && n != 4) || ((op == 0x03 || op == 0x02) && decide (n < 4))

/-- RF action at `CSD` for the opcode of the transaction (R65 to R69). -/
def Rf.close (p : RfParams) (f : Rf) (op : Byte) : Rf :=
  if lengthBad op f.txn.length then f.raise .trunc
  else if op = 0x06 then { f with wel := true }
  else if op = 0x02 then f.commitProgram p
  else if op = 0x20 then f.commitErase p
  else if op = 0x05 then
    if 2 ≤ f.txn.length ∧ f.busy > 0 then { f with busy := f.busy - 1 } else f
  else f

/-- RF on `CSD` (R65). -/
def Rf.deselect (p : RfParams) (f : Rf) : Rf :=
  match f.fault with
  | some _ => f
  | none =>
    match f.txn with
    | [] => { f with sel := false }
    | op :: _ => Rf.close p { f with sel := false } op

end Sys2Proof.Machine
end

