-- ==== Sys2Proof/Machine/Ops.lean ====
section
/-! DEFINITION. The operations every command is written over: the four transport primitives (00_scope.md R9),
the fault check and fault entry (60_exceptions.md R202, R203), reset (70_reset_and_hazards.md R230), and a
command's frame of checks and response. -/

namespace Sys2Proof.Machine

/-! ### Transport primitives (R9): each appends its event to `S.trace`, and the attached chip reacts -/

/-- `TransportInit()`: the event alone; the reference flash does not react (20_memory.md R58). -/
def transportInit (s : State) : State := { s with trace := s.trace ++ [.tinit] }

/-- `CsAssert()`. -/
def csAssert (s : State) : State :=
  { s with cs := true, trace := s.trace ++ [.csa], rf := if s.attached then s.rf.select else s.rf }

/-- `CsDeassert()`. -/
def csDeassert (s : State) : State :=
  { s with cs := false, trace := s.trace ++ [.csd], rf := if s.attached then s.rf.deselect s.params else s.rf }

/-- The byte that `Xfer(tx)` clocks back: the reference flash's where it is attached and defines one, else
the environment's draw (R10). -/
def received (tx : Byte) (s : State) : Byte :=
  if s.attached then s.rf.reply s.params tx (Config.draw s.draws) else Config.draw s.draws

/-- `Xfer(tx)`: the exchange of one byte; `received tx s` is its result. -/
def xfer (tx : Byte) (s : State) : State :=
  { s with
    trace := s.trace ++ [.xfer tx (received tx s)]
    rf := if s.attached then s.rf.exchange s.params tx else s.rf
    draws := s.draws + 1 }

/-- Several exchanges whose received bytes are discarded (00_scope.md R11). -/
def xferAll : List Byte → State → State
  | [], s => s
  | b :: bs, s => xferAll bs (xfer b s)

/-- The address multiplexer `AddrOut(a)` (30_encoding.md R86). -/
def addrOut (a : Addr) (s : State) : State := xferAll (addrBytes a) s

/-- The write-enable transaction `WrenTxn()` (42_program.md R140). -/
def wrenTxn (s : State) : State := csDeassert (xfer 0x06 (csAssert s))

/-! ### Responses, faults and the frame of a command -/

/-- `return r` (R94). -/
def respond (r : Response) (s : State) : State := { s with resp := some r }

/-- Fault entry, `raise Fault(code, w)` (60_exceptions.md R203): the fault register and the response,
nothing else. -/
def raiseFault (c : FaultCode) (w : CmdWord) (s : State) : State :=
  { s with fault := { code := c.bits, word := w }, resp := some (.fault c.bits) }

/-- The groups into which the checks of R202 put the commands. -/
inductive Group where
  /-- `init`. -/
  | init
  /-- The commands that open a chip-select interval. -/
  | opens
  /-- `read_byte` and `read_stop`. -/
  | needsRead
  /-- `write_byte` and `write_stop`. -/
  | needsWrite
  /-- `getsize`, which has no session check. -/
  | free
  deriving DecidableEq, Repr

/-- The group of a command (R202). A wire transaction is no command and is never checked. -/
def groupOf : Instr → Group
  | .init => .init
  | .readStart _ => .opens
  | .readByte _ => .needsRead
  | .readStop => .needsRead
  | .writeStart _ => .opens
  | .writeByte _ => .needsWrite
  | .writeStop => .needsWrite
  | .writeIsbusy => .opens
  | .erase _ => .opens
  | .getsize => .free
  | .wren => .free
  | .pageProgram _ _ => .free
  | .sectorErase _ => .free
  | .readData _ _ => .free
  | .readStatus1 _ => .free
  | .readId _ => .free

/-- The checks of R202 that follow a successful decode, in their order: the first that applies. -/
def checkGroup (g : Group) (s : State) : Option FaultCode :=
  if g ≠ .init ∧ s.initDone = false then some .notInit
  else if g = .init ∧ s.initDone = true then some .reinit
  else if g = .opens ∧ s.sess ≠ .idle then some .sessionOpen
  else if (g = .needsRead ∨ g = .needsWrite) ∧ s.sess = .idle then some .noSession
  else if g = .needsRead ∧ s.sess = .write then some .wrongSession
  else if g = .needsWrite ∧ s.sess = .read then some .wrongSession
  else none

/-- The fault that the checks of R202 find for a command, if any. -/
def check (i : Instr) (s : State) : Option FaultCode := checkGroup (groupOf i) s

/-- An upward command: no step while a fault stands (R204); else the fault checks, before any bus event
(R202); else the command's own effect. -/
def command (i : Instr) (body : State → State) (s : State) : Host.Outcome State Fault Refusal :=
  if s.fault.code = 0 then
    match check i s with
    | some c => .next (raiseFault c (wordOf i) s)
    | none => .next (body s)
  else .fault (.blockFaulted s.fault.code)

/-- A command word that decodes to no command (R83, R201): `F_ILLEGAL_CMD`. -/
def execIllegal (w : CmdWord) (s : State) : Host.Outcome State Fault Refusal :=
  if s.fault.code = 0 then .next (raiseFault .illegalCmd w s)
  else .fault (.blockFaulted s.fault.code)

/-! ### Wire transactions that the block does not drive (log entry 6) -/

/-- An event on the bus that is not the block's: logged apart from `S.trace`. -/
def wireEvent (e : BusEvent) (s : State) : State := { s with wireLog := s.wireLog ++ [e] }

/-- One byte exchanged in such a transaction. -/
def wireXfer (tx : Byte) (s : State) : State :=
  { s with
    wireLog := s.wireLog ++ [.xfer tx (received tx s)]
    rf := if s.attached then s.rf.exchange s.params tx else s.rf
    draws := s.draws + 1 }

/-- The exchanges of such a transaction, in order. -/
def wireXferAll : List Byte → State → State
  | [], s => s
  | b :: bs, s => wireXferAll bs (wireXfer b s)

/-- Chip-select asserted by another bus master: the chip reacts, the block's own output is unchanged. -/
def wireSelect (s : State) : State :=
  wireEvent .csa { s with rf := if s.attached then s.rf.select else s.rf }

/-- Chip-select deasserted by another bus master. -/
def wireDeselect (s : State) : State :=
  wireEvent .csd { s with rf := if s.attached then s.rf.deselect s.params else s.rf }

/-- A whole wire transaction (30_encoding.md R85): select, the sent bytes in order, deselect. -/
def wireTxn (tx : List Byte) (s : State) : State := wireDeselect (wireXferAll tx (wireSelect s))

/-! ### Reset (R230, R231) -/

/-- Reset of the block: an asserted chip-select is released, and the release is recorded and seen by the
chip (R231); then every field of R230, `S.cap` unspecified (log entry 2). The trace keeps its
history (DEDUCED, log entry 11); what R230 does not name stays (DESIGN CHOICE, log entries 8 and 10). -/
def blockReset (s : State) : State :=
  let r := if s.cs then csDeassert s else s
  { r with
    cs := false
    sess := .idle
    initDone := false
    fault := { code := 0, word := 0 }
    cap := Config.freeCap (r.draws + 1)
    draws := r.draws + 1
    resetReq := false }

end Sys2Proof.Machine
end

