-- ==== Sys2Proof/Machine/Identify.lean ====
section
/-! DEFINITION. Identification and capacity: `init` and `getsize` (40_identify.md). -/

namespace Sys2Proof.Machine

/-- The pseudocode of `init` (R101): the device ID is read, its memory-type byte discarded. -/
def doInit (s : State) : State :=
  let s1 := xfer 0x9F (csAssert (transportInit s))
  let m := received placeholder s1
  let s2 := xfer placeholder (xfer placeholder s1)
  let c := received placeholder s2
  let s3 := csDeassert (xfer placeholder s2)
  respond .noValue { s3 with cap := capDecode m c, initDone := true }

/-- `init` (R101). -/
def execInit (s : State) : Host.Outcome State Fault Refusal := command .init doInit s

/-- The pseudocode of `getsize` (R102): the capacity, no bus event. -/
def doGetsize (s : State) : State := respond (.size s.cap) s

/-- `getsize` (R102). -/
def execGetsize (s : State) : Host.Outcome State Fault Refusal := command .getsize doGetsize s

end Sys2Proof.Machine
end

