-- ==== Sys2Proof/Machine/Program.lean ====
section
/-! DEFINITION. The program session: `write_start`, `write_byte`, `write_stop` (42_program.md). -/

namespace Sys2Proof.Machine

/-- The pseudocode of `write_start` (R141). -/
def doWriteStart (addr : Addr) (s : State) : State :=
  respond .noValue { addrOut addr (xfer 0x02 (csAssert (wrenTxn s))) with sess := .write }

/-- `write_start` (R141). -/
def execWriteStart (addr : Addr) (s : State) : Host.Outcome State Fault Refusal :=
  command (.writeStart addr) (doWriteStart addr) s

/-- The pseudocode of `write_byte` (R142): one data byte sent, the received byte discarded. -/
def doWriteByte (data : Byte) (s : State) : State := respond .noValue (xfer data s)

/-- `write_byte` (R142). -/
def execWriteByte (data : Byte) (s : State) : Host.Outcome State Fault Refusal :=
  command (.writeByte data) (doWriteByte data) s

/-- The pseudocode of `write_stop` (R143): the chip commits the page program at the deassert. -/
def doWriteStop (s : State) : State := respond .noValue { csDeassert s with sess := .idle }

/-- `write_stop` (R143). -/
def execWriteStop (s : State) : Host.Outcome State Fault Refusal := command .writeStop doWriteStop s

end Sys2Proof.Machine
end

