-- ==== Sys2Proof/Machine/Read.lean ====
section
/-! DEFINITION. The read session: `read_start`, `read_byte`, `read_stop` (41_read.md). -/

namespace Sys2Proof.Machine

/-- The pseudocode of `read_start` (R120). -/
def doReadStart (addr : Addr) (s : State) : State :=
  respond .noValue { addrOut addr (xfer 0x03 (csAssert s)) with sess := .read }

/-- `read_start` (R120). -/
def execReadStart (addr : Addr) (s : State) : Host.Outcome State Fault Refusal :=
  command (.readStart addr) (doReadStart addr) s

/-- The pseudocode of `read_byte` (R121): a placeholder out, the data byte in; `is_last` is not read. -/
def doReadByte (s : State) : State := respond (.byte (received placeholder s)) (xfer placeholder s)

/-- `read_byte` (R121). -/
def execReadByte (isLast : Bool) (s : State) : Host.Outcome State Fault Refusal :=
  command (.readByte isLast) doReadByte s

/-- The pseudocode of `read_stop` (R122). -/
def doReadStop (s : State) : State := respond .noValue { csDeassert s with sess := .idle }

/-- `read_stop` (R122). -/
def execReadStop (s : State) : Host.Outcome State Fault Refusal := command .readStop doReadStop s

end Sys2Proof.Machine
end

