-- ==== Sys2Proof/Machine/StatusErase.lean ====
section
/-! DEFINITION. Status and erase: `write_isbusy` and `erase` (43_status_erase.md). -/

namespace Sys2Proof.Machine

/-- The pseudocode of `write_isbusy` (R161): the status byte through its parser. -/
def doWriteIsbusy (s : State) : State :=
  let s1 := xfer 0x05 (csAssert s)
  respond (.bool (statusBusy (received placeholder s1))) (csDeassert (xfer placeholder s1))

/-- `write_isbusy` (R161). -/
def execWriteIsbusy (s : State) : Host.Outcome State Fault Refusal := command .writeIsbusy doWriteIsbusy s

/-- The pseudocode of `erase` (R162). -/
def doErase (addr : Addr) (s : State) : State :=
  respond .noValue (csDeassert (addrOut addr (xfer 0x20 (csAssert (wrenTxn s)))))

/-- `erase` (R162). -/
def execErase (addr : Addr) (s : State) : Host.Outcome State Fault Refusal :=
  command (.erase addr) (doErase addr) s

end Sys2Proof.Machine
end

