-- ==== Sys2Proof/Machine/Wire.lean ====
section
/-! DEFINITION. The six wire opcodes (30_encoding.md R84, R85) as instructions of the chip: each is one whole
wire transaction, driven at the attached chip by a bus master that is not the block. The block's own state is
untouched, and the received bytes stand in the wire log (DESIGN CHOICE, log entry 6). -/

namespace Sys2Proof.Machine

/-- WREN (R84; the reference flash: R64, R66). -/
def execWren (s : State) : Host.Outcome State Fault Refusal := .next (wireTxn (wireBytesOf .wren) s)

/-- PAGE_PROGRAM (R84; the reference flash: R63, R67). -/
def execPageProgram (addr : Addr) (data : List Byte) (s : State) : Host.Outcome State Fault Refusal :=
  .next (wireTxn (wireBytesOf (.pageProgram addr data)) s)

/-- SECTOR_ERASE (R84; the reference flash: R64, R68). -/
def execSectorErase (addr : Addr) (s : State) : Host.Outcome State Fault Refusal :=
  .next (wireTxn (wireBytesOf (.sectorErase addr)) s)

/-- READ_DATA (R84; the reference flash: R62). -/
def execReadData (addr : Addr) (count : Nat) (s : State) : Host.Outcome State Fault Refusal :=
  .next (wireTxn (wireBytesOf (.readData addr count)) s)

/-- READ_STATUS1 (R84; the reference flash: R61, R69). -/
def execReadStatus1 (count : Nat) (s : State) : Host.Outcome State Fault Refusal :=
  .next (wireTxn (wireBytesOf (.readStatus1 count)) s)

/-- READ_ID (R84; the reference flash: R60). -/
def execReadId (count : Nat) (s : State) : Host.Outcome State Fault Refusal :=
  .next (wireTxn (wireBytesOf (.readId count)) s)

end Sys2Proof.Machine
end

