-- ==== Sys2Proof/Machine/Dispatch.lean ====
section
/-! DEFINITION. Every instruction's meaning, one arm per constructor. -/

namespace Sys2Proof.Machine

def exec (i : Instr) (s : State) : Host.Outcome State Fault Refusal :=
  match i with
  | .init => Sys2Proof.Machine.execInit s
  | .readStart addr => Sys2Proof.Machine.execReadStart addr s
  | .readByte isLast => Sys2Proof.Machine.execReadByte isLast s
  | .readStop => Sys2Proof.Machine.execReadStop s
  | .writeStart addr => Sys2Proof.Machine.execWriteStart addr s
  | .writeByte data => Sys2Proof.Machine.execWriteByte data s
  | .writeStop => Sys2Proof.Machine.execWriteStop s
  | .writeIsbusy => Sys2Proof.Machine.execWriteIsbusy s
  | .erase addr => Sys2Proof.Machine.execErase addr s
  | .getsize => Sys2Proof.Machine.execGetsize s
  | .wren => Sys2Proof.Machine.execWren s
  | .pageProgram addr data => Sys2Proof.Machine.execPageProgram addr data s
  | .sectorErase addr => Sys2Proof.Machine.execSectorErase addr s
  | .readData addr count => Sys2Proof.Machine.execReadData addr count s
  | .readStatus1 count => Sys2Proof.Machine.execReadStatus1 count s
  | .readId count => Sys2Proof.Machine.execReadId count s

end Sys2Proof.Machine
end

