-- ==== Sys2Proof/Machine/Run.lean ====
section
/-! DEFINITION. How an item of the caller's program runs (30_encoding.md R93), which Step.lean calls. -/

namespace Sys2Proof.Machine

/-- What an item's encoding does: the instruction it decodes to; a command word that decodes to none raises
`F_ILLEGAL_CMD` (R83); a wire transaction that decodes to none goes to the chip all the same, which faults on
it where 20_memory.md R59 and R65 say so (log entry 6). -/
def runEncoded (e : Encoded) (s : State) : Host.Outcome State Fault Refusal :=
  match decode e with
  | .instr i => exec i s
  | .reject _ =>
    match e with
    | .command w => execIllegal w s
    | .wire tx => .next (wireTxn tx s)

/-- The position after an item (R93): a command that faulted does not advance it (DEDUCED for a `wait_ready`,
log entry 12). -/
def advance (s : State) : State := if s.fault.code = 0 then { s with pc := s.pc + 1 } else s

/-- The position after a `wait_ready` item (R93): it stays while the chip reports busy. -/
def advanceReady (s : State) : State := if s.resp = some (.bool true) then s else advance s

/-- One item of the program (R93). -/
def runItem (it : Item) (s : State) : Host.Outcome State Fault Refusal :=
  match it with
  | .issue e =>
    match runEncoded e s with
    | .next t => .next (advance t)
    | .fault r => .fault r
    | .refused r => .refused r
  | .waitReady =>
    match exec .writeIsbusy s with
    | .next t => .next (advanceReady t)
    | .fault r => .fault r
    | .refused r => .refused r

/-- The fault recorded in a run (R93 "no fault recorded"): the block's, else the attached reference
flash's, which stops a run but not the block (DEDUCED, log entry 7). -/
def recordedFault (s : State) : Option Fault :=
  if s.fault.code = 0 then
    match s.rf.fault with
    | none => none
    | some c => if s.attached then some (.environment c) else none
  else some (.blockFaulted s.fault.code)

/-- One step of the machine: an outside reset request first (R230); no step once a fault is recorded (R93,
R204); else the item at the program position; with no item there, no command is presented and the machine
idles (10_state.md R31, log entry 9). -/
def stepState (s : State) : Host.Outcome State Fault Refusal :=
  if s.resetReq then .next (blockReset s)
  else
    match recordedFault s with
    | some r => .fault r
    | none =>
      match s.prog[s.pc]? with
      | some it => runItem it s
      | none => .next s

/-- An item put at a position of a program; positions that the program does not reach before it are filled
with `wait_ready`, and never run. -/
def placeItem : List Item → Nat → Item → List Item
  | [], 0, it => [it]
  | [], n + 1, it => .waitReady :: placeItem [] n it
  | _ :: l, 0, it => it :: l
  | x :: l, n + 1, it => x :: placeItem l n it

end Sys2Proof.Machine
end

