-- ==== Sys2Proof/Machine/Step.lean ====
section
/-! DEFINITION. The step, and the placing of an instruction where the step takes its next one. -/

namespace Sys2Proof.Machine

/-- One step of the machine (30_encoding.md R93). -/
def step (s : State) : Host.Outcome State Fault Refusal := stepState s

/-- The state with the opcode-table instruction `w` as the item at its program position, and no reset
request in front of it (log entry 9). -/
def State.withFetchWord (s : State) (nbits w : Nat) : State :=
  { s with prog := placeItem s.prog s.pc (.issue (tableEncoded nbits w)), resetReq := false }

end Sys2Proof.Machine
end

