-- ==== Sys2Proof/Machine/Assembler.lean ====
section
/-! DEFINITION. Pseudo-instructions and their expansion (30_encoding.md R92), and the textual syntax of the
commands (R91) as a function from characters to program items. DESIGN CHOICE, safe: the details
of spelling that R91 leaves open (log entry 14). -/

namespace Sys2Proof.Machine

/-- The pseudo-instructions of R92. -/
inductive Pseudo where
  | waitReady
  | readBlock (addr : Addr) (n : Nat)
  | program (addr : Addr) (data : List Byte)
  | eraseSector (addr : Addr)
  deriving DecidableEq, Repr

/-- `read_block` takes at least one byte (R92, `n >= 1`). -/
def Pseudo.wf : Pseudo → Bool
  | .waitReady => true
  | .readBlock _ n => decide (1 ≤ n)
  | .program _ _ => true
  | .eraseSector _ => true

/-- The commands of `read_block`, for any `is_last` flags (R92: they do not change the trace). -/
def readBlockCommands (addr : Addr) (lasts : List Bool) : List Instr :=
  .readStart addr :: lasts.map .readByte ++ [.readStop]

/-- The commands of a page program. -/
def programCommands (addr : Addr) (data : List Byte) : List Instr :=
  .writeStart addr :: data.map .writeByte ++ [.writeStop]

/-- The items that issue a list of instructions. -/
def issueAll (is : List Instr) : List Item := is.map (fun i => .issue (encode i))

/-- The expansion of R92; `wait_ready` is an item of its own (R93). -/
def Pseudo.expand : Pseudo → List Item
  | .waitReady => [.waitReady]
  | .readBlock addr n => issueAll (readBlockCommands addr (List.replicate (n - 1) false ++ [true]))
  | .program addr data => issueAll (programCommands addr data) ++ [.waitReady]
  | .eraseSector addr => issueAll [.erase addr] ++ [.waitReady]

/-! ### Text (R91) -/

/-- A token of a line. -/
inductive Tok where
  | word (w : List Char)
  | comma
  deriving DecidableEq, Repr

/-- The token of the characters gathered so far, if there are any. -/
def flush (acc : List Char) : List Tok := if acc = [] then [] else [.word acc]

/-- The tokens of one line; `;` starts a comment (R91). -/
def lex : List Char → List Char → List Tok
  | [], acc => flush acc
  | c :: cs, acc =>
    if c = ';' then flush acc
    else if c = ' ' ∨ c = '\t' ∨ c = '\r' then flush acc ++ lex cs []
    else if c = ',' then flush acc ++ .comma :: lex cs []
    else lex cs (acc ++ [c])

/-- The value of a digit in a base of at most 16. -/
def digit (base : Nat) (c : Char) : Option Nat :=
  let n := c.toNat
  let v := if 48 ≤ n ∧ n ≤ 57 then n - 48 else if 97 ≤ n ∧ n ≤ 102 then n - 87
    else if 65 ≤ n ∧ n ≤ 70 then n - 55 else 16
  if v < base then some v else none

/-- Digits read after a value. -/
def digits (base : Nat) : List Char → Nat → Option Nat
  | [], v => some v
  | c :: cs, v =>
    match digit base c with
    | some d => digits base cs (v * base + d)
    | none => none

/-- A number, hexadecimal with `0x` or decimal (R91). -/
def number : List Char → Option Nat
  | [] => none
  | '0' :: 'x' :: c :: cs => digits 16 (c :: cs) 0
  | cs => digits 10 cs 0

/-- A list of numbers separated by commas, possibly empty. -/
def operands : List Tok → Option (List Nat)
  | [] => some []
  | [.word w] => (number w).map ([·])
  | .word w :: .comma :: rest =>
    match number w, rest, operands rest with
    | some n, _ :: _, some ns => some (n :: ns)
    | _, _, _ => none
  | _ => none

/-- An operand that does not fit its field is a syntax error, not a truncation (R91). -/
def fits (width : Nat) (n : Nat) : Option (BitVec width) :=
  if n < 2 ^ width then some (BitVec.ofNat width n) else none

/-- Bytes that all fit. -/
def fitsBytes : List Nat → Option (List Byte)
  | [] => some []
  | n :: ns =>
    match fits 8 n, fitsBytes ns with
    | some b, some bs => some (b :: bs)
    | _, _ => none

/-- The mnemonics of R91 and R92, by the characters of the name. -/
def mnemonics : List (List Char × Nat) :=
  [ ("init".toList, 0), ("read_start".toList, 1), ("read_byte".toList, 2), ("read_stop".toList, 3),
    ("write_start".toList, 4), ("write_byte".toList, 5), ("write_stop".toList, 6), ("write_isbusy".toList, 7),
    ("erase".toList, 8), ("getsize".toList, 9), ("wait_ready".toList, 10), ("read_block".toList, 11),
    ("program".toList, 12), ("erase_sector".toList, 13) ]

/-- One instruction as items. -/
def one (i : Instr) : Option (List Item) := some (issueAll [i])

/-- One pseudo-instruction as items, if it is well-formed. -/
def expandWf (p : Pseudo) : Option (List Item) := if p.wf then some p.expand else none

/-- The items of a mnemonic, by its number in `mnemonics`, with its operands; `read_byte` alone means
`read_byte 0` (R91). -/
def assembleOp : Nat → List Nat → Option (List Item)
  | 0, [] => one .init
  | 1, [a] => (fits 24 a).bind (fun a => one (.readStart a))
  | 2, [] => one (.readByte false)
  | 2, [l] => (fits 1 l).bind (fun l => one (.readByte (l == 1)))
  | 3, [] => one .readStop
  | 4, [a] => (fits 24 a).bind (fun a => one (.writeStart a))
  | 5, [d] => (fits 8 d).bind (fun d => one (.writeByte d))
  | 6, [] => one .writeStop
  | 7, [] => one .writeIsbusy
  | 8, [a] => (fits 24 a).bind (fun a => one (.erase a))
  | 9, [] => one .getsize
  | 10, [] => expandWf .waitReady
  | 11, [a, n] => (fits 24 a).bind (fun a => expandWf (.readBlock a n))
  | 12, a :: ds => (fits 24 a).bind (fun a => (fitsBytes ds).bind (fun ds => expandWf (.program a ds)))
  | 13, [a] => (fits 24 a).bind (fun a => expandWf (.eraseSector a))
  | _, _ => none

/-- One line of text as items; none is a syntax error. -/
def assembleLine (cs : List Char) : Option (List Item) :=
  match lex cs [] with
  | [] => some []
  | .comma :: _ => none
  | .word m :: rest =>
    match mnemonics.lookup m, operands rest with
    | some k, some ns => assembleOp k ns
    | _, _ => none

/-- The lines of a text. -/
def splitLines : List Char → List Char → List (List Char)
  | [], acc => [acc]
  | c :: cs, acc => if c = '\n' then acc :: splitLines cs [] else splitLines cs (acc ++ [c])

/-- The items of several lines, in order. -/
def assembleLines : List (List Char) → Option (List Item)
  | [] => some []
  | l :: ls =>
    match assembleLine l, assembleLines ls with
    | some is, some js => some (is ++ js)
    | _, _ => none

/-- A program text as the items of a program (R91 to R93). -/
def assemble (cs : List Char) : Option (List Item) := assembleLines (splitLines cs [])

end Sys2Proof.Machine
end

