-- ==== Sys2Proof/Safety.lean ====
section
/-! DEFINITION. What counts as a finished and as a safe run (30_encoding.md R95), and the invariants that the
statements use. -/

namespace Sys2Proof.Machine

/-! ### Sequences of instructions -/

/-- Instructions executed one after another, stopping where one does not answer a next state. -/
def execSeq : List Instr → State → Host.Outcome State Fault Refusal
  | [], s => .next s
  | i :: is, s =>
    match exec i s with
    | .next t => execSeq is t
    | .fault r => .fault r
    | .refused r => .refused r

/-- The responses of such a sequence, in order, up to where it stops (30_encoding.md R94). -/
def responses : List Instr → State → List (Option Response)
  | [], _ => []
  | i :: is, s =>
    match exec i s with
    | .next t => t.resp :: responses is t
    | .fault _ => []
    | .refused _ => []

/-! ### What two states share -/

/-- The environment, the caller's program and the reset request are the same. -/
structure CallerSame (s t : State) : Prop where
  attached : t.attached = s.attached
  params : t.params = s.params
  prog : t.prog = s.prog
  pc : t.pc = s.pc
  resetReq : t.resetReq = s.resetReq

/-- The block's six fields (10_state.md R20) and its last response are the same. -/
structure BlockSame (s t : State) : Prop where
  initDone : t.initDone = s.initDone
  cap : t.cap = s.cap
  sess : t.sess = s.sess
  cs : t.cs = s.cs
  fault : t.fault = s.fault
  trace : t.trace = s.trace
  resp : t.resp = s.resp

/-- Every byte of the flash array reads as before. -/
def FlashSame (s t : State) : Prop := ∀ a, t.flashByte a = s.flashByte a

/-- Every byte of the flash array outside `n` bytes from `base` on reads as before. -/
def FlashSameOutside (base n : Nat) (s t : State) : Prop :=
  ∀ a, ¬ (base ≤ a ∧ a < base + n) → t.flashByte a = s.flashByte a

/-- The state after a fault entry (60_exceptions.md R203), written out: the fault register and the
response, nothing else. -/
def faultState (s : State) (code : BitVec 3) (w : CmdWord) : State :=
  { s with fault := { code := code, word := w }, resp := some (.fault code) }

/-- A bus event without the byte that the environment answered. -/
def BusEvent.sent : BusEvent → BusEvent
  | .tinit => .tinit
  | .csa => .csa
  | .csd => .csd
  | .xfer tx _ => .xfer tx 0

/-! ### End of a run (R95) -/

/-- R95 (b): a fault is recorded, the block's or the attached reference flash's. -/
def State.faulted (s : State) : Bool := (recordedFault s).isSome

/-- R95 (a): the run completes; a faulted run never counts as completed. -/
def State.completed (s : State) : Bool := s.pc == s.prog.length && !s.faulted

/-- R95: a completed run is clean when no session is open and an attached reference flash is not busy. -/
def State.clean (s : State) : Bool := s.completed && s.sess == .idle && (!s.attached || s.rf.busy == 0)

/-- R95 (c): a run hangs when it never stops. -/
def State.hangs (s : State) : Prop :=
  ∀ k, ∃ t, Host.Core.run Sys2Proof.core k s = .next t ∧ t.completed = false ∧ t.faulted = false

/-! ### Readiness of the block -/

/-- No fault stands and `init` has completed: the block takes commands other than `init` (R202, R204). -/
abbrev State.accepts (s : State) : Prop := s.fault.code = 0 ∧ s.initDone = true

/-- The block takes a command that opens a chip-select interval (R202). -/
abbrev State.acceptsOpen (s : State) : Prop := s.accepts ∧ s.sess = .idle

/-- The attached chip is the reference flash, with legal parameters, and it has recorded no fault. -/
abbrev State.flashUp (s : State) : Prop := s.attached = true ∧ s.params.wf = true ∧ s.rf.fault = none

/-! ### The invariant of the machine -/

/-- What holds in every state of a run from reset. -/
structure StateInv (s : State) : Prop where
  /-- R27: chip-select is asserted exactly while a session is open. -/
  csSession : s.cs = true ↔ s.sess ≠ .idle
  /-- R21, R202: before `init` no session can be open. -/
  uninitIdle : s.initDone = false → s.sess = .idle
  /-- R20, R22: once written, `S.cap` holds one of the five values. -/
  capLegal : s.initDone = true → s.cap ∈ legalCaps
  /-- R201: code 7 is never used. -/
  codeLegal : s.fault.code.toNat ≤ 6
  /-- R230: without a fault the fault word is 0. -/
  faultWord : s.fault.code = 0 → s.fault.word = 0
  /-- R203: a standing fault is the last response. -/
  faultResp : s.fault.code ≠ 0 → s.resp = some (.fault s.fault.code)
  /-- R55. -/
  paramsWf : s.params.wf = true
  /-- The array keeps its canonical form. -/
  memWf : Memory.wf s.params.image s.rf.mem
  /-- R70: an address at or beyond `P` never reaches the array. -/
  memInRange : ∀ c ∈ s.rf.mem, c.1 < s.params.size
  /-- R67, R68, R69: the busy count is at most the larger latency. -/
  busyBound : s.rf.busy ≤ max s.params.tProg s.params.tErase
  /-- R93: the position never passes the end of the program. -/
  pcInProg : s.pc ≤ s.prog.length

/-! ### The bus protocol of `S.trace` -/

/-- Where a reader of the trace stands: the bytes sent since an open `CSA`, and whether the last closed
transaction was a write enable. -/
structure Scan where
  cur : Option (List Byte)
  wren : Bool
  deriving DecidableEq, Repr

/-- A closed transaction has one of the formats of R85, and a write enable stands exactly before each page
program and each sector erase (42_program.md R140). -/
def closeOk (wren : Bool) (tx : List Byte) : Bool :=
  (match decodeWire tx with
    | .instr i => i.wf
    | .reject _ => false) &&
  (wren == (tx.head? == some 0x02 || tx.head? == some 0x20))

/-- One event read: `CSA` only while deasserted, `XFER` and `CSD` only while asserted (00_scope.md R9). -/
def scanStep (c : Scan) : BusEvent → Option Scan
  | .tinit => if c.cur = none then some c else none
  | .csa => if c.cur = none then some { c with cur := some [] } else none
  | .xfer tx _ =>
    match c.cur with
    | some l => some { c with cur := some (l ++ [tx]) }
    | none => none
  | .csd =>
    match c.cur with
    | some l => if closeOk c.wren l then some { cur := none, wren := l == [0x06] } else none
    | none => none

/-- A trace read from a place on; none where it breaks the protocol. -/
def scanFrom (c : Scan) : List BusEvent → Option Scan
  | [] => some c
  | e :: es =>
    match scanStep c e with
    | some c' => scanFrom c' es
    | none => none

/-- A trace read from its start. -/
def scan (tr : List BusEvent) : Option Scan := scanFrom { cur := none, wren := false } tr

/-- Where the trace of a state must stand, by its session: nothing open; a Read Data transaction open; a
Page Program transaction open after a write enable. -/
def ScanMatches (sess : Session) (c : Scan) : Prop :=
  match sess with
  | .idle => c = { cur := none, wren := false }
  | .read => ∃ a n, c = { cur := some (wireBytesOf (.readData a n)), wren := false }
  | .write => ∃ a d, c = { cur := some (wireBytesOf (.pageProgram a d)), wren := true }

/-- The whole trace follows the bus protocol, and stands where the session says. -/
def TraceInv (s : State) : Prop := ∃ c, scan s.trace = some c ∧ ScanMatches s.sess c

/-! ### The attached reference flash and the session -/

/-- The reference flash has seen what the block's session says: while it records no fault, it is selected
exactly while a session is open; in a read session it holds that session's Read Data transaction; in a
write session it holds that session's Page Program transaction, with the latch set and not busy. -/
def BusInv (s : State) : Prop :=
  s.attached = true → s.rf.fault = none →
    s.rf.sel = s.cs ∧
    (s.sess = .read → ∃ a n, s.rf.txn = wireBytesOf (.readData a n)) ∧
    (s.sess = .write → ∃ a d, s.rf.txn = wireBytesOf (.pageProgram a d) ∧ s.rf.wel = true ∧ s.rf.busy = 0)

/-- The item the next step takes is not a wire transaction of another bus master. -/
def State.blockOnly (s : State) : Prop := ∀ tx, s.prog[s.pc]? ≠ some (.issue (.wire tx))

end Sys2Proof.Machine
end

