-- ==== Sys2Proof/Certificates/Slice0/Obligations.lean ====
section
/-! DEFINITION. The statements about the machine, from the numbered rules of spec/. -/

open Sys2Proof Sys2Proof.Machine

/-! ### Encoding -/

/-- Words written out from 30_encoding.md R80 to R85 decode to the instruction they stand for, one or more of
each family; three illegal words, those of 95_test_vectors.md V12, V14 and V19, are rejected (the illegal
words as a whole are in IllegalWordsExactly). -/
def Obligations.SampleWordsDecode : Prop :=
  decodeCommand 0x0000000000 = .instr .init ∧
  decodeCommand 0xFFFFFE0001 = .instr (.readStart 0xFFFFFE) ∧
  decodeCommand 0x0000001002 = .instr (.readByte true) ∧
  decodeCommand 0x0000000FF5 = .instr (.writeByte 0xFF) ∧
  decodeCommand 0x1234560008 = .instr (.erase 0x123456) ∧
  decodeCommand 0x0000000009 = .instr .getsize ∧
  decodeCommand 0x000000000A = .reject .illegalCommand ∧
  decodeCommand 0x0000002000 = .reject .illegalCommand ∧
  decodeCommand 0x0000001001 = .reject .illegalCommand ∧
  decodeWire [0x06] = .instr .wren ∧
  decodeWire [0x02, 0x00, 0x10, 0x00, 0xA5] = .instr (.pageProgram 0x001000 [0xA5]) ∧
  decodeWire [0x9F, 0xFF, 0xFF, 0xFF] = .instr (.readId 3)

/-- Decoding an encoded well-formed instruction gives it back, every operand at every value (R80 to R85). -/
def Obligations.DecodeEncodeRoundTrip : Prop :=
  ∀ i : Instr, i.wf = true → decode (encode i) = .instr i

/-- Each command word has one meaning: a word that decodes to an instruction is that instruction's encoding
(R80, R83). -/
def Obligations.DecodedCommandWordReencodes : Prop :=
  ∀ (w : CmdWord) (i : Instr), decodeCommand w = .instr i → encode i = .command w

/-- No two rows of the table of R82 match the same word. -/
def Obligations.CommandRowsExclusive : Prop :=
  ∀ w : CmdWord, (cmdRows.filter (fun r => r.selects w)).length ≤ 1

/-- `ILLEGAL` is exactly `OP` 10 to 15, or a bit outside the command's operand fields, any `RSV` bit among
them (R83). -/
def Obligations.IllegalWordsExactly : Prop :=
  ∀ w : CmdWord, decodeCommand w = .reject .illegalCommand ↔
    (10 ≤ (opField w).toNat ∨ rsvField w ≠ 0 ∨
      (lastField w = true ∧ opField w ≠ 2) ∨
      (dataField w ≠ 0 ∧ opField w ≠ 5) ∨
      (addrField w ≠ 0 ∧ opField w ≠ 1 ∧ opField w ≠ 4 ∧ opField w ≠ 8))

/-! ### The step -/

/-- With no reset request and no fault recorded, a step whose item decodes to an instruction is `exec` of it;
around it the position advances by one unless the block has faulted. For an item that is a command word this
is R93. R93 knows no other item to decode: that an item may also be a wire transaction of another bus master,
and runs and advances the position in the same way, is the model's choice (log entry 6). -/
def Obligations.StepRunsDecodedItem : Prop :=
  ∀ (s : State) (e : Encoded) (i : Instr), s.resetReq = false → recordedFault s = none →
    s.prog[s.pc]? = some (.issue e) → decode e = .instr i →
    step s =
      match exec i s with
      | .next t => .next (if t.fault.code = 0 then { t with pc := t.pc + 1 } else t)
      | .fault r => .fault r
      | .refused r => .refused r

/-- A command word that decodes to no command raises `F_ILLEGAL_CMD`: code 1 and the word in the fault
register, the response `FAULT(1)`, nothing else changed, the position neither (R83, R93, R201, R203). -/
def Obligations.StepIllegalWordFaults : Prop :=
  ∀ (s : State) (w : CmdWord), s.resetReq = false → recordedFault s = none →
    s.prog[s.pc]? = some (.issue (.command w)) → decodeCommand w = .reject .illegalCommand →
    step s = .next (faultState s 1 w)

/-- A `wait_ready` item executes `write_isbusy`; the position stays while the response is `BOOL(true)`, and
when the command faults, and advances otherwise (R93). -/
def Obligations.StepWaitReadyPolls : Prop :=
  ∀ (s t : State), s.resetReq = false → recordedFault s = none → s.prog[s.pc]? = some .waitReady →
    exec .writeIsbusy s = .next t →
    step s = .next
      (if t.fault.code = 0 ∧ t.resp ≠ some (.bool true) then { t with pc := t.pc + 1 } else t)

/-- While a fault stands the block takes no step: a step, every upward command and every illegal word stop
with that fault (R204). -/
def Obligations.FaultedBlockTakesNoStep : Prop :=
  ∀ s : State, s.fault.code ≠ 0 →
    (s.resetReq = false → step s = .fault (.blockFaulted s.fault.code)) ∧
    (∀ (i : Instr) (w : CmdWord), encode i = .command w → exec i s = .fault (.blockFaulted s.fault.code)) ∧
    (∀ w, decodeCommand w = .reject .illegalCommand →
      runEncoded (.command w) s = .fault (.blockFaulted s.fault.code))

/-- A recorded fault of the attached reference flash stops the run, though the block has no fault (R93, R95,
R208). -/
def Obligations.EnvironmentFaultStopsRun : Prop :=
  ∀ (s : State) (c : RfFault), s.resetReq = false → s.fault.code = 0 → s.attached = true →
    s.rf.fault = some c → step s = .fault (.environment c)

/-! ### The upward commands: result, completion and frame -/

/-- `init` (R101): its seven events, the capacity decoded from the first and third bytes received, `init_done`
set, everything else of the block unchanged, and no byte of the flash array changed. -/
def Obligations.InitCompletes : Prop :=
  ∀ s : State, s.fault.code = 0 → s.initDone = false →
    ∃ (t : State) (r m y c : Byte), exec .init s = .next t ∧
      t.trace = s.trace ++ [.tinit, .csa, .xfer 0x9F r, .xfer 0xFF m, .xfer 0xFF y, .xfer 0xFF c, .csd] ∧
      t.cap = capDecode m c ∧ t.initDone = true ∧ t.cs = false ∧ t.sess = s.sess ∧ t.fault = s.fault ∧
      t.resp = some .noValue ∧ t.wireLog = s.wireLog ∧ CallerSame s t ∧ FlashSame s t

/-- `getsize` (R102): the response `SIZE(S.cap)`, no event, nothing else changed, in any session. -/
def Obligations.GetsizeCompletes : Prop :=
  ∀ s : State, s.accepts → exec .getsize s = .next { s with resp := some (.size s.cap) }

/-- `read_start` (R120): its five events with the address most significant byte first, chip-select left
asserted, a read session open, whatever the address. -/
def Obligations.ReadStartCompletes : Prop :=
  ∀ (s : State) (a : Addr), s.acceptsOpen →
    ∃ (t : State) (r r2 r1 r0 : Byte), exec (.readStart a) s = .next t ∧
      t.trace = s.trace ++ [.csa, .xfer 0x03 r, .xfer (a.extractLsb' 16 8) r2, .xfer (a.extractLsb' 8 8) r1,
        .xfer (a.extractLsb' 0 8) r0] ∧
      t.cs = true ∧ t.sess = .read ∧ t.initDone = s.initDone ∧ t.cap = s.cap ∧ t.fault = s.fault ∧
      t.resp = some .noValue ∧ t.wireLog = s.wireLog ∧ CallerSame s t ∧ FlashSame s t

/-- `read_byte` (R121), for both values of `is_last`: one event, the placeholder out and a byte in, and that
byte the response; nothing else of the block changed. -/
def Obligations.ReadByteCompletes : Prop :=
  ∀ (s : State) (l : Bool), s.accepts → s.sess = .read →
    ∃ (t : State) (b : Byte), exec (.readByte l) s = .next t ∧
      t.trace = s.trace ++ [.xfer 0xFF b] ∧ t.resp = some (.byte b) ∧
      t.cs = s.cs ∧ t.sess = .read ∧ t.initDone = s.initDone ∧ t.cap = s.cap ∧ t.fault = s.fault ∧
      t.wireLog = s.wireLog ∧ CallerSame s t ∧ FlashSame s t

/-- `read_stop` (R122): chip-select deasserted, the session closed; no byte of the flash array changes where
the reference flash holds the session's Read Data transaction (`BusInv`). -/
def Obligations.ReadStopCompletes : Prop :=
  ∀ s : State, s.accepts → s.sess = .read →
    ∃ t : State, exec .readStop s = .next t ∧
      t.trace = s.trace ++ [.csd] ∧ t.cs = false ∧ t.sess = .idle ∧ t.initDone = s.initDone ∧
      t.cap = s.cap ∧ t.fault = s.fault ∧ t.resp = some .noValue ∧ t.wireLog = s.wireLog ∧
      CallerSame s t ∧ (BusInv s → FlashSame s t)

/-- `write_start` (R141): the write-enable transaction, then the Page Program opcode and the address; eight
events, chip-select left asserted, a write session open. -/
def Obligations.WriteStartCompletes : Prop :=
  ∀ (s : State) (a : Addr), s.acceptsOpen →
    ∃ (t : State) (q r r2 r1 r0 : Byte), exec (.writeStart a) s = .next t ∧
      t.trace = s.trace ++ [.csa, .xfer 0x06 q, .csd, .csa, .xfer 0x02 r, .xfer (a.extractLsb' 16 8) r2,
        .xfer (a.extractLsb' 8 8) r1, .xfer (a.extractLsb' 0 8) r0] ∧
      t.cs = true ∧ t.sess = .write ∧ t.initDone = s.initDone ∧ t.cap = s.cap ∧ t.fault = s.fault ∧
      t.resp = some .noValue ∧ t.wireLog = s.wireLog ∧ CallerSame s t ∧ FlashSame s t

/-- `write_byte` (R142), for every data byte: one event; nothing else of the block changed, and no byte of
the flash array before the session is closed. -/
def Obligations.WriteByteCompletes : Prop :=
  ∀ (s : State) (d : Byte), s.accepts → s.sess = .write →
    ∃ (t : State) (r : Byte), exec (.writeByte d) s = .next t ∧
      t.trace = s.trace ++ [.xfer d r] ∧ t.resp = some .noValue ∧
      t.cs = s.cs ∧ t.sess = .write ∧ t.initDone = s.initDone ∧ t.cap = s.cap ∧ t.fault = s.fault ∧
      t.wireLog = s.wireLog ∧ CallerSame s t ∧ FlashSame s t

/-- `write_stop` (R143): chip-select deasserted, the session closed; outside the page of the session's
address no byte of the flash array changes (`BusInv`). -/
def Obligations.WriteStopCompletes : Prop :=
  ∀ s : State, s.accepts → s.sess = .write →
    ∃ t : State, exec .writeStop s = .next t ∧
      t.trace = s.trace ++ [.csd] ∧ t.cs = false ∧ t.sess = .idle ∧ t.initDone = s.initDone ∧
      t.cap = s.cap ∧ t.fault = s.fault ∧ t.resp = some .noValue ∧ t.wireLog = s.wireLog ∧
      CallerSame s t ∧
      (BusInv s →
        FlashSameOutside ((txnAddr s.rf.txn).toNat - (txnAddr s.rf.txn).toNat % s.params.pageSize)
          s.params.pageSize s t)

/-- `write_isbusy` (R161): four events, the response bit 0 of the status byte received, nothing else of the
block changed. -/
def Obligations.WriteIsbusyCompletes : Prop :=
  ∀ s : State, s.acceptsOpen →
    ∃ (t : State) (r y : Byte), exec .writeIsbusy s = .next t ∧
      t.trace = s.trace ++ [.csa, .xfer 0x05 r, .xfer 0xFF y, .csd] ∧
      t.resp = some (.bool (y.getLsbD 0)) ∧ t.cs = false ∧ t.sess = .idle ∧ t.initDone = s.initDone ∧
      t.cap = s.cap ∧ t.fault = s.fault ∧ t.wireLog = s.wireLog ∧ CallerSame s t ∧ FlashSame s t

/-- `erase` (R162): nine events, the write-enable transaction and then the sector-erase transaction; no
session is open after it, and outside the sector at the address no byte of the flash array changes. -/
def Obligations.EraseCompletes : Prop :=
  ∀ (s : State) (a : Addr), s.acceptsOpen →
    ∃ (t : State) (q r r2 r1 r0 : Byte), exec (.erase a) s = .next t ∧
      t.trace = s.trace ++ [.csa, .xfer 0x06 q, .csd, .csa, .xfer 0x20 r, .xfer (a.extractLsb' 16 8) r2,
        .xfer (a.extractLsb' 8 8) r1, .xfer (a.extractLsb' 0 8) r0, .csd] ∧
      t.cs = false ∧ t.sess = .idle ∧ t.initDone = s.initDone ∧ t.cap = s.cap ∧ t.fault = s.fault ∧
      t.resp = some .noValue ∧ t.wireLog = s.wireLog ∧ CallerSame s t ∧
      FlashSameOutside a.toNat s.params.sectorSize s t

/-! ### The wire transactions -/

/-- WREN as a whole wire transaction (R84, R85): the block is untouched, no byte of the flash array changes,
and a ready reference flash sets its latch (R66). -/
def Obligations.WrenCompletes : Prop :=
  ∀ s : State, ∃ (t : State) (r : Byte), exec .wren s = .next t ∧
    t.wireLog = s.wireLog ++ [.csa, .xfer 0x06 r, .csd] ∧ BlockSame s t ∧ CallerSame s t ∧ FlashSame s t ∧
    (s.attached = true → s.rf.fault = none → s.rf.busy = 0 → t.rf.wel = true ∧ t.rf.fault = none)

/-- PAGE_PROGRAM as a whole wire transaction (R84, R85): the block is untouched and nothing outside the page
changes; a ready reference flash with its latch set programs the page, clears the latch and goes busy
(R67), one with its latch clear changes nothing, and an address at or beyond `P` is an environment fault
that leaves the array. -/
def Obligations.PageProgramCompletes : Prop :=
  ∀ (s : State) (a : Addr) (d : List Byte), ∃ (t : State) (rxs : List Byte),
    exec (.pageProgram a d) s = .next t ∧ rxs.length = d.length + 4 ∧
    t.wireLog = s.wireLog ++ (.csa :: List.zipWith .xfer (0x02 :: addrBytes a ++ d) rxs ++ [.csd]) ∧
    BlockSame s t ∧ CallerSame s t ∧
    FlashSameOutside (a.toNat - a.toNat % s.params.pageSize) s.params.pageSize s t ∧
    (s.attached = true → s.rf.fault = none → s.rf.busy = 0 → s.params.size ≤ a.toNat →
      t.rf.fault = some .range ∧ FlashSame s t) ∧
    (s.attached = true → s.rf.fault = none → s.rf.busy = 0 → a.toNat < s.params.size →
      t.rf.fault = none ∧ t.rf.wel = false ∧
      (s.rf.wel = true → t.rf.busy = s.params.tProg ∧
        (Memory.wf s.params.image s.rf.mem → ∀ k, k < s.params.pageSize →
          t.flashByte (a.toNat - a.toNat % s.params.pageSize + k) =
            (s.flashByte (a.toNat - a.toNat % s.params.pageSize + k) &&&
              (pageBuffer s.params.pageSize (a.toNat % s.params.pageSize) d).getD k 0xFF))) ∧
      (s.rf.wel = false → t.rf.busy = 0 ∧ FlashSame s t))

/-- SECTOR_ERASE as a whole wire transaction (R84, R85): the block is untouched and nothing outside the
sector changes; a ready reference flash with its latch set sets every byte of an aligned sector to 0xFF
(R68); an address at or beyond `P` or an unaligned one is an environment fault, and the array is
unchanged. -/
def Obligations.SectorEraseCompletes : Prop :=
  ∀ (s : State) (a : Addr), ∃ (t : State) (r r2 r1 r0 : Byte),
    exec (.sectorErase a) s = .next t ∧
    t.wireLog = s.wireLog ++ [.csa, .xfer 0x20 r, .xfer (a.extractLsb' 16 8) r2,
      .xfer (a.extractLsb' 8 8) r1, .xfer (a.extractLsb' 0 8) r0, .csd] ∧
    BlockSame s t ∧ CallerSame s t ∧ FlashSameOutside a.toNat s.params.sectorSize s t ∧
    (s.attached = true → s.rf.fault = none → s.rf.busy = 0 →
      (s.params.size ≤ a.toNat → t.rf.fault = some .range ∧ FlashSame s t) ∧
      (a.toNat < s.params.size → a.toNat % s.params.sectorSize ≠ 0 →
        t.rf.fault = some .align ∧ FlashSame s t) ∧
      (a.toNat < s.params.size → a.toNat % s.params.sectorSize = 0 → t.rf.fault = none ∧
        (s.rf.wel = false → FlashSame s t) ∧
        (s.rf.wel = true → Memory.wf s.params.image s.rf.mem →
          t.rf.wel = false ∧ t.rf.busy = s.params.tErase ∧
          ∀ k, k < s.params.sectorSize → t.flashByte (a.toNat + k) = 0xFF)))

/-- READ_DATA as a whole wire transaction (R84, R85): the block and the flash array are untouched, and a ready
reference flash clocks out the bytes from the address on (R62). -/
def Obligations.ReadDataCompletes : Prop :=
  ∀ (s : State) (a : Addr) (n : Nat), ∃ (t : State) (rxs data : List Byte),
    exec (.readData a n) s = .next t ∧ rxs.length = 4 ∧ data.length = n ∧
    t.wireLog = s.wireLog ++
      (.csa :: List.zipWith .xfer (0x03 :: addrBytes a) rxs ++ data.map (.xfer 0xFF) ++ [.csd]) ∧
    BlockSame s t ∧ CallerSame s t ∧ FlashSame s t ∧
    (s.attached = true → s.rf.fault = none → s.rf.busy = 0 → 0 < n → s.params.size < a.toNat + n →
      t.rf.fault = some .range) ∧
    (s.attached = true → s.rf.fault = none → s.rf.busy = 0 → a.toNat + n ≤ s.params.size →
      t.rf.fault = none ∧ data = (List.range n).map (fun k => s.flashByte (a.toNat + k)))

/-- READ_STATUS1 as a whole wire transaction (R84, R85): the block and the flash array are untouched; the
reference flash clocks out 1 while busy and 0 otherwise, and counts a busy poll down (R61, R69). -/
def Obligations.ReadStatusCompletes : Prop :=
  ∀ (s : State) (n : Nat), ∃ (t : State) (r : Byte) (data : List Byte),
    exec (.readStatus1 n) s = .next t ∧ data.length = n ∧
    t.wireLog = s.wireLog ++ (.csa :: .xfer 0x05 r :: data.map (.xfer 0xFF) ++ [.csd]) ∧
    BlockSame s t ∧ CallerSame s t ∧ FlashSame s t ∧
    (s.attached = true → s.rf.fault = none →
      t.rf.fault = none ∧ data = List.replicate n (if s.rf.busy > 0 then 1 else 0) ∧
      t.rf.busy = if 1 ≤ n then s.rf.busy - 1 else s.rf.busy)

/-- READ_ID as a whole wire transaction (R84, R85): the block and the flash array are untouched, and a ready
reference flash answers its three device-ID bytes first (R60). -/
def Obligations.ReadIdCompletes : Prop :=
  ∀ (s : State) (n : Nat), ∃ (t : State) (r : Byte) (data : List Byte),
    exec (.readId n) s = .next t ∧ data.length = n ∧
    t.wireLog = s.wireLog ++ (.csa :: .xfer 0x9F r :: data.map (.xfer 0xFF) ++ [.csd]) ∧
    BlockSame s t ∧ CallerSame s t ∧ FlashSame s t ∧
    (s.attached = true → s.rf.fault = none → s.rf.busy = 0 →
      t.rf.fault = none ∧ data.take 3 = [s.params.mfr, s.params.type, s.params.capCode].take n)

/-! ### Faults of the block (R201 to R203) -/

/-- Any command other than `init` before `init` faults with `F_NOT_INIT`, whatever the session, and `init`
after `init` with `F_REINIT`; the fault entry changes nothing else. -/
def Obligations.InitOnceOrElseFaults : Prop :=
  ∀ s : State, s.fault.code = 0 →
    (s.initDone = false → ∀ (i : Instr) (w : CmdWord), encode i = .command w → i ≠ .init →
      exec i s = .next (faultState s 2 w)) ∧
    (s.initDone = true → exec .init s = .next (faultState s 3 0x0000000000))

/-- A session-opening command while a session is open faults with `F_SESSION_OPEN`. -/
def Obligations.OpenWhileOpenFaults : Prop :=
  ∀ s : State, s.accepts → s.sess ≠ .idle →
    (∀ a, exec (.readStart a) s = .next (faultState s 4 (cmdWord 1 0 false a))) ∧
    (∀ a, exec (.writeStart a) s = .next (faultState s 4 (cmdWord 4 0 false a))) ∧
    exec .writeIsbusy s = .next (faultState s 4 0x0000000007) ∧
    (∀ a, exec (.erase a) s = .next (faultState s 4 (cmdWord 8 0 false a)))

/-- A byte or stop command with no session faults with `F_NO_SESSION`, and in a session of the other kind
with `F_WRONG_SESSION`. -/
def Obligations.ByteOrStopOutsideItsSessionFaults : Prop :=
  ∀ s : State, s.accepts →
    (s.sess ≠ .read → ∀ l,
      exec (.readByte l) s =
        .next (faultState s (if s.sess = .idle then 5 else 6) (cmdWord 2 0 l 0)) ∧
      exec .readStop s = .next (faultState s (if s.sess = .idle then 5 else 6) 0x0000000003)) ∧
    (s.sess ≠ .write → ∀ d,
      exec (.writeByte d) s =
        .next (faultState s (if s.sess = .idle then 5 else 6) (cmdWord 5 d false 0)) ∧
      exec .writeStop s = .next (faultState s (if s.sess = .idle then 5 else 6) 0x0000000006))

/-! ### Reset (R20, R57, R230, R231) -/

/-- Power-on reset, whatever the OPEN parameters: the values of R20 and R57, nothing recorded, and every byte
of the flash array that of `RF_IMAGE`. The value of `S.cap` is not stated (R22). -/
def Obligations.PowerOnResetValues : Prop :=
  (∀ (att : Bool) (p : RfParams) (s : State), s = State.resetWith att p →
    s.initDone = false ∧ s.sess = .idle ∧ s.cs = false ∧ s.fault.code = 0 ∧ s.fault.word = 0 ∧ s.trace = [] ∧
    s.rf.wel = false ∧ s.rf.busy = 0 ∧ s.rf.sel = false ∧ s.rf.txn = [] ∧ s.rf.fault = none ∧ s.pc = 0 ∧
    ∀ a, s.flashByte a = imageRead p.image a) ∧
  ∃ (att : Bool) (p : RfParams), p.wf = true ∧ State.reset = State.resetWith att p

/-- A requested reset of the block takes place whatever fault stands: an asserted chip-select is released with
a recorded `CSD`, `init_done`, `sess`, `cs` and the fault register return to their reset values, and the
trace keeps its history (R230). That the response, the program and its position stay is the model's
choice (log entries 8 and 10). After a read session nothing changes on the chip but its selection (R231),
where the reference flash holds the session's Read Data transaction (`BusInv`). -/
def Obligations.BlockResetEffect : Prop :=
  ∀ s : State, s.resetReq = true → ∃ t : State, step s = .next t ∧
    t.trace = s.trace ++ (if s.cs then [.csd] else []) ∧
    t.cs = false ∧ t.sess = .idle ∧ t.initDone = false ∧ t.fault.code = 0 ∧ t.fault.word = 0 ∧
    t.resetReq = false ∧ t.resp = s.resp ∧ t.prog = s.prog ∧ t.pc = s.pc ∧ t.attached = s.attached ∧
    t.params = s.params ∧ t.wireLog = s.wireLog ∧ (s.cs = false → t.rf = s.rf) ∧
    (BusInv s → s.sess = .read → FlashSame s t ∧ t.rf = { s.rf with sel := t.rf.sel })

/-- A reset in a write session commits the page program in progress, as a `write_stop` would (R231, R67): the
page is ANDed with the page buffer of the bytes sent, however many they are, no other byte changes, and
bytes that stay within the page land at their own addresses. -/
def Obligations.ResetCommitsOpenProgram : Prop :=
  ∀ (s : State) (a : Addr) (d : List Byte), s.resetReq = true → s.sess = .write → s.cs = true → s.flashUp →
    Memory.wf s.params.image s.rf.mem → s.rf.txn = wireBytesOf (.pageProgram a d) → s.rf.wel = true →
    a.toNat < s.params.size →
    ∃ t : State, step s = .next t ∧ t.rf.busy = s.params.tProg ∧ t.rf.wel = false ∧ t.rf.fault = none ∧
      (∀ k, k < s.params.pageSize →
        t.flashByte (a.toNat - a.toNat % s.params.pageSize + k) =
          (s.flashByte (a.toNat - a.toNat % s.params.pageSize + k) &&&
            (pageBuffer s.params.pageSize (a.toNat % s.params.pageSize) d).getD k 0xFF)) ∧
      FlashSameOutside (a.toNat - a.toNat % s.params.pageSize) s.params.pageSize s t ∧
      (a.toNat % s.params.pageSize + d.length ≤ s.params.pageSize →
        (∀ k, k < d.length → t.flashByte (a.toNat + k) = (s.flashByte (a.toNat + k) &&& d.getD k 0xFF)) ∧
        FlashSameOutside a.toNat d.length s t)

/-! ### The parts of the block -/

/-- The Winbond capacity decoder, the whole table of R100. -/
def Obligations.CapacityDecoderTable : Prop :=
  (∀ m c : Byte, m ≠ 0xEF → capDecode m c = 0x200000) ∧
  capDecode 0xEF 0x14 = 0x100000 ∧ capDecode 0xEF 0x15 = 0x200000 ∧ capDecode 0xEF 0x16 = 0x400000 ∧
  capDecode 0xEF 0x17 = 0x800000 ∧ capDecode 0xEF 0x18 = 0xFFFFFF ∧
  (∀ c : Byte, c ∉ [(0x14 : Byte), 0x15, 0x16, 0x17, 0x18] → capDecode 0xEF c = 0x200000)

/-- The address multiplexer (R86): exactly three exchanges, `a[23:16]`, `a[15:8]`, `a[7:0]` in this order,
whose bytes joined most significant first are the address; the rest of the block is unchanged. -/
def Obligations.AddressSentMsbFirst : Prop :=
  ∀ (s : State) (a : Addr), ∃ r2 r1 r0 : Byte,
    (addrOut a s).trace =
      s.trace ++ [.xfer (a.extractLsb' 16 8) r2, .xfer (a.extractLsb' 8 8) r1, .xfer (a.extractLsb' 0 8) r0] ∧
    (a.extractLsb' 16 8 ++ a.extractLsb' 8 8 ++ a.extractLsb' 0 8 : BitVec 24) = a ∧
    (addrOut a s).initDone = s.initDone ∧ (addrOut a s).cap = s.cap ∧ (addrOut a s).sess = s.sess ∧
    (addrOut a s).cs = s.cs ∧ (addrOut a s).fault = s.fault ∧ (addrOut a s).resp = s.resp

/-- The status-byte parser (R160): bit 0 alone decides. -/
def Obligations.StatusBusyIsBitZero : Prop :=
  (∀ y : Byte, statusBusy y = true ↔ y.toNat % 2 = 1) ∧
  (∀ y z : Byte, statusBusy (y &&& 1 ||| z &&& 0xFE) = statusBusy y)

/-! ### The reference flash, rule by rule -/

/-- The Read Device ID reply (R60): manufacturer, type and capacity code at indexes 1, 2 and 3, and the draw
from index 4 on. -/
def Obligations.DeviceIdReply : Prop :=
  ∀ (p : RfParams) (f : Rf) (tl : List Byte) (tx d : Byte), f.fault = none → f.txn = 0x9F :: tl →
    (tl.length = 0 → f.reply p tx d = p.mfr) ∧
    (tl.length = 1 → f.reply p tx d = p.type) ∧
    (tl.length = 2 → f.reply p tx d = p.capCode) ∧
    (3 ≤ tl.length → f.reply p tx d = d)

/-- The action at `CSD` of 0x06 (R66): the latch is set, and nothing else but the selection changes. -/
def Obligations.WriteEnableSetsLatch : Prop :=
  ∀ (p : RfParams) (f : Rf), f.fault = none → f.txn = [0x06] →
    f.deselect p = { f with sel := false, wel := true }

/-- A reference flash that has recorded a fault is left unchanged by every event, and its reply is the draw
(R58). -/
def Obligations.FaultedFlashIsFrozen : Prop :=
  ∀ (p : RfParams) (f : Rf) (c : RfFault), f.fault = some c →
    f.select = f ∧ f.deselect p = f ∧ (∀ tx, f.exchange p tx = f) ∧ ∀ tx d, f.reply p tx d = d

/-- The opcode byte at the reference flash (R59): appended first; `RF_BUSY` for any opcode but 0x05 while
busy, else `RF_OPCODE` for one outside the six, else no fault and the reply is a draw. -/
def Obligations.OpcodeByteFaults : Prop :=
  ∀ (p : RfParams) (f : Rf) (tx d : Byte), f.fault = none → f.txn = [] →
    (f.exchange p tx).txn = [tx] ∧ f.reply p tx d = d ∧
    (f.exchange p tx).fault =
      if f.busy > 0 ∧ tx ≠ 0x05 then some .busy
      else if tx ∈ [(0x06 : Byte), 0x02, 0x20, 0x03, 0x05, 0x9F] then none
      else some .opcode

/-- The length check at `CSD` (R65): exactly the lengths an opcode does not allow raise `RF_TRUNC`, and then
nothing but the selection changes. -/
def Obligations.TransactionLengthFaults : Prop :=
  ∀ (p : RfParams) (f : Rf) (op : Byte) (tl : List Byte), f.fault = none → f.txn = op :: tl →
    ((f.deselect p).fault = some .trunc ↔
      (op = 0x06 ∧ tl.length ≠ 0) ∨ (op = 0x20 ∧ tl.length ≠ 3) ∨ ((op = 0x03 ∨ op = 0x02) ∧ tl.length < 3)) ∧
    ((f.deselect p).fault = some .trunc → f.deselect p = { f with sel := false, fault := some .trunc })

/-- The page buffer (R67): the last data byte sent to an offset of the page stands there, an offset no data
byte reaches holds 0xFF, and offsets wrap within the page. -/
def Obligations.LaterProgramBytesWin : Prop :=
  ∀ (pageSize off : Nat) (data : List Byte) (k : Nat), k < pageSize →
    (∀ j, j < data.length → (off + j) % pageSize = k →
      (∀ j', j < j' → j' < data.length → (off + j') % pageSize ≠ k) →
      (pageBuffer pageSize off data).getD k 0xFF = data.getD j 0xFF) ∧
    ((∀ j, j < data.length → (off + j) % pageSize ≠ k) → (pageBuffer pageSize off data).getD k 0xFF = 0xFF)

/-! ### Invariants -/

/-- The invariants of the machine hold at reset. -/
def Obligations.InvariantsHoldAtReset : Prop :=
  StateInv State.reset ∧ TraceInv State.reset ∧ BusInv State.reset

/-- Every step keeps the invariant of the machine: chip-select follows the session (R27), `S.cap` is legal
after `init` (R22), the fault register is legal (R201, R203), the flash array keeps its canonical form
within `P` (R70), the busy count its bound (R69), the position its range (R93). -/
def Obligations.StepKeepsInv : Prop :=
  ∀ s t : State, StateInv s → step s = .next t → StateInv t

/-- Every step keeps the bus protocol of the trace: exchanges only while chip-select is asserted (R9), every
closed transaction of one of the six formats of R85, and a write enable exactly before each page program
and each sector erase (R140). -/
def Obligations.StepKeepsTraceProtocol : Prop :=
  ∀ s t : State, StateInv s → TraceInv s → step s = .next t → TraceInv t

/-- A step keeps the reference flash in line with the block's session, but for one step that the premise leaves
out: a wire item of another bus master taken while chip-select is asserted, which breaks it. That other
master, and what the reference flash does with its transaction there, are the model's choice (log entries 5
and 6). -/
def Obligations.StepKeepsBusInv : Prop :=
  ∀ s t : State, StateInv s → BusInv s → (s.blockOnly ∨ s.cs = false) → step s = .next t → BusInv t

/-- The block never sends an opcode outside the six and never closes a transaction at a length its opcode does
not allow: no step of it makes the reference flash record `RF_OPCODE` or `RF_TRUNC` (R71). -/
def Obligations.BlockNeverMisusesTheWire : Prop :=
  ∀ s t : State, StateInv s → BusInv s → s.blockOnly → step s = .next t →
    (t.rf.fault = some .opcode → s.rf.fault = some .opcode) ∧
    (t.rf.fault = some .trunc → s.rf.fault = some .trunc)

/-- The trace only grows: no step takes back or changes an event (R26, R230). -/
def Obligations.TraceOnlyGrows : Prop :=
  ∀ s t : State, step s = .next t → s.trace <+: t.trace

/-- Only `init` writes `S.cap` and `S.init_done` (R20, R22), and only the four commands of R23 write `S.sess`,
each to its own session. -/
def Obligations.OnlyTheirCommandsWriteCapAndSession : Prop :=
  ∀ (i : Instr) (s t : State), exec i s = .next t →
    (i ≠ .init → t.cap = s.cap ∧ t.initDone = s.initDone) ∧
    (t.sess ≠ s.sess →
      ((∃ a, i = .readStart a) ∧ s.sess = .idle ∧ t.sess = .read) ∨
      (i = .readStop ∧ s.sess = .read ∧ t.sess = .idle) ∨
      ((∃ a, i = .writeStart a) ∧ s.sess = .idle ∧ t.sess = .write) ∨
      (i = .writeStop ∧ s.sess = .write ∧ t.sess = .idle))

/-- The chip has no error path into the block (R200): two machines that agree on the block and differ in
their environment in any way answer one command alike: both with a next state or both with none, the same
session, chip-select and fault, and the same events but for the bytes received. -/
def Obligations.EnvironmentOnlyFillsReceivedBytes : Prop :=
  ∀ (i : Instr) (s u : State), u.initDone = s.initDone → u.sess = s.sess → u.cs = s.cs → u.fault = s.fault →
    u.trace.map BusEvent.sent = s.trace.map BusEvent.sent →
    match exec i s, exec i u with
    | .next t, .next v =>
      v.initDone = t.initDone ∧ v.sess = t.sess ∧ v.cs = t.cs ∧ v.fault = t.fault ∧
        v.trace.map BusEvent.sent = t.trace.map BusEvent.sent
    | .fault a, .fault b => a = b
    | _, _ => False

/-! ### Sequences of commands -/

/-- The trace and the responses of a read session, for any number of bytes and any `is_last` flags (R123). -/
def Obligations.ReadSessionTrace : Prop :=
  ∀ (s : State) (a : Addr) (lasts : List Bool), s.acceptsOpen →
    ∃ (t : State) (rxs data : List Byte), execSeq (readBlockCommands a lasts) s = .next t ∧
      rxs.length = 4 ∧ data.length = lasts.length ∧
      t.trace = s.trace ++
        (.csa :: List.zipWith .xfer (0x03 :: addrBytes a) rxs ++ data.map (.xfer 0xFF) ++ [.csd]) ∧
      responses (readBlockCommands a lasts) s =
        some .noValue :: data.map (fun b => some (.byte b)) ++ [some .noValue] ∧
      t.sess = .idle ∧ t.cs = false

/-- The trace of a program session, for any data (R144): `n + 9` events, the write-enable transaction exactly
once and immediately before the page program. -/
def Obligations.ProgramSessionTrace : Prop :=
  ∀ (s : State) (a : Addr) (d : List Byte), s.acceptsOpen →
    ∃ (t : State) (q : Byte) (rxs : List Byte), execSeq (programCommands a d) s = .next t ∧
      rxs.length = d.length + 4 ∧
      t.trace = s.trace ++
        (.csa :: .xfer 0x06 q :: .csd :: .csa :: List.zipWith .xfer (0x02 :: addrBytes a ++ d) rxs ++ [.csd]) ∧
      t.sess = .idle ∧ t.cs = false

/-- `is_last` has no effect: a read session with any flags is the same machine run as with any others of the
same number (R92, R121). -/
def Obligations.LastFlagsDoNotMatter : Prop :=
  ∀ (s : State) (a : Addr) (l m : List Bool), l.length = m.length →
    execSeq (readBlockCommands a l) s = execSeq (readBlockCommands a m) s

/-- `init` then `getsize` against a ready reference flash returns the capacity decoded from its manufacturer
and capacity code, whatever its type byte (R103, R60). -/
def Obligations.InitThenGetsize : Prop :=
  ∀ s : State, s.fault.code = 0 → s.initDone = false → s.flashUp → s.rf.busy = 0 →
    ∃ t : State, execSeq [.init, .getsize] s = .next t ∧
      t.resp = some (.size (capDecode s.params.mfr s.params.capCode)) ∧ t.rf.fault = none

/-- A read session against a ready reference flash returns the bytes of the array from the address on, one per
`read_byte` (R43, R62), and changes none of them. -/
def Obligations.ReadSessionReturnsFlashBytes : Prop :=
  ∀ (s : State) (a : Addr) (lasts : List Bool), s.acceptsOpen → s.flashUp → s.rf.busy = 0 →
    a.toNat + lasts.length ≤ s.params.size →
    ∃ t : State, execSeq (readBlockCommands a lasts) s = .next t ∧
      responses (readBlockCommands a lasts) s =
        some .noValue ::
          (List.range lasts.length).map (fun k => some (.byte (s.flashByte (a.toNat + k)))) ++
          [some .noValue] ∧
      FlashSame s t ∧ t.rf.fault = none

/-- A program session, for any number of bytes, ANDs its page buffer into its page, changes no byte outside the
page, clears the latch and leaves the chip busy (R67): data past the end of the page wraps within it (R142,
R236). Data that stay within the page land at their own addresses, and no other byte changes. -/
def Obligations.ProgramSessionWritesFlash : Prop :=
  ∀ (s : State) (a : Addr) (d : List Byte), s.acceptsOpen → s.flashUp → s.rf.busy = 0 →
    Memory.wf s.params.image s.rf.mem → a.toNat < s.params.size →
    ∃ t : State, execSeq (programCommands a d) s = .next t ∧
      t.rf.busy = s.params.tProg ∧ t.rf.wel = false ∧ t.rf.fault = none ∧
      (∀ k, k < s.params.pageSize →
        t.flashByte (a.toNat - a.toNat % s.params.pageSize + k) =
          (s.flashByte (a.toNat - a.toNat % s.params.pageSize + k) &&&
            (pageBuffer s.params.pageSize (a.toNat % s.params.pageSize) d).getD k 0xFF)) ∧
      FlashSameOutside (a.toNat - a.toNat % s.params.pageSize) s.params.pageSize s t ∧
      (a.toNat % s.params.pageSize + d.length ≤ s.params.pageSize →
        (∀ k, k < d.length → t.flashByte (a.toNat + k) = (s.flashByte (a.toNat + k) &&& d.getD k 0xFF)) ∧
        FlashSameOutside a.toNat d.length s t)

/-- A `wait_ready` item against the reference flash ends after exactly one poll more than its busy count: up
to then the position stays and the response is `BOOL(true)`, then it advances (R69, R93, R245). -/
def Obligations.WaitReadyEnds : Prop :=
  ∀ s : State, s.acceptsOpen → s.flashUp → s.resetReq = false → s.prog[s.pc]? = some .waitReady →
    (∀ k, k < s.rf.busy → ∃ t, Host.Core.run Sys2Proof.core (k + 1) s = .next t ∧
      t.pc = s.pc ∧ t.resp = some (.bool true) ∧ t.rf.busy = s.rf.busy - (k + 1)) ∧
    ∃ t, Host.Core.run Sys2Proof.core (s.rf.busy + 1) s = .next t ∧
      t.pc = s.pc + 1 ∧ t.resp = some (.bool false) ∧ t.rf.busy = 0 ∧ FlashSame s t

/-- Property (a) of R72: an erase of an aligned sector, polled until ready, leaves every byte of the sector
reading 0xFF in a read session. -/
def Obligations.ErasedSectorReadsAllOnes : Prop :=
  ∀ (s : State) (a : Addr) (lasts : List Bool), s.acceptsOpen → s.flashUp → s.rf.busy = 0 →
    Memory.wf s.params.image s.rf.mem → a.toNat < s.params.size → a.toNat % s.params.sectorSize = 0 →
    lasts.length ≤ s.params.sectorSize →
    ∃ t : State,
      execSeq (.erase a :: List.replicate (s.params.tErase + 1) .writeIsbusy) s = .next t ∧
      t.resp = some (.bool false) ∧ t.acceptsOpen ∧ t.rf.fault = none ∧
      responses (readBlockCommands a lasts) t =
        some .noValue :: List.replicate lasts.length (some (.byte 0xFF)) ++ [some .noValue]

/-- Property (b) of R72, the round trip of the source's tests: erase a sector, poll, program bytes within one
page of it, poll, and read them back: the bytes read are the bytes written. -/
def Obligations.EraseProgramReadRoundTrip : Prop :=
  ∀ (s : State) (sec a : Addr) (d : List Byte), s.acceptsOpen → s.flashUp → s.rf.busy = 0 →
    Memory.wf s.params.image s.rf.mem → sec.toNat < s.params.size → sec.toNat % s.params.sectorSize = 0 →
    sec.toNat ≤ a.toNat → a.toNat < sec.toNat + s.params.sectorSize →
    a.toNat % s.params.pageSize + d.length ≤ s.params.pageSize →
    ∃ t : State,
      execSeq
        (.erase sec :: List.replicate (s.params.tErase + 1) .writeIsbusy ++ programCommands a d ++
          List.replicate (s.params.tProg + 1) .writeIsbusy) s = .next t ∧
      t.rf.fault = none ∧
      responses (readBlockCommands a (List.replicate d.length false)) t =
        some .noValue :: d.map (fun b => some (.byte b)) ++ [some .noValue]

/-- Property (c) of R72: erasing a sector that is already erased changes no byte, clears the latch and sets
the busy count. -/
def Obligations.EraseOfErasedSectorIsIdempotent : Prop :=
  ∀ (s : State) (a : Addr), s.acceptsOpen → s.flashUp → s.rf.busy = 0 →
    Memory.wf s.params.image s.rf.mem → a.toNat < s.params.size → a.toNat % s.params.sectorSize = 0 →
    (∀ k, k < s.params.sectorSize → s.flashByte (a.toNat + k) = 0xFF) →
    ∃ t : State, exec (.erase a) s = .next t ∧ t.rf.mem = s.rf.mem ∧ t.rf.wel = false ∧
      t.rf.busy = s.params.tErase ∧ t.rf.fault = none

/-! ### Text -/

/-- Whatever the assembler accepts decodes: every command word of an assembled text is a legal command, and an
operand that does not fit its field is never truncated into one (R91, R92). -/
def Obligations.AssembledItemsDecode : Prop :=
  (∀ (cs : List Char) (items : List Item) (e : Encoded), assemble cs = some items → .issue e ∈ items →
    ∃ i, decode e = .instr i ∧ encode i = e) ∧
  (∀ n a, 2 ^ 24 ≤ n → assembleOp 1 [n] = none ∧ assembleOp 4 [n] = none ∧ assembleOp 8 [n] = none ∧
    assembleOp 11 [n, a] = none ∧ assembleOp 13 [n] = none) ∧
  (∀ n ds, 2 ^ 24 ≤ n → assembleOp 12 (n :: ds) = none) ∧
  (∀ n a ds, 2 ^ 8 ≤ n → n ∈ ds → assembleOp 12 (a :: ds) = none) ∧
  (∀ n, 2 ^ 8 ≤ n → assembleOp 5 [n] = none) ∧ (∀ n, 2 ≤ n → assembleOp 2 [n] = none)
end

