-- ==== Sys2Proof/Laws/Decode.lean ====
section
/-! SUPPORT. The bits and the fields of an assembled command word (30_encoding.md R80), and the address bytes
(R86). -/

namespace Sys2Proof

section
variable (op : BitVec 4) (d : Byte) (l : Bool) (a : Addr)

/-- Which bit of which field each bit of a command word is (R80). -/
theorem cmdWord_getLsbD (i : Nat) : (cmdWord op d l a).getLsbD i =
    if i < 4 then op.getLsbD i else if i < 12 then d.getLsbD (i - 4) else if i < 13 then l
    else if i < 16 then false else a.getLsbD (i - 16) := by
  simp only [cmdWord, BitVec.getLsbD_append, BitVec.getLsbD_ofBool]
  by_cases h1 : i < 4
  · simp only [h1, if_true]
  by_cases h2 : i < 12
  · simp only [h1, h2, show i - 4 < 8 by omega, if_true, if_false]
  by_cases h3 : i < 13
  · simp [show i = 12 by omega]
  by_cases h4 : i < 16
  · simp [h1, h2, h3, h4, show ¬ i - 4 < 8 by omega, show ¬ i - 4 - 8 < 1 by omega,
      show i - 4 - 8 - 1 < 3 by omega]
  · simp [h1, h2, h3, h4, show ¬ i - 4 < 8 by omega, show ¬ i - 4 - 8 < 1 by omega,
      show ¬ i - 4 - 8 - 1 < 3 by omega, show i - 4 - 8 - 1 - 3 = i - 16 by omega]

@[simp] theorem opField_cmdWord : opField (cmdWord op d l a) = op := by
  ext i hi
  simp [opField, BitVec.getElem_extractLsb', cmdWord_getLsbD, hi]

@[simp] theorem dataField_cmdWord : dataField (cmdWord op d l a) = d := by
  ext i hi
  simp [dataField, BitVec.getElem_extractLsb', cmdWord_getLsbD, show ¬ 4 + i < 4 by omega,
    show 4 + i < 12 by omega, BitVec.getLsbD_eq_getElem hi]

@[simp] theorem lastField_cmdWord : lastField (cmdWord op d l a) = l := by
  rw [lastField, cmdWord_getLsbD]
  rfl

@[simp] theorem rsvField_cmdWord : rsvField (cmdWord op d l a) = 0 := by
  ext i hi
  simp [rsvField, BitVec.getElem_extractLsb', cmdWord_getLsbD, show ¬ 13 + i < 4 by omega,
    show ¬ 13 + i < 12 by omega, show 13 + i < 16 by omega]

@[simp] theorem addrField_cmdWord : addrField (cmdWord op d l a) = a := by
  ext i hi
  simp [addrField, BitVec.getElem_extractLsb', cmdWord_getLsbD, show ¬ 16 + i < 4 by omega,
    show ¬ 16 + i < 12 by omega, show ¬ 16 + i < 13 by omega, show ¬ 16 + i < 16 by omega,
    BitVec.getLsbD_eq_getElem hi]

end

/-- The three address bytes put together again are the address (R42, R86). -/
theorem addrOfBytes_addrBytes (a : Addr) :
    addrOfBytes (a.extractLsb' 16 8) (a.extractLsb' 8 8) (a.extractLsb' 0 8) = a := by
  refine BitVec.eq_of_getLsbD_eq fun i hi => ?_
  simp only [addrOfBytes, BitVec.getLsbD_append, BitVec.getLsbD_extractLsb']
  by_cases h1 : i < 8
  · simp [h1]
  by_cases h2 : i < 16
  · simp [h1, show i - 8 < 8 by omega, show 8 + (i - 8) = i by omega]
  · simp [h1, show ¬ i - 8 < 8 by omega, show i - 8 - 8 < 8 by omega, show 16 + (i - 8 - 8) = i by omega]

/-- Every address sends three bytes (R86). -/
@[simp] theorem length_addrBytes (a : Addr) : (addrBytes a).length = 3 := rfl

end Sys2Proof
end

