-- ==== Sys2Proof/Laws/Memory.lean ====
section
/-! SUPPORT. The flash array: a read after a write, and the canonical form, once for one write and once for
the writes of a page program or a sector erase. -/

namespace Sys2Proof.Machine

variable (im : Image)

/-- The addresses of a list of cells rise strictly. -/
abbrev Rising (m : List Host.Cell) : Prop := m.Pairwise (fun c d => c.1 < d.1)

theorem lookup_cons_of_ne {a b : Nat} (v : Byte) (m : List Host.Cell) (h : a ≠ b) :
    List.lookup a ((b, v) :: m) = List.lookup a m := by
  rw [List.lookup_cons, beq_eq_false_iff_ne.mpr h]

theorem lookup_cons_same (a : Nat) (v : Byte) (m : List Host.Cell) :
    List.lookup a ((a, v) :: m) = some v := by
  simp

/-- An address below every listed one is not listed. -/
theorem lookup_none_of_lt {a : Nat} {m : List Host.Cell} (h : ∀ c ∈ m, a < c.1) : List.lookup a m = none := by
  induction m with
  | nil => rfl
  | cons c m ih =>
    have hc : a ≠ c.1 := Nat.ne_of_lt (h c (by simp))
    obtain ⟨b, v⟩ := c
    rw [lookup_cons_of_ne v m hc]
    exact ih fun c hc => h c (by simp [hc])

theorem memRead_cons_of_ne {a : Nat} (c : Host.Cell) (m : List Host.Cell) (h : a ≠ c.1) :
    memRead im (c :: m) a = memRead im m a := by
  obtain ⟨b, v⟩ := c
  simp only [memRead, lookup_cons_of_ne v m h]

theorem memRead_memCons_of_ne {a b : Nat} (v : Byte) (m : List Host.Cell) (h : a ≠ b) :
    memRead im (memCons im b v m) a = memRead im m a := by
  unfold memCons
  split
  · rfl
  · exact memRead_cons_of_ne im (b, v) m h

theorem memRead_memCons_same {a : Nat} (v : Byte) {m : List Host.Cell} (h : ∀ c ∈ m, a < c.1) :
    memRead im (memCons im a v m) a = v := by
  unfold memCons
  split
  · next hv => rw [memRead, lookup_none_of_lt h]; exact hv.symm
  · rw [memRead, lookup_cons_same]; rfl

/-- A write leaves every other address as it was. -/
theorem memRead_memWrite_of_ne {a b : Nat} (m : List Host.Cell) (v : Byte) (h : a ≠ b) :
    memRead im (memWrite im m b v) a = memRead im m a := by
  induction m with
  | nil => exact memRead_memCons_of_ne im v [] h
  | cons c m ih =>
    unfold memWrite
    split
    · exact memRead_memCons_of_ne im v _ h
    · split
      · next hb => rw [memRead_memCons_of_ne im v m h, memRead_cons_of_ne im c m (hb ▸ h)]
      · obtain ⟨k, x⟩ := c
        by_cases hk : a = k
        · subst hk; simp only [memRead, lookup_cons_same]
        · rw [memRead_cons_of_ne im _ _ hk, memRead_cons_of_ne im _ _ hk, ih]

/-- A read after a write to the same address gives the byte written. -/
theorem memRead_memWrite_same (a : Nat) {m : List Host.Cell} (v : Byte) (h : Rising m) :
    memRead im (memWrite im m a v) a = v := by
  induction m with
  | nil => exact memRead_memCons_same im v (by simp)
  | cons c m ih =>
    obtain ⟨hc, hm⟩ := List.pairwise_cons.mp h
    unfold memWrite
    split
    · next hlt =>
      refine memRead_memCons_same im v fun d hd => ?_
      rcases List.mem_cons.mp hd with rfl | hd
      · exact hlt
      · exact Nat.lt_trans hlt (hc d hd)
    · split
      · next hb => exact memRead_memCons_same im v fun d hd => hb ▸ hc d hd
      · next hb => rw [memRead_cons_of_ne im c _ hb, ih hm]

theorem mem_memCons {a : Nat} {v : Byte} {m : List Host.Cell} {c : Host.Cell} (h : c ∈ memCons im a v m) :
    (c = (a, v) ∧ v ≠ imageRead im a) ∨ c ∈ m := by
  unfold memCons at h
  split at h
  · exact .inr h
  · next hv =>
    rcases List.mem_cons.mp h with rfl | h
    · exact .inl ⟨rfl, hv⟩
    · exact .inr h

/-- Every cell after a write is the one written, which differs from the image, or was there before. -/
theorem mem_memWrite {a : Nat} {v : Byte} {m : List Host.Cell} {c : Host.Cell} (h : c ∈ memWrite im m a v) :
    (c = (a, v) ∧ v ≠ imageRead im a) ∨ c ∈ m := by
  induction m with
  | nil => exact mem_memCons im h
  | cons d m ih =>
    unfold memWrite at h
    split at h
    · exact mem_memCons im h
    · split at h
      · exact (mem_memCons im h).imp_right (List.mem_cons_of_mem d)
      · rcases List.mem_cons.mp h with rfl | h
        · exact .inr (by simp)
        · exact (ih h).imp_right (List.mem_cons_of_mem d)

theorem rising_memCons {a : Nat} {v : Byte} {m : List Host.Cell} (hm : Rising m) (h : ∀ c ∈ m, a < c.1) :
    Rising (memCons im a v m) := by
  unfold memCons
  split
  · exact hm
  · exact List.pairwise_cons.mpr ⟨h, hm⟩

theorem rising_memWrite (a : Nat) (v : Byte) {m : List Host.Cell} (h : Rising m) : Rising (memWrite im m a v) := by
  induction m with
  | nil => exact rising_memCons im h (by simp)
  | cons c m ih =>
    obtain ⟨hc, hm⟩ := List.pairwise_cons.mp h
    unfold memWrite
    split
    · next hlt =>
      refine rising_memCons im h fun d hd => ?_
      rcases List.mem_cons.mp hd with rfl | hd
      · exact hlt
      · exact Nat.lt_trans hlt (hc d hd)
    · split
      · next hb => exact rising_memCons im hm fun d hd => hb ▸ hc d hd
      · next hlt hb =>
        refine List.pairwise_cons.mpr ⟨fun d hd => ?_, ih hm⟩
        rcases mem_memWrite im hd with ⟨rfl, -⟩ | hd
        · exact Nat.lt_of_le_of_ne (Nat.not_lt.mp hlt) (Ne.symm hb)
        · exact hc d hd

/-- A write keeps the canonical form. -/
theorem memWrite_wf (a : Nat) (v : Byte) {m : List Host.Cell} (h : Memory.wf im m) :
    Memory.wf im (memWrite im m a v) := by
  refine ⟨rising_memWrite im a v h.1, fun c hc => ?_⟩
  rcases mem_memWrite im hc with ⟨rfl, hv⟩ | hc
  · exact hv
  · exact h.2 c hc

/-- Equal memories are equal data: in canonical form, the cells are determined by what every address reads
as. -/
theorem memRead_of_mem {m : List Host.Cell} (h : Rising m) {c : Host.Cell} (hc : c ∈ m) :
    memRead im m c.1 = c.2 := by
  induction m with
  | nil => simp at hc
  | cons d m ih =>
    obtain ⟨hd, hm⟩ := List.pairwise_cons.mp h
    rcases List.mem_cons.mp hc with rfl | hc
    · obtain ⟨k, x⟩ := c
      simp [memRead]
    · rw [memRead_cons_of_ne im d m (Nat.ne_of_gt (hd c hc)), ih hm hc]

/-! ### A run of writes at rising addresses (R67, R68) -/

/-- Each of `n` addresses from `base` on rewritten from what it held. -/
def rewriteRange (base : Nat) (g : Byte → Nat → Byte) (n : Nat) (m : List Host.Cell) : List Host.Cell :=
  (List.range n).foldl (fun m' k => memWrite im m' (base + k) (g (memRead im m' (base + k)) k)) m

theorem rewriteRange_succ (base : Nat) (g : Byte → Nat → Byte) (n : Nat) (m : List Host.Cell) :
    rewriteRange im base g (n + 1) m =
      memWrite im (rewriteRange im base g n m) (base + n)
        (g (memRead im (rewriteRange im base g n m) (base + n)) n) := by
  simp [rewriteRange, List.range_succ]

theorem rewriteRange_wf (base : Nat) (g : Byte → Nat → Byte) (n : Nat) {m : List Host.Cell}
    (h : Memory.wf im m) : Memory.wf im (rewriteRange im base g n m) := by
  induction n with
  | zero => exact h
  | succ n ih => rw [rewriteRange_succ]; exact memWrite_wf im _ _ ih

theorem rewriteRange_rising (base : Nat) (g : Byte → Nat → Byte) (n : Nat) {m : List Host.Cell}
    (h : Rising m) : Rising (rewriteRange im base g n m) := by
  induction n with
  | zero => exact h
  | succ n ih => rw [rewriteRange_succ]; exact rising_memWrite im _ _ ih

/-- Every address in the range holds its rewritten byte, every other address what it held. -/
theorem memRead_rewriteRange (base : Nat) (g : Byte → Nat → Byte) (n : Nat) {m : List Host.Cell}
    (h : Rising m) (a : Nat) :
    memRead im (rewriteRange im base g n m) a =
      if base ≤ a ∧ a < base + n then g (memRead im m a) (a - base) else memRead im m a := by
  induction n with
  | zero => rw [if_neg (by omega)]; rfl
  | succ n ih =>
    rw [rewriteRange_succ]
    by_cases ha : a = base + n
    · subst ha
      rw [memRead_memWrite_same im _ _ (rewriteRange_rising im base g n h), ih,
        if_neg (by omega), if_pos (by omega), Nat.add_sub_cancel_left]
    · rw [memRead_memWrite_of_ne im _ _ ha, ih]
      by_cases hr : base ≤ a ∧ a < base + n
      · rw [if_pos hr, if_pos (by omega)]
      · rw [if_neg hr, if_neg (by omega)]

/-- Outside the range nothing changes, in any list of cells. -/
theorem memRead_rewriteRange_outside (base : Nat) (g : Byte → Nat → Byte) (n : Nat) (m : List Host.Cell) (a : Nat)
    (h : ¬ (base ≤ a ∧ a < base + n)) : memRead im (rewriteRange im base g n m) a = memRead im m a := by
  induction n with
  | zero => rfl
  | succ n ih => rw [rewriteRange_succ, memRead_memWrite_of_ne im _ _ (by omega), ih (by omega)]

/-- Writing what an address already holds changes nothing, in canonical form. -/
theorem memWrite_memRead (a : Nat) {m : List Host.Cell} (h : Memory.wf im m) :
    memWrite im m a (memRead im m a) = m := by
  induction m with
  | nil => simp [memWrite, memRead, memCons]
  | cons c m ih =>
    obtain ⟨hc, hm⟩ := List.pairwise_cons.mp h.1
    have hwf : Memory.wf im m := ⟨hm, fun d hd => h.2 d (by simp [hd])⟩
    unfold memWrite
    split
    · next hlt =>
      have : List.lookup a (c :: m) = none := lookup_none_of_lt fun d hd => by
        rcases List.mem_cons.mp hd with rfl | hd
        · exact hlt
        · exact Nat.lt_trans hlt (hc d hd)
      simp [memRead, this, memCons]
    · split
      · next hb =>
        subst hb
        rw [memRead_of_mem im h.1 (c := c) (by simp), memCons, if_neg (h.2 c (by simp))]
      · next hb => rw [memRead_cons_of_ne im c m hb, ih hwf]

/-- The cells after such a run lie in the range or were there before. -/
theorem mem_rewriteRange (base : Nat) (g : Byte → Nat → Byte) (n : Nat) {m : List Host.Cell} {c : Host.Cell}
    (h : c ∈ rewriteRange im base g n m) : (base ≤ c.1 ∧ c.1 < base + n) ∨ c ∈ m := by
  induction n with
  | zero => exact .inr h
  | succ n ih =>
    rw [rewriteRange_succ] at h
    rcases mem_memWrite im h with ⟨rfl, -⟩ | h
    · exact .inl ⟨by simp, by simp⟩
    · exact (ih h).imp_left fun h => ⟨h.1, by omega⟩

end Sys2Proof.Machine
end

