-- ==== Sys2Proof/Laws/Flash.lean ====
section
/-! SUPPORT. What each reaction of the reference flash can do, once. -/

namespace Sys2Proof.Machine

/-- A reference flash that has recorded a fault takes no step, and its reply is the draw (R58). -/
theorem Rf.select_of_fault {f : Rf} {c : RfFault} (h : f.fault = some c) : f.select = f := by
  simp [Rf.select, h]

theorem Rf.exchange_of_fault {p : RfParams} {f : Rf} {c : RfFault} (tx : Byte) (h : f.fault = some c) :
    f.exchange p tx = f := by
  simp [Rf.exchange, h]

theorem Rf.deselect_of_fault {p : RfParams} {f : Rf} {c : RfFault} (h : f.fault = some c) :
    f.deselect p = f := by
  simp [Rf.deselect, h]

theorem Rf.reply_of_fault {p : RfParams} {f : Rf} {c : RfFault} (tx d : Byte) (h : f.fault = some c) :
    f.reply p tx d = d := by
  simp [Rf.reply, h]

/-! ### The same reactions while no fault is recorded -/

theorem Rf.select_of_ok {f : Rf} (h : f.fault = none) : f.select = { f with sel := true, txn := [] } := by
  simp [Rf.select, h]

theorem Rf.exchange_of_ok {p : RfParams} {f : Rf} (tx : Byte) (h : f.fault = none) :
    f.exchange p tx = { f with txn := f.txn ++ [tx], fault := f.xferFault p tx } := by
  simp [Rf.exchange, h]

/-! ### Fields that an event does not change -/

@[simp] theorem Rf.select_mem (f : Rf) : f.select.mem = f.mem := by unfold Rf.select; split <;> rfl
@[simp] theorem Rf.select_wel (f : Rf) : f.select.wel = f.wel := by unfold Rf.select; split <;> rfl
@[simp] theorem Rf.select_busy (f : Rf) : f.select.busy = f.busy := by unfold Rf.select; split <;> rfl
@[simp] theorem Rf.select_fault (f : Rf) : f.select.fault = f.fault := by unfold Rf.select; split <;> rfl

section
variable (p : RfParams) (f : Rf) (tx : Byte)

@[simp] theorem Rf.exchange_mem : (f.exchange p tx).mem = f.mem := by unfold Rf.exchange; split <;> rfl
@[simp] theorem Rf.exchange_wel : (f.exchange p tx).wel = f.wel := by unfold Rf.exchange; split <;> rfl
@[simp] theorem Rf.exchange_busy : (f.exchange p tx).busy = f.busy := by unfold Rf.exchange; split <;> rfl
@[simp] theorem Rf.exchange_sel : (f.exchange p tx).sel = f.sel := by unfold Rf.exchange; split <;> rfl

end

/-! ### Page program and sector erase -/

theorem programPage_eq (p : RfParams) (m : List Host.Cell) (a : Nat) (data : List Byte) :
    programPage p m a data =
      rewriteRange p.image (a - a % p.pageSize)
        (fun old k => old &&& (pageBuffer p.pageSize (a % p.pageSize) data).getD k 0xFF) p.pageSize m := rfl

theorem eraseSector_eq (p : RfParams) (m : List Host.Cell) (a : Nat) :
    eraseSector p m a = rewriteRange p.image a (fun _ _ => 0xFF) p.sectorSize m := rfl

theorem programPage_wf (p : RfParams) {m : List Host.Cell} (a : Nat) (data : List Byte)
    (h : Memory.wf p.image m) : Memory.wf p.image (programPage p m a data) := by
  rw [programPage_eq]
  exact rewriteRange_wf p.image _ _ _ h

theorem eraseSector_wf (p : RfParams) {m : List Host.Cell} (a : Nat) (h : Memory.wf p.image m) :
    Memory.wf p.image (eraseSector p m a) := by
  rw [eraseSector_eq]
  exact rewriteRange_wf p.image _ _ _ h

theorem mem_programPage (p : RfParams) {m : List Host.Cell} (a : Nat) (data : List Byte) {c : Host.Cell}
    (h : c ∈ programPage p m a data) : c.1 < a - a % p.pageSize + p.pageSize ∨ c ∈ m := by
  rw [programPage_eq] at h
  exact (mem_rewriteRange p.image _ _ _ h).imp_left And.right

theorem mem_eraseSector (p : RfParams) {m : List Host.Cell} (a : Nat) {c : Host.Cell}
    (h : c ∈ eraseSector p m a) : c.1 < a + p.sectorSize ∨ c ∈ m := by
  rw [eraseSector_eq] at h
  exact (mem_rewriteRange p.image _ _ _ h).imp_left And.right

/-- The page program, read back: the page ANDed with the page buffer, nothing else changed (R67). -/
theorem memRead_programPage (p : RfParams) {m : List Host.Cell} (h : Rising m) (a : Nat) (data : List Byte)
    (x : Nat) :
    memRead p.image (programPage p m a data) x =
      if a - a % p.pageSize ≤ x ∧ x < a - a % p.pageSize + p.pageSize then
        memRead p.image m x &&&
          (pageBuffer p.pageSize (a % p.pageSize) data).getD (x - (a - a % p.pageSize)) 0xFF
      else memRead p.image m x := by
  rw [programPage_eq, memRead_rewriteRange p.image _ _ _ h]

/-- The sector erase, read back: 0xFF in the sector, nothing else changed (R68). -/
theorem memRead_eraseSector (p : RfParams) {m : List Host.Cell} (h : Rising m) (a x : Nat) :
    memRead p.image (eraseSector p m a) x =
      if a ≤ x ∧ x < a + p.sectorSize then 0xFF else memRead p.image m x := by
  rw [eraseSector_eq, memRead_rewriteRange p.image _ _ _ h]

/-- The last data byte at each offset of the page, or 0xFF (R67, the page buffer). -/
def lastAt (pageSize off k : Nat) : List Byte → Nat → Byte → Byte
  | [], _, b => b
  | d :: ds, j, b => lastAt pageSize off k ds (j + 1) (if (off + j) % pageSize = k then d else b)

theorem getD_foldl_set (pageSize off k : Nat) (hk : k < pageSize) (data : List Byte) (j : Nat)
    (buf : List Byte) (hbuf : buf.length = pageSize) :
    ((data.zipIdx j).foldl (fun buf dj => buf.set ((off + dj.2) % pageSize) dj.1) buf).getD k 0xFF =
      lastAt pageSize off k data j (buf.getD k 0xFF) := by
  induction data generalizing j buf with
  | nil => rfl
  | cons d ds ih =>
    rw [List.zipIdx_cons, List.foldl_cons, ih _ _ (by simpa using hbuf), lastAt]
    congr 1
    by_cases h : (off + j) % pageSize = k
    · simp [h, hbuf, hk, List.getD_eq_getElem?_getD]
    · simp [h, List.getD_eq_getElem?_getD]

/-- Each byte of the page buffer is the last data byte sent to that offset, or 0xFF. -/
theorem getD_pageBuffer (pageSize off k : Nat) (hk : k < pageSize) (data : List Byte) :
    (pageBuffer pageSize off data).getD k 0xFF = lastAt pageSize off k data 0 0xFF := by
  rw [pageBuffer, getD_foldl_set pageSize off k hk data 0 _ (by simp)]
  simp [List.getD_eq_getElem?_getD, hk]

theorem lastAt_of_none (pageSize off k : Nat) (data : List Byte) (j : Nat) (b : Byte)
    (h : ∀ i, j ≤ i → i < j + data.length → (off + i) % pageSize ≠ k) : lastAt pageSize off k data j b = b := by
  induction data generalizing j with
  | nil => rfl
  | cons d ds ih =>
    rw [lastAt, if_neg (h j (le_refl j) (by simp)), ih]
    intro i h1 h2
    exact h i (by omega) (by simp only [List.length_cons]; omega)

/-- Without a wrap, the byte at `off + j` is data byte `j`. -/
theorem lastAt_of_no_wrap (pageSize off : Nat) (data : List Byte) (j n : Nat) (b : Byte)
    (hw : off + j + data.length ≤ pageSize) (hn : n < data.length) :
    lastAt pageSize off (off + j + n) data j b = data.getD n 0xFF := by
  induction data generalizing j n b with
  | nil => simp at hn
  | cons d ds ih =>
    simp only [List.length_cons] at hw hn
    cases n with
    | zero =>
      rw [lastAt, if_pos (by rw [Nat.mod_eq_of_lt (by omega)]; rfl),
        lastAt_of_none]
      · rfl
      · intro i h1 h2
        rw [Nat.mod_eq_of_lt (by omega)]
        omega
    | succ n =>
      have := ih (j + 1) n (if (off + j) % pageSize = off + j + (n + 1) then d else b) (by omega) (by omega)
      rw [lastAt, show off + j + (n + 1) = off + (j + 1) + n from by omega]
      simpa [List.getD_eq_getElem?_getD, show off + j + (n + 1) = off + (j + 1) + n from by omega] using this

/-! ### What a whole reaction keeps -/

/-- What the events of a bus keep of the reference flash's array and counter. -/
structure FlashOk (p : RfParams) (f : Rf) : Prop where
  memWf : Memory.wf p.image f.mem
  memInRange : ∀ c ∈ f.mem, c.1 < p.size
  busyBound : f.busy ≤ max p.tProg p.tErase

theorem FlashOk.select {p : RfParams} {f : Rf} (h : FlashOk p f) : FlashOk p f.select :=
  ⟨by simpa using h.memWf, by simpa using h.memInRange, by simpa using h.busyBound⟩

theorem FlashOk.exchange {p : RfParams} {f : Rf} (tx : Byte) (h : FlashOk p f) : FlashOk p (f.exchange p tx) :=
  ⟨by simpa using h.memWf, by simpa using h.memInRange, by simpa using h.busyBound⟩

/-- The parts of `RfParams.wf` (R55). -/
theorem RfParams.wf_parts {p : RfParams} (h : p.wf = true) :
    1 ≤ p.size ∧ p.size ≤ 2 ^ 24 ∧ 1 ≤ p.sectorSize ∧ 1 ≤ p.pageSize ∧ p.sectorSize ∣ p.size ∧
      p.pageSize ∣ p.sectorSize := by
  simp only [RfParams.wf, Bool.and_eq_true, decide_eq_true_eq, beq_iff_eq] at h
  exact ⟨h.1.1.1.1.1, h.1.1.1.1.2, h.1.1.1.2, h.1.1.2, Nat.dvd_of_mod_eq_zero h.1.2, Nat.dvd_of_mod_eq_zero h.2⟩

/-- A block of the chip that an address lies in lies in the chip whole. -/
theorem block_in_range {n size a : Nat} (hd : n ∣ size) (ha : a < size) : a - a % n + n ≤ size := by
  obtain ⟨k, rfl⟩ := hd
  have hn : 0 < n := Nat.pos_of_ne_zero (by rintro rfl; simp at ha)
  have h1 : a - a % n = n * (a / n) := by have := Nat.div_add_mod a n; omega
  have h2 : a / n < k := (Nat.div_lt_iff_lt_mul hn).mpr (by rwa [Nat.mul_comm] at ha)
  calc a - a % n + n = n * (a / n + 1) := by rw [h1, Nat.mul_add, Nat.mul_one]
    _ ≤ n * k := Nat.mul_le_mul_left n h2

theorem FlashOk.commitProgram {p : RfParams} {f : Rf} (hp : p.wf = true) (h : FlashOk p f) :
    FlashOk p (f.commitProgram p) := by
  obtain ⟨-, -, -, -, hs, hd⟩ := RfParams.wf_parts hp
  simp only [Rf.commitProgram]
  split
  · exact ⟨h.memWf, h.memInRange, h.busyBound⟩
  · next ha =>
    split
    · exact h
    · refine ⟨programPage_wf p _ _ h.memWf, fun c hc => ?_, le_max_left _ _⟩
      · rcases mem_programPage p _ _ hc with hc | hc
        · exact Nat.lt_of_lt_of_le hc (block_in_range (dvd_trans hd hs) (Nat.lt_of_not_le ha))
        · exact h.memInRange c hc

theorem FlashOk.commitErase {p : RfParams} {f : Rf} (hp : p.wf = true) (h : FlashOk p f) :
    FlashOk p (f.commitErase p) := by
  obtain ⟨-, -, -, -, hs, -⟩ := RfParams.wf_parts hp
  simp only [Rf.commitErase]
  split
  · exact ⟨h.memWf, h.memInRange, h.busyBound⟩
  · next ha =>
    split
    · exact ⟨h.memWf, h.memInRange, h.busyBound⟩
    · next hal =>
      split
      · exact h
      · refine ⟨eraseSector_wf p _ h.memWf, fun c hc => ?_, le_max_right _ _⟩
        · rcases mem_eraseSector p _ hc with hc | hc
          · have := block_in_range hs (Nat.lt_of_not_le ha)
            simp only [ne_eq, Decidable.not_not] at hal
            omega
          · exact h.memInRange c hc

theorem FlashOk.deselect {p : RfParams} {f : Rf} (hp : p.wf = true) (h : FlashOk p f) :
    FlashOk p (f.deselect p) := by
  have h' : FlashOk p { f with sel := false } := ⟨h.memWf, h.memInRange, h.busyBound⟩
  unfold Rf.deselect
  split
  · exact h
  · split
    · exact h'
    · unfold Rf.close
      split
      · exact ⟨h.memWf, h.memInRange, h.busyBound⟩
      split
      · exact ⟨h.memWf, h.memInRange, h.busyBound⟩
      split
      · exact h'.commitProgram hp
      split
      · exact h'.commitErase hp
      split
      · split
        · exact ⟨h.memWf, h.memInRange, by have := h.busyBound; simp only; omega⟩
        · exact h'
      · exact h'

end Sys2Proof.Machine
end

