-- ==== Sys2Proof/Laws/State.lean ====
section
/-! SUPPORT. What each named operation does to each field of the state, one lemma per field, so that no later
proof unfolds a record update. -/

namespace Sys2Proof.Machine

/-! ### transportInit -/

section
variable (s : State)

@[simp] theorem transportInit_initDone : (transportInit s).initDone = s.initDone := rfl
@[simp] theorem transportInit_cap : (transportInit s).cap = s.cap := rfl
@[simp] theorem transportInit_sess : (transportInit s).sess = s.sess := rfl
@[simp] theorem transportInit_cs : (transportInit s).cs = s.cs := rfl
@[simp] theorem transportInit_fault : (transportInit s).fault = s.fault := rfl
@[simp] theorem transportInit_trace : (transportInit s).trace = s.trace ++ [.tinit] := rfl
@[simp] theorem transportInit_resp : (transportInit s).resp = s.resp := rfl
@[simp] theorem transportInit_attached : (transportInit s).attached = s.attached := rfl
@[simp] theorem transportInit_params : (transportInit s).params = s.params := rfl
@[simp] theorem transportInit_rf : (transportInit s).rf = s.rf := rfl
@[simp] theorem transportInit_prog : (transportInit s).prog = s.prog := rfl
@[simp] theorem transportInit_pc : (transportInit s).pc = s.pc := rfl
@[simp] theorem transportInit_draws : (transportInit s).draws = s.draws := rfl
@[simp] theorem transportInit_wireLog : (transportInit s).wireLog = s.wireLog := rfl
@[simp] theorem transportInit_resetReq : (transportInit s).resetReq = s.resetReq := rfl

end

/-! ### csAssert -/

section
variable (s : State)

@[simp] theorem csAssert_initDone : (csAssert s).initDone = s.initDone := rfl
@[simp] theorem csAssert_cap : (csAssert s).cap = s.cap := rfl
@[simp] theorem csAssert_sess : (csAssert s).sess = s.sess := rfl
@[simp] theorem csAssert_cs : (csAssert s).cs = true := rfl
@[simp] theorem csAssert_fault : (csAssert s).fault = s.fault := rfl
@[simp] theorem csAssert_trace : (csAssert s).trace = s.trace ++ [.csa] := rfl
@[simp] theorem csAssert_resp : (csAssert s).resp = s.resp := rfl
@[simp] theorem csAssert_attached : (csAssert s).attached = s.attached := rfl
@[simp] theorem csAssert_params : (csAssert s).params = s.params := rfl
@[simp] theorem csAssert_rf : (csAssert s).rf = if s.attached then s.rf.select else s.rf := rfl
@[simp] theorem csAssert_prog : (csAssert s).prog = s.prog := rfl
@[simp] theorem csAssert_pc : (csAssert s).pc = s.pc := rfl
@[simp] theorem csAssert_draws : (csAssert s).draws = s.draws := rfl
@[simp] theorem csAssert_wireLog : (csAssert s).wireLog = s.wireLog := rfl
@[simp] theorem csAssert_resetReq : (csAssert s).resetReq = s.resetReq := rfl

end

/-! ### csDeassert -/

section
variable (s : State)

@[simp] theorem csDeassert_initDone : (csDeassert s).initDone = s.initDone := rfl
@[simp] theorem csDeassert_cap : (csDeassert s).cap = s.cap := rfl
@[simp] theorem csDeassert_sess : (csDeassert s).sess = s.sess := rfl
@[simp] theorem csDeassert_cs : (csDeassert s).cs = false := rfl
@[simp] theorem csDeassert_fault : (csDeassert s).fault = s.fault := rfl
@[simp] theorem csDeassert_trace : (csDeassert s).trace = s.trace ++ [.csd] := rfl
@[simp] theorem csDeassert_resp : (csDeassert s).resp = s.resp := rfl
@[simp] theorem csDeassert_attached : (csDeassert s).attached = s.attached := rfl
@[simp] theorem csDeassert_params : (csDeassert s).params = s.params := rfl
@[simp] theorem csDeassert_rf : (csDeassert s).rf = if s.attached then s.rf.deselect s.params else s.rf := rfl
@[simp] theorem csDeassert_prog : (csDeassert s).prog = s.prog := rfl
@[simp] theorem csDeassert_pc : (csDeassert s).pc = s.pc := rfl
@[simp] theorem csDeassert_draws : (csDeassert s).draws = s.draws := rfl
@[simp] theorem csDeassert_wireLog : (csDeassert s).wireLog = s.wireLog := rfl
@[simp] theorem csDeassert_resetReq : (csDeassert s).resetReq = s.resetReq := rfl

end

/-! ### xfer -/

section
variable (tx : Byte) (s : State)

@[simp] theorem xfer_initDone : (xfer tx s).initDone = s.initDone := rfl
@[simp] theorem xfer_cap : (xfer tx s).cap = s.cap := rfl
@[simp] theorem xfer_sess : (xfer tx s).sess = s.sess := rfl
@[simp] theorem xfer_cs : (xfer tx s).cs = s.cs := rfl
@[simp] theorem xfer_fault : (xfer tx s).fault = s.fault := rfl
@[simp] theorem xfer_trace : (xfer tx s).trace = s.trace ++ [.xfer tx (received tx s)] := rfl
@[simp] theorem xfer_resp : (xfer tx s).resp = s.resp := rfl
@[simp] theorem xfer_attached : (xfer tx s).attached = s.attached := rfl
@[simp] theorem xfer_params : (xfer tx s).params = s.params := rfl
@[simp] theorem xfer_rf : (xfer tx s).rf = if s.attached then s.rf.exchange s.params tx else s.rf := rfl
@[simp] theorem xfer_prog : (xfer tx s).prog = s.prog := rfl
@[simp] theorem xfer_pc : (xfer tx s).pc = s.pc := rfl
@[simp] theorem xfer_draws : (xfer tx s).draws = s.draws + 1 := rfl
@[simp] theorem xfer_wireLog : (xfer tx s).wireLog = s.wireLog := rfl
@[simp] theorem xfer_resetReq : (xfer tx s).resetReq = s.resetReq := rfl

end

/-! ### respond -/

section
variable (r : Response) (s : State)

@[simp] theorem respond_initDone : (respond r s).initDone = s.initDone := rfl
@[simp] theorem respond_cap : (respond r s).cap = s.cap := rfl
@[simp] theorem respond_sess : (respond r s).sess = s.sess := rfl
@[simp] theorem respond_cs : (respond r s).cs = s.cs := rfl
@[simp] theorem respond_fault : (respond r s).fault = s.fault := rfl
@[simp] theorem respond_trace : (respond r s).trace = s.trace := rfl
@[simp] theorem respond_resp : (respond r s).resp = some r := rfl
@[simp] theorem respond_attached : (respond r s).attached = s.attached := rfl
@[simp] theorem respond_params : (respond r s).params = s.params := rfl
@[simp] theorem respond_rf : (respond r s).rf = s.rf := rfl
@[simp] theorem respond_prog : (respond r s).prog = s.prog := rfl
@[simp] theorem respond_pc : (respond r s).pc = s.pc := rfl
@[simp] theorem respond_draws : (respond r s).draws = s.draws := rfl
@[simp] theorem respond_wireLog : (respond r s).wireLog = s.wireLog := rfl
@[simp] theorem respond_resetReq : (respond r s).resetReq = s.resetReq := rfl

end

/-! ### raiseFault -/

section
variable (c : FaultCode) (w : CmdWord) (s : State)

@[simp] theorem raiseFault_initDone : (raiseFault c w s).initDone = s.initDone := rfl
@[simp] theorem raiseFault_cap : (raiseFault c w s).cap = s.cap := rfl
@[simp] theorem raiseFault_sess : (raiseFault c w s).sess = s.sess := rfl
@[simp] theorem raiseFault_cs : (raiseFault c w s).cs = s.cs := rfl
@[simp] theorem raiseFault_fault : (raiseFault c w s).fault = { code := c.bits, word := w } := rfl
@[simp] theorem raiseFault_trace : (raiseFault c w s).trace = s.trace := rfl
@[simp] theorem raiseFault_resp : (raiseFault c w s).resp = some (.fault c.bits) := rfl
@[simp] theorem raiseFault_attached : (raiseFault c w s).attached = s.attached := rfl
@[simp] theorem raiseFault_params : (raiseFault c w s).params = s.params := rfl
@[simp] theorem raiseFault_rf : (raiseFault c w s).rf = s.rf := rfl
@[simp] theorem raiseFault_prog : (raiseFault c w s).prog = s.prog := rfl
@[simp] theorem raiseFault_pc : (raiseFault c w s).pc = s.pc := rfl
@[simp] theorem raiseFault_draws : (raiseFault c w s).draws = s.draws := rfl
@[simp] theorem raiseFault_wireLog : (raiseFault c w s).wireLog = s.wireLog := rfl
@[simp] theorem raiseFault_resetReq : (raiseFault c w s).resetReq = s.resetReq := rfl

end

/-! ### wireEvent -/

section
variable (e : BusEvent) (s : State)

@[simp] theorem wireEvent_initDone : (wireEvent e s).initDone = s.initDone := rfl
@[simp] theorem wireEvent_cap : (wireEvent e s).cap = s.cap := rfl
@[simp] theorem wireEvent_sess : (wireEvent e s).sess = s.sess := rfl
@[simp] theorem wireEvent_cs : (wireEvent e s).cs = s.cs := rfl
@[simp] theorem wireEvent_fault : (wireEvent e s).fault = s.fault := rfl
@[simp] theorem wireEvent_trace : (wireEvent e s).trace = s.trace := rfl
@[simp] theorem wireEvent_resp : (wireEvent e s).resp = s.resp := rfl
@[simp] theorem wireEvent_attached : (wireEvent e s).attached = s.attached := rfl
@[simp] theorem wireEvent_params : (wireEvent e s).params = s.params := rfl
@[simp] theorem wireEvent_rf : (wireEvent e s).rf = s.rf := rfl
@[simp] theorem wireEvent_prog : (wireEvent e s).prog = s.prog := rfl
@[simp] theorem wireEvent_pc : (wireEvent e s).pc = s.pc := rfl
@[simp] theorem wireEvent_draws : (wireEvent e s).draws = s.draws := rfl
@[simp] theorem wireEvent_wireLog : (wireEvent e s).wireLog = s.wireLog ++ [e] := rfl
@[simp] theorem wireEvent_resetReq : (wireEvent e s).resetReq = s.resetReq := rfl

end

/-! ### wireXfer -/

section
variable (tx : Byte) (s : State)

@[simp] theorem wireXfer_initDone : (wireXfer tx s).initDone = s.initDone := rfl
@[simp] theorem wireXfer_cap : (wireXfer tx s).cap = s.cap := rfl
@[simp] theorem wireXfer_sess : (wireXfer tx s).sess = s.sess := rfl
@[simp] theorem wireXfer_cs : (wireXfer tx s).cs = s.cs := rfl
@[simp] theorem wireXfer_fault : (wireXfer tx s).fault = s.fault := rfl
@[simp] theorem wireXfer_trace : (wireXfer tx s).trace = s.trace := rfl
@[simp] theorem wireXfer_resp : (wireXfer tx s).resp = s.resp := rfl
@[simp] theorem wireXfer_attached : (wireXfer tx s).attached = s.attached := rfl
@[simp] theorem wireXfer_params : (wireXfer tx s).params = s.params := rfl
@[simp] theorem wireXfer_rf : (wireXfer tx s).rf = if s.attached then s.rf.exchange s.params tx else s.rf := rfl
@[simp] theorem wireXfer_prog : (wireXfer tx s).prog = s.prog := rfl
@[simp] theorem wireXfer_pc : (wireXfer tx s).pc = s.pc := rfl
@[simp] theorem wireXfer_draws : (wireXfer tx s).draws = s.draws + 1 := rfl
@[simp] theorem wireXfer_wireLog : (wireXfer tx s).wireLog = s.wireLog ++ [.xfer tx (received tx s)] := rfl
@[simp] theorem wireXfer_resetReq : (wireXfer tx s).resetReq = s.resetReq := rfl

end

/-! ### wireSelect -/

section
variable (s : State)

@[simp] theorem wireSelect_initDone : (wireSelect s).initDone = s.initDone := rfl
@[simp] theorem wireSelect_cap : (wireSelect s).cap = s.cap := rfl
@[simp] theorem wireSelect_sess : (wireSelect s).sess = s.sess := rfl
@[simp] theorem wireSelect_cs : (wireSelect s).cs = s.cs := rfl
@[simp] theorem wireSelect_fault : (wireSelect s).fault = s.fault := rfl
@[simp] theorem wireSelect_trace : (wireSelect s).trace = s.trace := rfl
@[simp] theorem wireSelect_resp : (wireSelect s).resp = s.resp := rfl
@[simp] theorem wireSelect_attached : (wireSelect s).attached = s.attached := rfl
@[simp] theorem wireSelect_params : (wireSelect s).params = s.params := rfl
@[simp] theorem wireSelect_rf : (wireSelect s).rf = if s.attached then s.rf.select else s.rf := rfl
@[simp] theorem wireSelect_prog : (wireSelect s).prog = s.prog := rfl
@[simp] theorem wireSelect_pc : (wireSelect s).pc = s.pc := rfl
@[simp] theorem wireSelect_draws : (wireSelect s).draws = s.draws := rfl
@[simp] theorem wireSelect_wireLog : (wireSelect s).wireLog = s.wireLog ++ [.csa] := rfl
@[simp] theorem wireSelect_resetReq : (wireSelect s).resetReq = s.resetReq := rfl

end

/-! ### wireDeselect -/

section
variable (s : State)

@[simp] theorem wireDeselect_initDone : (wireDeselect s).initDone = s.initDone := rfl
@[simp] theorem wireDeselect_cap : (wireDeselect s).cap = s.cap := rfl
@[simp] theorem wireDeselect_sess : (wireDeselect s).sess = s.sess := rfl
@[simp] theorem wireDeselect_cs : (wireDeselect s).cs = s.cs := rfl
@[simp] theorem wireDeselect_fault : (wireDeselect s).fault = s.fault := rfl
@[simp] theorem wireDeselect_trace : (wireDeselect s).trace = s.trace := rfl
@[simp] theorem wireDeselect_resp : (wireDeselect s).resp = s.resp := rfl
@[simp] theorem wireDeselect_attached : (wireDeselect s).attached = s.attached := rfl
@[simp] theorem wireDeselect_params : (wireDeselect s).params = s.params := rfl
@[simp] theorem wireDeselect_rf : (wireDeselect s).rf = if s.attached then s.rf.deselect s.params else s.rf := rfl
@[simp] theorem wireDeselect_prog : (wireDeselect s).prog = s.prog := rfl
@[simp] theorem wireDeselect_pc : (wireDeselect s).pc = s.pc := rfl
@[simp] theorem wireDeselect_draws : (wireDeselect s).draws = s.draws := rfl
@[simp] theorem wireDeselect_wireLog : (wireDeselect s).wireLog = s.wireLog ++ [.csd] := rfl
@[simp] theorem wireDeselect_resetReq : (wireDeselect s).resetReq = s.resetReq := rfl

end

/-! ### Reset -/

section
variable (s : State)

@[simp] theorem blockReset_initDone : (blockReset s).initDone = false := rfl
@[simp] theorem blockReset_sess : (blockReset s).sess = .idle := rfl
@[simp] theorem blockReset_cs : (blockReset s).cs = false := rfl
@[simp] theorem blockReset_fault : (blockReset s).fault = { code := 0, word := 0 } := rfl
@[simp] theorem blockReset_resetReq : (blockReset s).resetReq = false := rfl
@[simp] theorem blockReset_trace :
    (blockReset s).trace = if s.cs then s.trace ++ [.csd] else s.trace := by cases h : s.cs <;> simp [blockReset, h]
@[simp] theorem blockReset_rf :
    (blockReset s).rf = if s.cs ∧ s.attached then s.rf.deselect s.params else s.rf := by
  cases h : s.cs <;> simp [blockReset, h]
@[simp] theorem blockReset_draws : (blockReset s).draws = s.draws + 1 := by cases h : s.cs <;> simp [blockReset, h]
@[simp] theorem blockReset_cap : (blockReset s).cap = Config.freeCap (s.draws + 1) := by
  cases h : s.cs <;> simp [blockReset, h]

@[simp] theorem blockReset_resp : (blockReset s).resp = s.resp := by cases h : s.cs <;> simp [blockReset, h]
@[simp] theorem blockReset_attached : (blockReset s).attached = s.attached := by cases h : s.cs <;> simp [blockReset, h]
@[simp] theorem blockReset_params : (blockReset s).params = s.params := by cases h : s.cs <;> simp [blockReset, h]
@[simp] theorem blockReset_prog : (blockReset s).prog = s.prog := by cases h : s.cs <;> simp [blockReset, h]
@[simp] theorem blockReset_pc : (blockReset s).pc = s.pc := by cases h : s.cs <;> simp [blockReset, h]
@[simp] theorem blockReset_wireLog : (blockReset s).wireLog = s.wireLog := by cases h : s.cs <;> simp [blockReset, h]

end

/-! ### Runs of exchanges -/

@[simp] theorem xferAll_initDone (bs : List Byte) (s : State) : (xferAll bs s).initDone = s.initDone := by
  induction bs generalizing s with
  | nil => rfl
  | cons b bs ih => exact ih _
@[simp] theorem xferAll_cap (bs : List Byte) (s : State) : (xferAll bs s).cap = s.cap := by
  induction bs generalizing s with
  | nil => rfl
  | cons b bs ih => exact ih _
@[simp] theorem xferAll_sess (bs : List Byte) (s : State) : (xferAll bs s).sess = s.sess := by
  induction bs generalizing s with
  | nil => rfl
  | cons b bs ih => exact ih _
@[simp] theorem xferAll_cs (bs : List Byte) (s : State) : (xferAll bs s).cs = s.cs := by
  induction bs generalizing s with
  | nil => rfl
  | cons b bs ih => exact ih _
@[simp] theorem xferAll_fault (bs : List Byte) (s : State) : (xferAll bs s).fault = s.fault := by
  induction bs generalizing s with
  | nil => rfl
  | cons b bs ih => exact ih _
@[simp] theorem xferAll_resp (bs : List Byte) (s : State) : (xferAll bs s).resp = s.resp := by
  induction bs generalizing s with
  | nil => rfl
  | cons b bs ih => exact ih _
@[simp] theorem xferAll_attached (bs : List Byte) (s : State) : (xferAll bs s).attached = s.attached := by
  induction bs generalizing s with
  | nil => rfl
  | cons b bs ih => exact ih _
@[simp] theorem xferAll_params (bs : List Byte) (s : State) : (xferAll bs s).params = s.params := by
  induction bs generalizing s with
  | nil => rfl
  | cons b bs ih => exact ih _
@[simp] theorem xferAll_prog (bs : List Byte) (s : State) : (xferAll bs s).prog = s.prog := by
  induction bs generalizing s with
  | nil => rfl
  | cons b bs ih => exact ih _
@[simp] theorem xferAll_pc (bs : List Byte) (s : State) : (xferAll bs s).pc = s.pc := by
  induction bs generalizing s with
  | nil => rfl
  | cons b bs ih => exact ih _
@[simp] theorem xferAll_wireLog (bs : List Byte) (s : State) : (xferAll bs s).wireLog = s.wireLog := by
  induction bs generalizing s with
  | nil => rfl
  | cons b bs ih => exact ih _
@[simp] theorem xferAll_resetReq (bs : List Byte) (s : State) : (xferAll bs s).resetReq = s.resetReq := by
  induction bs generalizing s with
  | nil => rfl
  | cons b bs ih => exact ih _
@[simp] theorem wireXferAll_initDone (bs : List Byte) (s : State) : (wireXferAll bs s).initDone = s.initDone := by
  induction bs generalizing s with
  | nil => rfl
  | cons b bs ih => exact ih _
@[simp] theorem wireXferAll_cap (bs : List Byte) (s : State) : (wireXferAll bs s).cap = s.cap := by
  induction bs generalizing s with
  | nil => rfl
  | cons b bs ih => exact ih _
@[simp] theorem wireXferAll_sess (bs : List Byte) (s : State) : (wireXferAll bs s).sess = s.sess := by
  induction bs generalizing s with
  | nil => rfl
  | cons b bs ih => exact ih _
@[simp] theorem wireXferAll_cs (bs : List Byte) (s : State) : (wireXferAll bs s).cs = s.cs := by
  induction bs generalizing s with
  | nil => rfl
  | cons b bs ih => exact ih _
@[simp] theorem wireXferAll_fault (bs : List Byte) (s : State) : (wireXferAll bs s).fault = s.fault := by
  induction bs generalizing s with
  | nil => rfl
  | cons b bs ih => exact ih _
@[simp] theorem wireXferAll_trace (bs : List Byte) (s : State) : (wireXferAll bs s).trace = s.trace := by
  induction bs generalizing s with
  | nil => rfl
  | cons b bs ih => exact ih _
@[simp] theorem wireXferAll_resp (bs : List Byte) (s : State) : (wireXferAll bs s).resp = s.resp := by
  induction bs generalizing s with
  | nil => rfl
  | cons b bs ih => exact ih _
@[simp] theorem wireXferAll_attached (bs : List Byte) (s : State) : (wireXferAll bs s).attached = s.attached := by
  induction bs generalizing s with
  | nil => rfl
  | cons b bs ih => exact ih _
@[simp] theorem wireXferAll_params (bs : List Byte) (s : State) : (wireXferAll bs s).params = s.params := by
  induction bs generalizing s with
  | nil => rfl
  | cons b bs ih => exact ih _
@[simp] theorem wireXferAll_prog (bs : List Byte) (s : State) : (wireXferAll bs s).prog = s.prog := by
  induction bs generalizing s with
  | nil => rfl
  | cons b bs ih => exact ih _
@[simp] theorem wireXferAll_pc (bs : List Byte) (s : State) : (wireXferAll bs s).pc = s.pc := by
  induction bs generalizing s with
  | nil => rfl
  | cons b bs ih => exact ih _
@[simp] theorem wireXferAll_resetReq (bs : List Byte) (s : State) : (wireXferAll bs s).resetReq = s.resetReq := by
  induction bs generalizing s with
  | nil => rfl
  | cons b bs ih => exact ih _

@[simp] theorem addrOut_initDone (a : Addr) (s : State) : (addrOut a s).initDone = s.initDone := by simp [addrOut]
@[simp] theorem addrOut_cap (a : Addr) (s : State) : (addrOut a s).cap = s.cap := by simp [addrOut]
@[simp] theorem addrOut_sess (a : Addr) (s : State) : (addrOut a s).sess = s.sess := by simp [addrOut]
@[simp] theorem addrOut_cs (a : Addr) (s : State) : (addrOut a s).cs = s.cs := by simp [addrOut]
@[simp] theorem addrOut_fault (a : Addr) (s : State) : (addrOut a s).fault = s.fault := by simp [addrOut]
@[simp] theorem addrOut_resp (a : Addr) (s : State) : (addrOut a s).resp = s.resp := by simp [addrOut]
@[simp] theorem addrOut_attached (a : Addr) (s : State) : (addrOut a s).attached = s.attached := by simp [addrOut]
@[simp] theorem addrOut_params (a : Addr) (s : State) : (addrOut a s).params = s.params := by simp [addrOut]
@[simp] theorem addrOut_prog (a : Addr) (s : State) : (addrOut a s).prog = s.prog := by simp [addrOut]
@[simp] theorem addrOut_pc (a : Addr) (s : State) : (addrOut a s).pc = s.pc := by simp [addrOut]
@[simp] theorem addrOut_wireLog (a : Addr) (s : State) : (addrOut a s).wireLog = s.wireLog := by simp [addrOut]
@[simp] theorem addrOut_resetReq (a : Addr) (s : State) : (addrOut a s).resetReq = s.resetReq := by simp [addrOut]
@[simp] theorem wrenTxn_initDone (s : State) : (wrenTxn s).initDone = s.initDone := by simp [wrenTxn]
@[simp] theorem wrenTxn_cap (s : State) : (wrenTxn s).cap = s.cap := by simp [wrenTxn]
@[simp] theorem wrenTxn_sess (s : State) : (wrenTxn s).sess = s.sess := by simp [wrenTxn]
@[simp] theorem wrenTxn_fault (s : State) : (wrenTxn s).fault = s.fault := by simp [wrenTxn]
@[simp] theorem wrenTxn_resp (s : State) : (wrenTxn s).resp = s.resp := by simp [wrenTxn]
@[simp] theorem wrenTxn_attached (s : State) : (wrenTxn s).attached = s.attached := by simp [wrenTxn]
@[simp] theorem wrenTxn_params (s : State) : (wrenTxn s).params = s.params := by simp [wrenTxn]
@[simp] theorem wrenTxn_prog (s : State) : (wrenTxn s).prog = s.prog := by simp [wrenTxn]
@[simp] theorem wrenTxn_pc (s : State) : (wrenTxn s).pc = s.pc := by simp [wrenTxn]
@[simp] theorem wrenTxn_wireLog (s : State) : (wrenTxn s).wireLog = s.wireLog := by simp [wrenTxn]
@[simp] theorem wrenTxn_resetReq (s : State) : (wrenTxn s).resetReq = s.resetReq := by simp [wrenTxn]
@[simp] theorem wireTxn_initDone (tx : List Byte) (s : State) : (wireTxn tx s).initDone = s.initDone := by simp [wireTxn]
@[simp] theorem wireTxn_cap (tx : List Byte) (s : State) : (wireTxn tx s).cap = s.cap := by simp [wireTxn]
@[simp] theorem wireTxn_sess (tx : List Byte) (s : State) : (wireTxn tx s).sess = s.sess := by simp [wireTxn]
@[simp] theorem wireTxn_cs (tx : List Byte) (s : State) : (wireTxn tx s).cs = s.cs := by simp [wireTxn]
@[simp] theorem wireTxn_fault (tx : List Byte) (s : State) : (wireTxn tx s).fault = s.fault := by simp [wireTxn]
@[simp] theorem wireTxn_trace (tx : List Byte) (s : State) : (wireTxn tx s).trace = s.trace := by simp [wireTxn]
@[simp] theorem wireTxn_resp (tx : List Byte) (s : State) : (wireTxn tx s).resp = s.resp := by simp [wireTxn]
@[simp] theorem wireTxn_attached (tx : List Byte) (s : State) : (wireTxn tx s).attached = s.attached := by simp [wireTxn]
@[simp] theorem wireTxn_params (tx : List Byte) (s : State) : (wireTxn tx s).params = s.params := by simp [wireTxn]
@[simp] theorem wireTxn_prog (tx : List Byte) (s : State) : (wireTxn tx s).prog = s.prog := by simp [wireTxn]
@[simp] theorem wireTxn_pc (tx : List Byte) (s : State) : (wireTxn tx s).pc = s.pc := by simp [wireTxn]
@[simp] theorem wireTxn_resetReq (tx : List Byte) (s : State) : (wireTxn tx s).resetReq = s.resetReq := by simp [wireTxn]

@[simp] theorem wrenTxn_cs (s : State) : (wrenTxn s).cs = false := rfl

/-! ### Positions -/

@[simp] theorem advance_pc (s : State) : (advance s).pc = if s.fault.code = 0 then s.pc + 1 else s.pc := by
  unfold advance; split <;> rfl

@[simp] theorem advance_initDone (s : State) : (advance s).initDone = s.initDone := by unfold advance; split <;> rfl
@[simp] theorem advance_cap (s : State) : (advance s).cap = s.cap := by unfold advance; split <;> rfl
@[simp] theorem advance_sess (s : State) : (advance s).sess = s.sess := by unfold advance; split <;> rfl
@[simp] theorem advance_cs (s : State) : (advance s).cs = s.cs := by unfold advance; split <;> rfl
@[simp] theorem advance_fault (s : State) : (advance s).fault = s.fault := by unfold advance; split <;> rfl
@[simp] theorem advance_trace (s : State) : (advance s).trace = s.trace := by unfold advance; split <;> rfl
@[simp] theorem advance_resp (s : State) : (advance s).resp = s.resp := by unfold advance; split <;> rfl
@[simp] theorem advance_attached (s : State) : (advance s).attached = s.attached := by unfold advance; split <;> rfl
@[simp] theorem advance_params (s : State) : (advance s).params = s.params := by unfold advance; split <;> rfl
@[simp] theorem advance_rf (s : State) : (advance s).rf = s.rf := by unfold advance; split <;> rfl
@[simp] theorem advance_prog (s : State) : (advance s).prog = s.prog := by unfold advance; split <;> rfl
@[simp] theorem advance_draws (s : State) : (advance s).draws = s.draws := by unfold advance; split <;> rfl
@[simp] theorem advance_wireLog (s : State) : (advance s).wireLog = s.wireLog := by unfold advance; split <;> rfl
@[simp] theorem advance_resetReq (s : State) : (advance s).resetReq = s.resetReq := by unfold advance; split <;> rfl
@[simp] theorem advanceReady_initDone (s : State) : (advanceReady s).initDone = s.initDone := by unfold advanceReady; split <;> simp
@[simp] theorem advanceReady_cap (s : State) : (advanceReady s).cap = s.cap := by unfold advanceReady; split <;> simp
@[simp] theorem advanceReady_sess (s : State) : (advanceReady s).sess = s.sess := by unfold advanceReady; split <;> simp
@[simp] theorem advanceReady_cs (s : State) : (advanceReady s).cs = s.cs := by unfold advanceReady; split <;> simp
@[simp] theorem advanceReady_fault (s : State) : (advanceReady s).fault = s.fault := by unfold advanceReady; split <;> simp
@[simp] theorem advanceReady_trace (s : State) : (advanceReady s).trace = s.trace := by unfold advanceReady; split <;> simp
@[simp] theorem advanceReady_resp (s : State) : (advanceReady s).resp = s.resp := by unfold advanceReady; split <;> simp
@[simp] theorem advanceReady_attached (s : State) : (advanceReady s).attached = s.attached := by unfold advanceReady; split <;> simp
@[simp] theorem advanceReady_params (s : State) : (advanceReady s).params = s.params := by unfold advanceReady; split <;> simp
@[simp] theorem advanceReady_rf (s : State) : (advanceReady s).rf = s.rf := by unfold advanceReady; split <;> simp
@[simp] theorem advanceReady_prog (s : State) : (advanceReady s).prog = s.prog := by unfold advanceReady; split <;> simp
@[simp] theorem advanceReady_draws (s : State) : (advanceReady s).draws = s.draws := by unfold advanceReady; split <;> simp
@[simp] theorem advanceReady_wireLog (s : State) : (advanceReady s).wireLog = s.wireLog := by unfold advanceReady; split <;> simp
@[simp] theorem advanceReady_resetReq (s : State) : (advanceReady s).resetReq = s.resetReq := by unfold advanceReady; split <;> simp

/-! ### What only depends on some fields -/

/-- `advance` moves the position by at most one item. -/
theorem advanceReady_pc (s : State) : (advanceReady s).pc =
    if s.fault.code = 0 ∧ s.resp ≠ some (.bool true) then s.pc + 1 else s.pc := by
  unfold advanceReady
  split <;> simp_all

end Sys2Proof.Machine
end

