-- ==== Sys2Proof/Laws/Ops.lean ====
section
/-! SUPPORT. What each shared operation can do, once: a command's three outcomes, the checks by cause, runs of
exchanges, and what every bus event keeps of the reference flash. -/

namespace Sys2Proof.Machine

/-! ### The frame of a command (R202, R203, R204) -/

/-- Where no fault stands and no check applies, a command has its own effect. -/
theorem command_of_ok {i : Instr} {body : State → State} {s : State} (h : s.fault.code = 0)
    (hc : check i s = none) : command i body s = .next (body s) := by
  simp [command, h, hc]

/-- Where a check applies, the command takes that fault (R203). -/
theorem command_of_check {i : Instr} {body : State → State} {s : State} {c : FaultCode} (h : s.fault.code = 0)
    (hc : check i s = some c) : command i body s = .next (raiseFault c (wordOf i) s) := by
  simp [command, h, hc]

/-- While a fault stands, a command takes no step (R204). -/
theorem command_of_fault {i : Instr} {body : State → State} {s : State} (h : s.fault.code ≠ 0) :
    command i body s = .fault (.blockFaulted s.fault.code) :=
  if_neg h

/-- Everything a command that answers a next state can have done. -/
theorem command_next {i : Instr} {body : State → State} {s t : State} (h : command i body s = .next t) :
    s.fault.code = 0 ∧
      ((check i s = none ∧ t = body s) ∨ ∃ c, check i s = some c ∧ t = raiseFault c (wordOf i) s) := by
  unfold command at h
  split at h
  · next h0 =>
    refine ⟨h0, ?_⟩
    split at h
    · next c hc => cases h; exact .inr ⟨c, hc, rfl⟩
    · next hc => cases h; exact .inl ⟨hc, rfl⟩
  · cases h

/-- When a command of each group passes the checks (R202). -/
theorem checkGroup_none (g : Group) (s : State) : checkGroup g s = none ↔
    match g with
    | .init => s.initDone = false
    | .opens => s.initDone = true ∧ s.sess = .idle
    | .needsRead => s.initDone = true ∧ s.sess = .read
    | .needsWrite => s.initDone = true ∧ s.sess = .write
    | .free => s.initDone = true := by
  simp only [checkGroup]
  generalize s.initDone = d
  generalize s.sess = k
  cases g <;> cases d <;> cases k <;> simp

/-- Which fault a command of each group takes otherwise (R202). -/
theorem checkGroup_some (g : Group) (s : State) (c : FaultCode) : checkGroup g s = some c ↔
    match c with
    | .illegalCmd => False
    | .notInit => g ≠ .init ∧ s.initDone = false
    | .reinit => g = .init ∧ s.initDone = true
    | .sessionOpen => g = .opens ∧ s.initDone = true ∧ s.sess ≠ .idle
    | .noSession => (g = .needsRead ∨ g = .needsWrite) ∧ s.initDone = true ∧ s.sess = .idle
    | .wrongSession => s.initDone = true ∧
        ((g = .needsRead ∧ s.sess = .write) ∨ (g = .needsWrite ∧ s.sess = .read)) := by
  simp only [checkGroup]
  generalize s.initDone = d
  generalize s.sess = k
  cases g <;> cases d <;> cases k <;> cases c <;> simp

/-! ### Runs of exchanges -/

@[simp] theorem xferAll_nil (s : State) : xferAll [] s = s := rfl
@[simp] theorem xferAll_cons (b : Byte) (bs : List Byte) (s : State) :
    xferAll (b :: bs) s = xferAll bs (xfer b s) := rfl

theorem xferAll_append (bs cs : List Byte) (s : State) : xferAll (bs ++ cs) s = xferAll cs (xferAll bs s) := by
  induction bs generalizing s with
  | nil => rfl
  | cons b bs ih => exact ih _

/-- The events of a run of exchanges: the bytes sent, each with some byte received. -/
theorem xferAll_trace (bs : List Byte) (s : State) :
    ∃ rxs : List Byte, rxs.length = bs.length ∧
      (xferAll bs s).trace = s.trace ++ List.zipWith BusEvent.xfer bs rxs := by
  induction bs generalizing s with
  | nil => exact ⟨[], rfl, by simp⟩
  | cons b bs ih =>
    obtain ⟨rxs, hl, ht⟩ := ih (xfer b s)
    exact ⟨received b s :: rxs, by simp [hl], by simp [ht]⟩

/-- Each exchange draws one free value, whether the reference flash defines the byte or not. -/
@[simp] theorem xferAll_draws (bs : List Byte) (s : State) : (xferAll bs s).draws = s.draws + bs.length := by
  induction bs generalizing s with
  | nil => rfl
  | cons b bs ih => rw [xferAll_cons, ih, xfer_draws, List.length_cons]; omega

/-- The events of the address multiplexer (R86). -/
theorem addrOut_trace (a : Addr) (s : State) :
    ∃ r2 r1 r0, (addrOut a s).trace =
      s.trace ++ [.xfer (a.extractLsb' 16 8) r2, .xfer (a.extractLsb' 8 8) r1, .xfer (a.extractLsb' 0 8) r0] :=
  ⟨_, _, _, by simp only [addrOut, addrBytes, xferAll_cons, xferAll_nil, xfer_trace, List.append_assoc,
    List.cons_append, List.nil_append]; rfl⟩

/-- The events of the write-enable transaction (R140). -/
theorem wrenTxn_trace (s : State) : ∃ r, (wrenTxn s).trace = s.trace ++ [.csa, .xfer 0x06 r, .csd] :=
  ⟨_, by simp only [wrenTxn, csDeassert_trace, xfer_trace, csAssert_trace, List.append_assoc,
    List.cons_append, List.nil_append]; rfl⟩

/-! ### The reference flash under the operations of a command -/

/-- The reference flash of a state keeps its canonical form, its range and its busy bound. -/
abbrev FlashKept (s : State) : Prop := FlashOk s.params s.rf

theorem FlashKept.csAssert {s : State} (h : FlashKept s) : FlashKept (csAssert s) := by
  simp only [FlashKept, csAssert_params, csAssert_rf]
  split
  · exact h.select
  · exact h

theorem FlashKept.csDeassert {s : State} (hp : s.params.wf = true) (h : FlashKept s) :
    FlashKept (csDeassert s) := by
  simp only [FlashKept, csDeassert_params, csDeassert_rf]
  split
  · exact h.deselect hp
  · exact h

theorem FlashKept.xfer {s : State} (tx : Byte) (h : FlashKept s) : FlashKept (xfer tx s) := by
  simp only [FlashKept, xfer_params, xfer_rf]
  split
  · exact h.exchange tx
  · exact h

theorem FlashKept.xferAll {s : State} (bs : List Byte) (h : FlashKept s) : FlashKept (xferAll bs s) := by
  induction bs generalizing s with
  | nil => exact h
  | cons b bs ih => exact ih (h.xfer b)

theorem FlashKept.addrOut {s : State} (a : Addr) (h : FlashKept s) : FlashKept (addrOut a s) := h.xferAll _

theorem FlashKept.wrenTxn {s : State} (hp : s.params.wf = true) (h : FlashKept s) : FlashKept (wrenTxn s) :=
  (h.csAssert.xfer 0x06).csDeassert (by simpa using hp)

theorem FlashKept.wireSelect {s : State} (h : FlashKept s) : FlashKept (wireSelect s) := by
  simp only [FlashKept, wireSelect_params, wireSelect_rf]
  split
  · exact h.select
  · exact h

theorem FlashKept.wireDeselect {s : State} (hp : s.params.wf = true) (h : FlashKept s) :
    FlashKept (wireDeselect s) := by
  simp only [FlashKept, wireDeselect_params, wireDeselect_rf]
  split
  · exact h.deselect hp
  · exact h

theorem FlashKept.wireXferAll {s : State} (bs : List Byte) (h : FlashKept s) : FlashKept (wireXferAll bs s) := by
  induction bs generalizing s with
  | nil => exact h
  | cons b bs ih =>
    refine ih ?_
    simp only [FlashKept, wireXfer_params, wireXfer_rf]
    split
    · exact h.exchange b
    · exact h

theorem FlashKept.wireTxn {s : State} (hp : s.params.wf = true) (tx : List Byte) (h : FlashKept s) :
    FlashKept (wireTxn tx s) :=
  (h.wireSelect.wireXferAll tx).wireDeselect (by simpa using hp)

theorem FlashKept.blockReset {s : State} (hp : s.params.wf = true) (h : FlashKept s) :
    FlashKept (blockReset s) := by
  simp only [FlashKept, blockReset_params, blockReset_rf]
  split
  · exact h.deselect hp
  · exact h

end Sys2Proof.Machine
end

