-- ==== Sys2Proof/Laws/Transaction.lean ====
section
/-! SUPPORT. Whole transactions at the reference flash: what a select, a run of exchanges and a deselect do
together, once for the frames and once for each opcode of a flash that faults on nothing. -/

namespace Sys2Proof.Machine

variable {p : RfParams} {f : Rf}

/-- The reference flash after a run of exchanges. -/
def Rf.exchangeAll (p : RfParams) (f : Rf) : List Byte → Rf
  | [] => f
  | b :: bs => Rf.exchangeAll p (f.exchange p b) bs

/-- The bytes the reference flash clocks back in a run of exchanges, the draws numbered from `n` on. -/
def Rf.replyAll (p : RfParams) (f : Rf) (n : Nat) : List Byte → List Byte
  | [] => []
  | b :: bs => f.reply p b (Config.draw n) :: Rf.replyAll p (f.exchange p b) (n + 1) bs

@[simp] theorem Rf.exchangeAll_nil (p : RfParams) (f : Rf) : f.exchangeAll p [] = f := rfl

@[simp] theorem Rf.exchangeAll_cons (p : RfParams) (f : Rf) (b : Byte) (bs : List Byte) :
    f.exchangeAll p (b :: bs) = (f.exchange p b).exchangeAll p bs := rfl

@[simp] theorem Rf.exchangeAll_mem (p : RfParams) (f : Rf) (bs : List Byte) :
    (f.exchangeAll p bs).mem = f.mem := by
  induction bs generalizing f with
  | nil => rfl
  | cons b bs ih => simp [ih]

@[simp] theorem Rf.exchangeAll_wel (p : RfParams) (f : Rf) (bs : List Byte) :
    (f.exchangeAll p bs).wel = f.wel := by
  induction bs generalizing f with
  | nil => rfl
  | cons b bs ih => simp [ih]

@[simp] theorem Rf.exchangeAll_busy (p : RfParams) (f : Rf) (bs : List Byte) :
    (f.exchangeAll p bs).busy = f.busy := by
  induction bs generalizing f with
  | nil => rfl
  | cons b bs ih => simp [ih]

@[simp] theorem Rf.exchangeAll_sel (p : RfParams) (f : Rf) (bs : List Byte) :
    (f.exchangeAll p bs).sel = f.sel := by
  induction bs generalizing f with
  | nil => rfl
  | cons b bs ih => simp [ih]

theorem Rf.exchangeAll_append (p : RfParams) (f : Rf) (bs cs : List Byte) :
    f.exchangeAll p (bs ++ cs) = (f.exchangeAll p bs).exchangeAll p cs := by
  induction bs generalizing f with
  | nil => rfl
  | cons b bs ih => simp [ih]

theorem Rf.exchangeAll_of_fault {c : RfFault} (h : f.fault = some c) (bs : List Byte) :
    f.exchangeAll p bs = f := by
  induction bs with
  | nil => rfl
  | cons b bs ih => rw [Rf.exchangeAll_cons, Rf.exchange_of_fault b h, ih]

/-- Exchanges after which no fault is recorded have all been received: none was recorded before, and the
transaction is longer by all of them. -/
theorem Rf.exchangeAll_ok {bs : List Byte} (h : (f.exchangeAll p bs).fault = none) :
    f.fault = none ∧ f.exchangeAll p bs = { f with txn := f.txn ++ bs } := by
  induction bs generalizing f with
  | nil => exact ⟨h, by simp⟩
  | cons b bs ih =>
    cases hf : f.fault with
    | some c => rw [Rf.exchangeAll_of_fault hf, hf] at h; cases h
    | none =>
      obtain ⟨h1, h2⟩ := ih h
      refine ⟨rfl, ?_⟩
      rw [Rf.exchangeAll_cons, h2]
      rw [Rf.exchange_of_ok b hf] at h1 ⊢
      simp only at h1
      simp [h1]

/-- A deselect changes the array only for a Page Program or a Sector Erase. -/
theorem Rf.deselect_mem (h2 : f.txn.head? ≠ some 0x02) (h20 : f.txn.head? ≠ some 0x20) :
    (f.deselect p).mem = f.mem := by
  unfold Rf.deselect
  split
  · rfl
  · split
    · rfl
    · next op tl ht =>
      have h2' : op ≠ 0x02 := by simpa [ht] using h2
      have h20' : op ≠ 0x20 := by simpa [ht] using h20
      unfold Rf.close
      split
      · rfl
      split
      · rfl
      split
      · split <;> rfl
      · rfl

/-- What a page program leaves: the bytes outside the page. -/
theorem Rf.commitProgram_outside (a : Nat)
    (ha : ¬ ((txnAddr f.txn).toNat - (txnAddr f.txn).toNat % p.pageSize ≤ a ∧
      a < (txnAddr f.txn).toNat - (txnAddr f.txn).toNat % p.pageSize + p.pageSize)) :
    memRead p.image (f.commitProgram p).mem a = memRead p.image f.mem a := by
  simp only [Rf.commitProgram]
  split
  · rfl
  split
  · rfl
  · rw [programPage_eq, memRead_rewriteRange_outside p.image _ _ _ _ a ha]

/-- What a sector erase leaves: the bytes outside the sector. -/
theorem Rf.commitErase_outside (a : Nat)
    (ha : ¬ ((txnAddr f.txn).toNat ≤ a ∧ a < (txnAddr f.txn).toNat + p.sectorSize)) :
    memRead p.image (f.commitErase p).mem a = memRead p.image f.mem a := by
  simp only [Rf.commitErase]
  split
  · rfl
  split
  · rfl
  split
  · rfl
  · rw [eraseSector_eq, memRead_rewriteRange_outside p.image _ _ _ _ a ha]

/-- A deselect of a Page Program leaves the bytes outside its page. -/
theorem Rf.deselect_program_outside (hop : f.txn.head? = some 0x02) (a : Nat)
    (ha : ¬ ((txnAddr f.txn).toNat - (txnAddr f.txn).toNat % p.pageSize ≤ a ∧
      a < (txnAddr f.txn).toNat - (txnAddr f.txn).toNat % p.pageSize + p.pageSize)) :
    memRead p.image (f.deselect p).mem a = memRead p.image f.mem a := by
  unfold Rf.deselect
  split
  · rfl
  · split
    · rfl
    · next op tl ht =>
      obtain rfl : op = 0x02 := by simpa [ht] using hop
      unfold Rf.close
      split
      · rfl
      simp only [show ¬ (0x02 : Byte) = 0x06 by decide, if_false, if_true]
      exact Rf.commitProgram_outside (f := { f with sel := false }) a ha

/-- A deselect of a Sector Erase leaves the bytes outside its sector. -/
theorem Rf.deselect_erase_outside (hop : f.txn.head? = some 0x20) (a : Nat)
    (ha : ¬ ((txnAddr f.txn).toNat ≤ a ∧ a < (txnAddr f.txn).toNat + p.sectorSize)) :
    memRead p.image (f.deselect p).mem a = memRead p.image f.mem a := by
  unfold Rf.deselect
  split
  · rfl
  · split
    · rfl
    · next op tl ht =>
      obtain rfl : op = 0x20 := by simpa [ht] using hop
      unfold Rf.close
      split
      · rfl
      simp only [show ¬ (0x20 : Byte) = 0x06 by decide, show ¬ (0x20 : Byte) = 0x02 by decide, if_false, if_true]
      exact Rf.commitErase_outside (f := { f with sel := false }) a ha

/-- A deselect that leaves no fault recorded found none. -/
theorem Rf.fault_of_deselect (h : (f.deselect p).fault = none) : f.fault = none := by
  cases hf : f.fault with
  | none => rfl
  | some c => rw [Rf.deselect_of_fault hf, hf] at h; cases h

/-- A deselect that leaves no fault recorded leaves the chip deselected (R65). -/
theorem Rf.sel_of_deselect (h : (f.deselect p).fault = none) : (f.deselect p).sel = false := by
  have hf := Rf.fault_of_deselect h
  unfold Rf.deselect
  rw [hf]
  simp only
  split
  · rfl
  unfold Rf.close
  split
  · rfl
  split
  · rfl
  split
  · simp only [Rf.commitProgram]; split <;> [rfl; (split <;> rfl)]
  split
  · simp only [Rf.commitErase]; split <;> [rfl; (split <;> [rfl; (split <;> rfl)])]
  split
  · split <;> rfl
  · rfl

/-! ### A whole transaction -/

/-- The reference flash after select, the bytes `bs`, deselect. -/
def Rf.transact (p : RfParams) (f : Rf) (bs : List Byte) : Rf := (f.select.exchangeAll p bs).deselect p

/-- Before the deselect, either a fault is recorded or the whole transaction has been received. -/
theorem Rf.select_exchangeAll (p : RfParams) (f : Rf) (bs : List Byte) :
    (∃ c, (f.select.exchangeAll p bs).fault = some c) ∨
      (f.fault = none ∧ f.select.exchangeAll p bs = { f with sel := true, txn := bs }) := by
  cases h : (f.select.exchangeAll p bs).fault with
  | some c => exact .inl ⟨c, rfl⟩
  | none =>
    obtain ⟨h1, h2⟩ := Rf.exchangeAll_ok h
    have h1' : f.fault = none := by simpa using h1
    exact .inr ⟨h1', by rw [h2, Rf.select_of_ok h1']; simp⟩

/-- A transaction that is neither a Page Program nor a Sector Erase leaves the array. -/
theorem Rf.transact_mem (op : Byte) (bs : List Byte) (h2 : op ≠ 0x02) (h20 : op ≠ 0x20) :
    (f.transact p (op :: bs)).mem = f.mem := by
  unfold Rf.transact
  rcases Rf.select_exchangeAll p f (op :: bs) with ⟨c, hc⟩ | ⟨-, h⟩
  · rw [Rf.deselect_of_fault hc]; simp
  · rw [h, Rf.deselect_mem] <;> simpa

theorem Rf.transact_program_outside (bs : List Byte) (a : Nat)
    (ha : ¬ ((txnAddr (0x02 :: bs)).toNat - (txnAddr (0x02 :: bs)).toNat % p.pageSize ≤ a ∧
      a < (txnAddr (0x02 :: bs)).toNat - (txnAddr (0x02 :: bs)).toNat % p.pageSize + p.pageSize)) :
    memRead p.image (f.transact p (0x02 :: bs)).mem a = memRead p.image f.mem a := by
  unfold Rf.transact
  rcases Rf.select_exchangeAll p f (0x02 :: bs) with ⟨c, hc⟩ | ⟨-, h⟩
  · rw [Rf.deselect_of_fault hc]; simp
  · rw [h]; exact Rf.deselect_program_outside rfl a ha

theorem Rf.transact_erase_outside (bs : List Byte) (a : Nat)
    (ha : ¬ ((txnAddr (0x20 :: bs)).toNat ≤ a ∧ a < (txnAddr (0x20 :: bs)).toNat + p.sectorSize)) :
    memRead p.image (f.transact p (0x20 :: bs)).mem a = memRead p.image f.mem a := by
  unfold Rf.transact
  rcases Rf.select_exchangeAll p f (0x20 :: bs) with ⟨c, hc⟩ | ⟨-, h⟩
  · rw [Rf.deselect_of_fault hc]; simp
  · rw [h]; exact Rf.deselect_erase_outside rfl a ha

/-! ### A reference flash that is up -/

/-- Exchanges in a transaction that is not a Read Data fault on nothing. -/
theorem Rf.exchangeAll_of_txn {op : Byte} {tl : List Byte} (hf : f.fault = none) (ht : f.txn = op :: tl)
    (hop : op ≠ 0x03) (bs : List Byte) : f.exchangeAll p bs = { f with txn := f.txn ++ bs } := by
  induction bs generalizing f tl with
  | nil => simp
  | cons b bs ih =>
    have hx : f.exchange p b = { f with txn := f.txn ++ [b] } := by
      have : f.xferFault p b = none := by
        simp only [Rf.xferFault, ht]
        exact if_neg fun h => hop h.1
      rw [Rf.exchange_of_ok b hf, this, hf]
    rw [Rf.exchangeAll_cons, hx, ih (f := { f with txn := f.txn ++ [b] }) (tl := tl ++ [b]) hf (by simp [ht])]
    simp

/-- The address of a transaction stands once its first four bytes do. -/
theorem txnAddr_append (l m : List Byte) (h : 4 ≤ l.length) : txnAddr (l ++ m) = txnAddr l := by
  match l, h with
  | a :: b :: c :: d :: l, _ => rfl

theorem readAddr_append (l m : List Byte) (i : Nat) (h : 4 ≤ l.length) :
    readAddr (l ++ m) i = readAddr l i := by
  simp only [readAddr, txnAddr_append l m h]

/-- The address of a transaction that was sent an address (R42, R86). -/
theorem txnAddr_addrBytes (op : Byte) (a : Addr) (bs : List Byte) :
    txnAddr (op :: addrBytes a ++ bs) = a := addrOfBytes_addrBytes a

/-- Exchanges in a Read Data transaction fault on nothing while every address read lies in the chip. -/
theorem Rf.exchangeAll_of_read {tl : List Byte} (hf : f.fault = none) (ht : f.txn = 0x03 :: tl)
    (bs : List Byte) (h : ∀ i, i < f.txn.length + bs.length → 4 ≤ i → readAddr (f.txn ++ bs) i < p.size) :
    f.exchangeAll p bs = { f with txn := f.txn ++ bs } := by
  induction bs generalizing f tl with
  | nil => simp
  | cons b bs ih =>
    have hx : f.exchange p b = { f with txn := f.txn ++ [b] } := by
      rw [Rf.exchange_of_ok b hf]
      have : f.xferFault p b = none := by
        simp only [Rf.xferFault, ht]
        rw [if_neg]
        rintro ⟨-, h4, hs⟩
        have h4' : 4 ≤ f.txn.length := by simpa [ht] using h4
        have := h f.txn.length (by simp) h4'
        rw [readAddr_append _ _ _ h4', ht] at this
        omega
      rw [this, hf]
    rw [Rf.exchangeAll_cons, hx, ih (f := { f with txn := f.txn ++ [b] }) (tl := tl ++ [b]) hf (by simp [ht])]
    · simp
    · intro i h1 h2
      simpa using h i (by simp at h1 ⊢; omega) h2

/-- The opcode byte faults on nothing where the chip is not busy or it is a status read (R59). -/
theorem Rf.exchange_opcode {op : Byte} (hf : f.fault = none) (ht : f.txn = []) (hop : op ∈ wireOpcodes)
    (hb : f.busy = 0 ∨ op = 0x05) : f.exchange p op = { f with txn := [op] } := by
  rw [Rf.exchange_of_ok op hf]
  have : f.xferFault p op = none := by
    simp only [Rf.xferFault, ht]
    rw [if_neg (by rcases hb with hb | hb <;> simp [hb]), if_neg (by simpa using hop)]
  simp [this, ht, hf]

/-- A whole transaction that is not a Read Data reaches its deselect without a fault, where its opcode may be
sent (R59). -/
theorem Rf.transact_of_ready {op : Byte} (hf : f.fault = none) (hop : op ∈ wireOpcodes) (h3 : op ≠ 0x03)
    (hb : f.busy = 0 ∨ op = 0x05) (bs : List Byte) :
    f.transact p (op :: bs) = Rf.deselect p { f with sel := true, txn := op :: bs } := by
  unfold Rf.transact
  rw [Rf.select_of_ok hf, Rf.exchangeAll_cons, Rf.exchange_opcode (f := { f with sel := true, txn := [] }) hf rfl hop hb,
    Rf.exchangeAll_of_txn (f := { f with sel := true, txn := [op] }) (tl := []) hf rfl h3]
  rfl

/-- The deselect of a Page Program with its latch set and its address in the chip: the page program, the latch
cleared, the chip busy (R67). -/
theorem Rf.deselect_of_program {a : Addr} {d : List Byte} (hf : f.fault = none)
    (ht : f.txn = 0x02 :: addrBytes a ++ d) (hw : f.wel = true) (ha : a.toNat < p.size) :
    f.deselect p =
      { f with sel := false, mem := programPage p f.mem a.toNat d, wel := false, busy := p.tProg } := by
  have hl : lengthBad 0x02 f.txn.length = false := by simp [ht, lengthBad, addrBytes]
  have hd : f.txn.drop 4 = d := by rw [ht]; rfl
  have hta : txnAddr f.txn = a := by rw [ht]; exact txnAddr_addrBytes 0x02 a d
  have hdes : f.deselect p = Rf.close p { f with sel := false } 0x02 := by
    unfold Rf.deselect
    rw [hf]
    simp only
    rw [ht]
    rfl
  rw [hdes]
  unfold Rf.close
  rw [if_neg (by show ¬ lengthBad _ f.txn.length = true; rw [hl]; decide), if_neg (by decide), if_pos rfl]
  simp only [Rf.commitProgram, hta, hd, hw]
  rw [if_neg (by omega), if_neg (by decide)]

/-- The deselect of a Read Data transaction changes the selection and nothing else (R65). -/
theorem Rf.deselect_of_read {a : Addr} {bs : List Byte} (hf : f.fault = none)
    (ht : f.txn = 0x03 :: addrBytes a ++ bs) : f.deselect p = { f with sel := false } := by
  have hl : lengthBad 0x03 f.txn.length = false := by simp [ht, lengthBad, addrBytes]
  have hdes : f.deselect p = Rf.close p { f with sel := false } 0x03 := by
    unfold Rf.deselect
    rw [hf]
    simp only
    rw [ht]
    rfl
  rw [hdes]
  unfold Rf.close
  rw [if_neg (by show ¬ lengthBad _ f.txn.length = true; rw [hl]; decide), if_neg (by decide), if_neg (by decide), if_neg (by decide), if_neg (by decide)]

/-- A page program of data that stay within the page, read back: each data byte ANDed into its own address, and
nothing else changed (R67). -/
theorem memRead_programPage_within (p : RfParams) {m : List Host.Cell} (h : Rising m) (a : Nat) (d : List Byte)
    (hp : 1 ≤ p.pageSize) (hd : a % p.pageSize + d.length ≤ p.pageSize) (x : Nat) :
    memRead p.image (programPage p m a d) x =
      if a ≤ x ∧ x < a + d.length then memRead p.image m x &&& d.getD (x - a) 0xFF else memRead p.image m x := by
  have hm : a % p.pageSize ≤ a := Nat.mod_le a _
  rw [memRead_programPage p h]
  by_cases hx : a ≤ x ∧ x < a + d.length
  · rw [if_pos (by omega), if_pos hx, getD_pageBuffer _ _ _ (by omega),
      show x - (a - a % p.pageSize) = a % p.pageSize + 0 + (x - a) by omega,
      lastAt_of_no_wrap _ _ _ _ _ _ (by omega) (by omega)]
  · rw [if_neg hx]
    split
    · next hr =>
      rw [getD_pageBuffer _ _ _ (by omega), lastAt_of_none]
      · exact BitVec.and_allOnes
      · intro i _ hi
        rw [Nat.mod_eq_of_lt (by omega)]
        omega
    · rfl

/-! ### The reference flash under the operations of the block and of another bus master -/

/-- What the attached chip becomes: the reference flash's reaction, or nothing where it is not attached. -/
def State.chip (s : State) (g : RfParams → Rf → Rf) : Rf := if s.attached then g s.params s.rf else s.rf

theorem State.chip_of_attached {s : State} (h : s.attached = true) (g : RfParams → Rf → Rf) :
    s.chip g = g s.params s.rf :=
  if_pos h

theorem xferAll_rf (bs : List Byte) (s : State) :
    (xferAll bs s).rf = s.chip fun p f => f.exchangeAll p bs := by
  induction bs generalizing s with
  | nil => simp [State.chip]
  | cons b bs ih => rw [xferAll_cons, ih]; cases h : s.attached <;> simp [State.chip, h]

theorem wireXferAll_rf (bs : List Byte) (s : State) :
    (wireXferAll bs s).rf = s.chip fun p f => f.exchangeAll p bs := by
  induction bs generalizing s with
  | nil => simp [State.chip, wireXferAll]
  | cons b bs ih => rw [wireXferAll, ih]; cases h : s.attached <;> simp [State.chip, h]

/-- The reference flash under a wire transaction of another bus master. -/
theorem wireTxn_rf (bs : List Byte) (s : State) : (wireTxn bs s).rf = s.chip fun p f => f.transact p bs := by
  cases h : s.attached <;> simp [wireTxn, wireXferAll_rf, State.chip, Rf.transact, h]

/-- The reference flash under the write-enable transaction (R140). -/
theorem wrenTxn_rf (s : State) : (wrenTxn s).rf = s.chip fun p f => f.transact p [0x06] := by
  cases h : s.attached <;> simp [wrenTxn, State.chip, Rf.transact, h]

/-- The reference flash under a transaction that a command opens and closes. -/
theorem transaction_rf (bs : List Byte) (s : State) :
    (csDeassert (xferAll bs (csAssert s))).rf = s.chip fun p f => f.transact p bs := by
  cases h : s.attached <;> simp [xferAll_rf, State.chip, Rf.transact, h]

/-- The reference flash under the opening of a session. -/
theorem opening_rf (bs : List Byte) (s : State) :
    (xferAll bs (csAssert s)).rf = s.chip fun p f => f.select.exchangeAll p bs := by
  cases h : s.attached <;> simp [xferAll_rf, State.chip, h]

end Sys2Proof.Machine
end

