-- ==== Sys2Proof/Laws/Commands.lean ====
section
/-! SUPPORT. What each command's own effect does to each field of the state, its events and its transactions at
the reference flash, once. -/

namespace Sys2Proof.Machine

/-! ### doInit -/

section
variable (s : State)

@[simp] theorem doInit_initDone : (doInit s).initDone = true := rfl
@[simp] theorem doInit_sess : (doInit s).sess = s.sess := rfl
@[simp] theorem doInit_cs : (doInit s).cs = false := rfl
@[simp] theorem doInit_fault : (doInit s).fault = s.fault := rfl
@[simp] theorem doInit_resp : (doInit s).resp = some .noValue := rfl
@[simp] theorem doInit_attached : (doInit s).attached = s.attached := rfl
@[simp] theorem doInit_params : (doInit s).params = s.params := rfl
@[simp] theorem doInit_prog : (doInit s).prog = s.prog := rfl
@[simp] theorem doInit_pc : (doInit s).pc = s.pc := rfl
@[simp] theorem doInit_wireLog : (doInit s).wireLog = s.wireLog := rfl
@[simp] theorem doInit_resetReq : (doInit s).resetReq = s.resetReq := rfl

end

/-! ### doGetsize -/

section
variable (s : State)

@[simp] theorem doGetsize_initDone : (doGetsize s).initDone = s.initDone := rfl
@[simp] theorem doGetsize_cap : (doGetsize s).cap = s.cap := rfl
@[simp] theorem doGetsize_sess : (doGetsize s).sess = s.sess := rfl
@[simp] theorem doGetsize_cs : (doGetsize s).cs = s.cs := rfl
@[simp] theorem doGetsize_fault : (doGetsize s).fault = s.fault := rfl
@[simp] theorem doGetsize_trace : (doGetsize s).trace = s.trace := rfl
@[simp] theorem doGetsize_resp : (doGetsize s).resp = some (.size s.cap) := rfl
@[simp] theorem doGetsize_attached : (doGetsize s).attached = s.attached := rfl
@[simp] theorem doGetsize_params : (doGetsize s).params = s.params := rfl
@[simp] theorem doGetsize_rf : (doGetsize s).rf = s.rf := rfl
@[simp] theorem doGetsize_prog : (doGetsize s).prog = s.prog := rfl
@[simp] theorem doGetsize_pc : (doGetsize s).pc = s.pc := rfl
@[simp] theorem doGetsize_draws : (doGetsize s).draws = s.draws := rfl
@[simp] theorem doGetsize_wireLog : (doGetsize s).wireLog = s.wireLog := rfl
@[simp] theorem doGetsize_resetReq : (doGetsize s).resetReq = s.resetReq := rfl

end

/-! ### doReadStart -/

section
variable (a : Addr) (s : State)

@[simp] theorem doReadStart_initDone : (doReadStart a s).initDone = s.initDone := by simp [doReadStart]
@[simp] theorem doReadStart_cap : (doReadStart a s).cap = s.cap := by simp [doReadStart]
@[simp] theorem doReadStart_sess : (doReadStart a s).sess = .read := by simp [doReadStart]
@[simp] theorem doReadStart_cs : (doReadStart a s).cs = true := by simp [doReadStart]
@[simp] theorem doReadStart_fault : (doReadStart a s).fault = s.fault := by simp [doReadStart]
@[simp] theorem doReadStart_resp : (doReadStart a s).resp = some .noValue := by simp [doReadStart]
@[simp] theorem doReadStart_attached : (doReadStart a s).attached = s.attached := by simp [doReadStart]
@[simp] theorem doReadStart_params : (doReadStart a s).params = s.params := by simp [doReadStart]
@[simp] theorem doReadStart_prog : (doReadStart a s).prog = s.prog := by simp [doReadStart]
@[simp] theorem doReadStart_pc : (doReadStart a s).pc = s.pc := by simp [doReadStart]
@[simp] theorem doReadStart_wireLog : (doReadStart a s).wireLog = s.wireLog := by simp [doReadStart]
@[simp] theorem doReadStart_resetReq : (doReadStart a s).resetReq = s.resetReq := by simp [doReadStart]

end

/-! ### doReadByte -/

section
variable (s : State)

@[simp] theorem doReadByte_initDone : (doReadByte s).initDone = s.initDone := rfl
@[simp] theorem doReadByte_cap : (doReadByte s).cap = s.cap := rfl
@[simp] theorem doReadByte_sess : (doReadByte s).sess = s.sess := rfl
@[simp] theorem doReadByte_cs : (doReadByte s).cs = s.cs := rfl
@[simp] theorem doReadByte_fault : (doReadByte s).fault = s.fault := rfl
@[simp] theorem doReadByte_trace : (doReadByte s).trace = s.trace ++ [.xfer 0xFF (received 0xFF s)] := rfl
@[simp] theorem doReadByte_resp : (doReadByte s).resp = some (.byte (received 0xFF s)) := rfl
@[simp] theorem doReadByte_attached : (doReadByte s).attached = s.attached := rfl
@[simp] theorem doReadByte_params : (doReadByte s).params = s.params := rfl
@[simp] theorem doReadByte_rf : (doReadByte s).rf = if s.attached then s.rf.exchange s.params 0xFF else s.rf := rfl
@[simp] theorem doReadByte_prog : (doReadByte s).prog = s.prog := rfl
@[simp] theorem doReadByte_pc : (doReadByte s).pc = s.pc := rfl
@[simp] theorem doReadByte_draws : (doReadByte s).draws = s.draws + 1 := rfl
@[simp] theorem doReadByte_wireLog : (doReadByte s).wireLog = s.wireLog := rfl
@[simp] theorem doReadByte_resetReq : (doReadByte s).resetReq = s.resetReq := rfl

end

/-! ### doReadStop -/

section
variable (s : State)

@[simp] theorem doReadStop_initDone : (doReadStop s).initDone = s.initDone := rfl
@[simp] theorem doReadStop_cap : (doReadStop s).cap = s.cap := rfl
@[simp] theorem doReadStop_sess : (doReadStop s).sess = .idle := rfl
@[simp] theorem doReadStop_cs : (doReadStop s).cs = false := rfl
@[simp] theorem doReadStop_fault : (doReadStop s).fault = s.fault := rfl
@[simp] theorem doReadStop_trace : (doReadStop s).trace = s.trace ++ [.csd] := rfl
@[simp] theorem doReadStop_resp : (doReadStop s).resp = some .noValue := rfl
@[simp] theorem doReadStop_attached : (doReadStop s).attached = s.attached := rfl
@[simp] theorem doReadStop_params : (doReadStop s).params = s.params := rfl
@[simp] theorem doReadStop_rf : (doReadStop s).rf = if s.attached then s.rf.deselect s.params else s.rf := rfl
@[simp] theorem doReadStop_prog : (doReadStop s).prog = s.prog := rfl
@[simp] theorem doReadStop_pc : (doReadStop s).pc = s.pc := rfl
@[simp] theorem doReadStop_draws : (doReadStop s).draws = s.draws := rfl
@[simp] theorem doReadStop_wireLog : (doReadStop s).wireLog = s.wireLog := rfl
@[simp] theorem doReadStop_resetReq : (doReadStop s).resetReq = s.resetReq := rfl

end

/-! ### doWriteStart -/

section
variable (a : Addr) (s : State)

@[simp] theorem doWriteStart_initDone : (doWriteStart a s).initDone = s.initDone := by simp [doWriteStart]
@[simp] theorem doWriteStart_cap : (doWriteStart a s).cap = s.cap := by simp [doWriteStart]
@[simp] theorem doWriteStart_sess : (doWriteStart a s).sess = .write := by simp [doWriteStart]
@[simp] theorem doWriteStart_cs : (doWriteStart a s).cs = true := by simp [doWriteStart]
@[simp] theorem doWriteStart_fault : (doWriteStart a s).fault = s.fault := by simp [doWriteStart]
@[simp] theorem doWriteStart_resp : (doWriteStart a s).resp = some .noValue := by simp [doWriteStart]
@[simp] theorem doWriteStart_attached : (doWriteStart a s).attached = s.attached := by simp [doWriteStart]
@[simp] theorem doWriteStart_params : (doWriteStart a s).params = s.params := by simp [doWriteStart]
@[simp] theorem doWriteStart_prog : (doWriteStart a s).prog = s.prog := by simp [doWriteStart]
@[simp] theorem doWriteStart_pc : (doWriteStart a s).pc = s.pc := by simp [doWriteStart]
@[simp] theorem doWriteStart_wireLog : (doWriteStart a s).wireLog = s.wireLog := by simp [doWriteStart]
@[simp] theorem doWriteStart_resetReq : (doWriteStart a s).resetReq = s.resetReq := by simp [doWriteStart]

end

/-! ### doWriteByte -/

section
variable (d : Byte) (s : State)

@[simp] theorem doWriteByte_initDone : (doWriteByte d s).initDone = s.initDone := rfl
@[simp] theorem doWriteByte_cap : (doWriteByte d s).cap = s.cap := rfl
@[simp] theorem doWriteByte_sess : (doWriteByte d s).sess = s.sess := rfl
@[simp] theorem doWriteByte_cs : (doWriteByte d s).cs = s.cs := rfl
@[simp] theorem doWriteByte_fault : (doWriteByte d s).fault = s.fault := rfl
@[simp] theorem doWriteByte_trace : (doWriteByte d s).trace = s.trace ++ [.xfer d (received d s)] := rfl
@[simp] theorem doWriteByte_resp : (doWriteByte d s).resp = some .noValue := rfl
@[simp] theorem doWriteByte_attached : (doWriteByte d s).attached = s.attached := rfl
@[simp] theorem doWriteByte_params : (doWriteByte d s).params = s.params := rfl
@[simp] theorem doWriteByte_rf : (doWriteByte d s).rf = if s.attached then s.rf.exchange s.params d else s.rf := rfl
@[simp] theorem doWriteByte_prog : (doWriteByte d s).prog = s.prog := rfl
@[simp] theorem doWriteByte_pc : (doWriteByte d s).pc = s.pc := rfl
@[simp] theorem doWriteByte_draws : (doWriteByte d s).draws = s.draws + 1 := rfl
@[simp] theorem doWriteByte_wireLog : (doWriteByte d s).wireLog = s.wireLog := rfl
@[simp] theorem doWriteByte_resetReq : (doWriteByte d s).resetReq = s.resetReq := rfl

end

/-! ### doWriteStop -/

section
variable (s : State)

@[simp] theorem doWriteStop_initDone : (doWriteStop s).initDone = s.initDone := rfl
@[simp] theorem doWriteStop_cap : (doWriteStop s).cap = s.cap := rfl
@[simp] theorem doWriteStop_sess : (doWriteStop s).sess = .idle := rfl
@[simp] theorem doWriteStop_cs : (doWriteStop s).cs = false := rfl
@[simp] theorem doWriteStop_fault : (doWriteStop s).fault = s.fault := rfl
@[simp] theorem doWriteStop_trace : (doWriteStop s).trace = s.trace ++ [.csd] := rfl
@[simp] theorem doWriteStop_resp : (doWriteStop s).resp = some .noValue := rfl
@[simp] theorem doWriteStop_attached : (doWriteStop s).attached = s.attached := rfl
@[simp] theorem doWriteStop_params : (doWriteStop s).params = s.params := rfl
@[simp] theorem doWriteStop_rf : (doWriteStop s).rf = if s.attached then s.rf.deselect s.params else s.rf := rfl
@[simp] theorem doWriteStop_prog : (doWriteStop s).prog = s.prog := rfl
@[simp] theorem doWriteStop_pc : (doWriteStop s).pc = s.pc := rfl
@[simp] theorem doWriteStop_draws : (doWriteStop s).draws = s.draws := rfl
@[simp] theorem doWriteStop_wireLog : (doWriteStop s).wireLog = s.wireLog := rfl
@[simp] theorem doWriteStop_resetReq : (doWriteStop s).resetReq = s.resetReq := rfl

end

/-! ### doWriteIsbusy -/

section
variable (s : State)

@[simp] theorem doWriteIsbusy_initDone : (doWriteIsbusy s).initDone = s.initDone := rfl
@[simp] theorem doWriteIsbusy_cap : (doWriteIsbusy s).cap = s.cap := rfl
@[simp] theorem doWriteIsbusy_sess : (doWriteIsbusy s).sess = s.sess := rfl
@[simp] theorem doWriteIsbusy_cs : (doWriteIsbusy s).cs = false := rfl
@[simp] theorem doWriteIsbusy_fault : (doWriteIsbusy s).fault = s.fault := rfl
@[simp] theorem doWriteIsbusy_attached : (doWriteIsbusy s).attached = s.attached := rfl
@[simp] theorem doWriteIsbusy_params : (doWriteIsbusy s).params = s.params := rfl
@[simp] theorem doWriteIsbusy_prog : (doWriteIsbusy s).prog = s.prog := rfl
@[simp] theorem doWriteIsbusy_pc : (doWriteIsbusy s).pc = s.pc := rfl
@[simp] theorem doWriteIsbusy_wireLog : (doWriteIsbusy s).wireLog = s.wireLog := rfl
@[simp] theorem doWriteIsbusy_resetReq : (doWriteIsbusy s).resetReq = s.resetReq := rfl

end

/-! ### doErase -/

section
variable (a : Addr) (s : State)

@[simp] theorem doErase_initDone : (doErase a s).initDone = s.initDone := by simp [doErase]
@[simp] theorem doErase_cap : (doErase a s).cap = s.cap := by simp [doErase]
@[simp] theorem doErase_sess : (doErase a s).sess = s.sess := by simp [doErase]
@[simp] theorem doErase_cs : (doErase a s).cs = false := by simp [doErase]
@[simp] theorem doErase_fault : (doErase a s).fault = s.fault := by simp [doErase]
@[simp] theorem doErase_resp : (doErase a s).resp = some .noValue := by simp [doErase]
@[simp] theorem doErase_attached : (doErase a s).attached = s.attached := by simp [doErase]
@[simp] theorem doErase_params : (doErase a s).params = s.params := by simp [doErase]
@[simp] theorem doErase_prog : (doErase a s).prog = s.prog := by simp [doErase]
@[simp] theorem doErase_pc : (doErase a s).pc = s.pc := by simp [doErase]
@[simp] theorem doErase_wireLog : (doErase a s).wireLog = s.wireLog := by simp [doErase]
@[simp] theorem doErase_resetReq : (doErase a s).resetReq = s.resetReq := by simp [doErase]

end

/-! ### Events -/

section
variable (s : State) (a : Addr)

/-- The capacity and the seven events of `init` (R101). -/
theorem doInit_events : ∃ r m y c, (doInit s).cap = capDecode m c ∧ (doInit s).trace =
    s.trace ++ [.tinit, .csa, .xfer 0x9F r, .xfer 0xFF m, .xfer 0xFF y, .xfer 0xFF c, .csd] :=
  ⟨_, _, _, _, rfl, by simp only [doInit, respond_trace, csDeassert_trace, xfer_trace, csAssert_trace,
    transportInit_trace, List.append_assoc, List.cons_append, List.nil_append, placeholder]; rfl⟩

/-- The five events of `read_start` (R120). -/
theorem doReadStart_events : ∃ r r2 r1 r0, (doReadStart a s).trace =
    s.trace ++ [.csa, .xfer 0x03 r, .xfer (a.extractLsb' 16 8) r2, .xfer (a.extractLsb' 8 8) r1,
      .xfer (a.extractLsb' 0 8) r0] := by
  obtain ⟨r2, r1, r0, h⟩ := addrOut_trace a (xfer 0x03 (csAssert s))
  exact ⟨_, r2, r1, r0, by
    simp only [doReadStart, respond_trace, h, xfer_trace, csAssert_trace, List.append_assoc, List.cons_append,
      List.nil_append]; rfl⟩

/-- The eight events of `write_start` (R141). -/
theorem doWriteStart_events : ∃ q r r2 r1 r0, (doWriteStart a s).trace =
    s.trace ++ [.csa, .xfer 0x06 q, .csd, .csa, .xfer 0x02 r, .xfer (a.extractLsb' 16 8) r2,
      .xfer (a.extractLsb' 8 8) r1, .xfer (a.extractLsb' 0 8) r0] := by
  obtain ⟨r2, r1, r0, h⟩ := addrOut_trace a (xfer 0x02 (csAssert (wrenTxn s)))
  obtain ⟨q, hq⟩ := wrenTxn_trace s
  exact ⟨q, _, r2, r1, r0, by
    simp only [doWriteStart, respond_trace, h, xfer_trace, csAssert_trace, hq, List.append_assoc,
      List.cons_append, List.nil_append]; rfl⟩

/-- The four events and the response of `write_isbusy` (R161). -/
theorem doWriteIsbusy_events : ∃ r y, (doWriteIsbusy s).resp = some (.bool (statusBusy y)) ∧
    (doWriteIsbusy s).trace = s.trace ++ [.csa, .xfer 0x05 r, .xfer 0xFF y, .csd] :=
  ⟨_, _, rfl, by simp only [doWriteIsbusy, respond_trace, csDeassert_trace, xfer_trace, csAssert_trace,
    List.append_assoc, List.cons_append, List.nil_append, placeholder]; rfl⟩

/-- The nine events of `erase` (R162). -/
theorem doErase_events : ∃ q r r2 r1 r0, (doErase a s).trace =
    s.trace ++ [.csa, .xfer 0x06 q, .csd, .csa, .xfer 0x20 r, .xfer (a.extractLsb' 16 8) r2,
      .xfer (a.extractLsb' 8 8) r1, .xfer (a.extractLsb' 0 8) r0, .csd] := by
  obtain ⟨r2, r1, r0, h⟩ := addrOut_trace a (xfer 0x20 (csAssert (wrenTxn s)))
  obtain ⟨q, hq⟩ := wrenTxn_trace s
  exact ⟨q, _, r2, r1, r0, by
    simp only [doErase, respond_trace, csDeassert_trace, h, xfer_trace, csAssert_trace, hq, List.append_assoc,
      List.cons_append, List.nil_append]; rfl⟩

/-! ### The reference flash -/

theorem doInit_rf : (doInit s).rf = s.chip fun p f => f.transact p [0x9F, 0xFF, 0xFF, 0xFF] :=
  transaction_rf [0x9F, 0xFF, 0xFF, 0xFF] (transportInit s)

theorem doReadStart_rf :
    (doReadStart a s).rf = s.chip fun p f => f.select.exchangeAll p (0x03 :: addrBytes a) :=
  opening_rf (0x03 :: addrBytes a) s

theorem doWriteStart_rf : (doWriteStart a s).rf =
    s.chip fun p f => (f.transact p [0x06]).select.exchangeAll p (0x02 :: addrBytes a) := by
  refine (opening_rf (0x02 :: addrBytes a) (wrenTxn s)).trans ?_
  cases h : s.attached <;> simp [State.chip, h, wrenTxn_rf]

theorem doWriteIsbusy_rf : (doWriteIsbusy s).rf = s.chip fun p f => f.transact p [0x05, 0xFF] :=
  transaction_rf [0x05, 0xFF] s

theorem doErase_rf : (doErase a s).rf =
    s.chip fun p f => (f.transact p [0x06]).transact p (0x20 :: addrBytes a) := by
  refine (transaction_rf (0x20 :: addrBytes a) (wrenTxn s)).trans ?_
  cases h : s.attached <;> simp [State.chip, h, wrenTxn_rf]

end

/-! ### When a command has its own effect (R202) -/

section
variable {s : State}

theorem exec_init (h0 : s.fault.code = 0) (h1 : s.initDone = false) : exec .init s = .next (doInit s) :=
  command_of_ok h0 ((checkGroup_none .init s).mpr h1)

theorem exec_getsize (h : s.accepts) : exec .getsize s = .next (doGetsize s) :=
  command_of_ok h.1 ((checkGroup_none .free s).mpr h.2)

theorem exec_readStart (a : Addr) (h : s.acceptsOpen) : exec (.readStart a) s = .next (doReadStart a s) :=
  command_of_ok h.1.1 ((checkGroup_none .opens s).mpr ⟨h.1.2, h.2⟩)

theorem exec_readByte (l : Bool) (h : s.accepts) (hs : s.sess = .read) :
    exec (.readByte l) s = .next (doReadByte s) :=
  command_of_ok h.1 ((checkGroup_none .needsRead s).mpr ⟨h.2, hs⟩)

theorem exec_readStop (h : s.accepts) (hs : s.sess = .read) : exec .readStop s = .next (doReadStop s) :=
  command_of_ok h.1 ((checkGroup_none .needsRead s).mpr ⟨h.2, hs⟩)

theorem exec_writeStart (a : Addr) (h : s.acceptsOpen) : exec (.writeStart a) s = .next (doWriteStart a s) :=
  command_of_ok h.1.1 ((checkGroup_none .opens s).mpr ⟨h.1.2, h.2⟩)

theorem exec_writeByte (d : Byte) (h : s.accepts) (hs : s.sess = .write) :
    exec (.writeByte d) s = .next (doWriteByte d s) :=
  command_of_ok h.1 ((checkGroup_none .needsWrite s).mpr ⟨h.2, hs⟩)

theorem exec_writeStop (h : s.accepts) (hs : s.sess = .write) : exec .writeStop s = .next (doWriteStop s) :=
  command_of_ok h.1 ((checkGroup_none .needsWrite s).mpr ⟨h.2, hs⟩)

theorem exec_writeIsbusy (h : s.acceptsOpen) : exec .writeIsbusy s = .next (doWriteIsbusy s) :=
  command_of_ok h.1.1 ((checkGroup_none .opens s).mpr ⟨h.1.2, h.2⟩)

theorem exec_erase (a : Addr) (h : s.acceptsOpen) : exec (.erase a) s = .next (doErase a s) :=
  command_of_ok h.1.1 ((checkGroup_none .opens s).mpr ⟨h.1.2, h.2⟩)

end

/-! ### What an instruction can do -/

/-- Everything an instruction that answers a next state can have done, once for every invariant: a fault entry
(R203), a whole wire transaction of another bus master, or the effect of one command in the session that
R202 asks for. -/
theorem exec_next {i : Instr} {s t : State} (h : exec i s = .next t) :
    (s.fault.code = 0 ∧ ∃ c w, t = raiseFault c w s) ∨
      (∃ bs, encode i = .wire bs ∧ t = wireTxn bs s) ∨
      (s.fault.code = 0 ∧ s.initDone = false ∧ t = doInit s) ∨
      (s.fault.code = 0 ∧ s.initDone = true ∧
        (t = doGetsize s ∨
          (s.sess = .idle ∧ ((∃ a, t = doReadStart a s) ∨ (∃ a, t = doWriteStart a s) ∨ t = doWriteIsbusy s ∨
            ∃ a, t = doErase a s)) ∨
          (s.sess = .read ∧ (t = doReadByte s ∨ t = doReadStop s)) ∨
          (s.sess = .write ∧ ((∃ d, t = doWriteByte d s) ∨ t = doWriteStop s)))) := by
  cases i
  case init =>
    obtain ⟨h0, ⟨hc, rfl⟩ | ⟨c, -, rfl⟩⟩ := command_next h
    · exact .inr (.inr (.inl ⟨h0, (checkGroup_none .init s).mp hc, rfl⟩))
    · exact .inl ⟨h0, _, _, rfl⟩
  case getsize =>
    obtain ⟨h0, ⟨hc, rfl⟩ | ⟨c, -, rfl⟩⟩ := command_next h
    · exact .inr (.inr (.inr ⟨h0, (checkGroup_none .free s).mp hc, .inl rfl⟩))
    · exact .inl ⟨h0, _, _, rfl⟩
  case readStart a =>
    obtain ⟨h0, ⟨hc, rfl⟩ | ⟨c, -, rfl⟩⟩ := command_next h
    · have := (checkGroup_none .opens s).mp hc
      exact .inr (.inr (.inr ⟨h0, this.1, .inr (.inl ⟨this.2, .inl ⟨a, rfl⟩⟩)⟩))
    · exact .inl ⟨h0, _, _, rfl⟩
  case writeStart a =>
    obtain ⟨h0, ⟨hc, rfl⟩ | ⟨c, -, rfl⟩⟩ := command_next h
    · have := (checkGroup_none .opens s).mp hc
      exact .inr (.inr (.inr ⟨h0, this.1, .inr (.inl ⟨this.2, .inr (.inl ⟨a, rfl⟩)⟩)⟩))
    · exact .inl ⟨h0, _, _, rfl⟩
  case writeIsbusy =>
    obtain ⟨h0, ⟨hc, rfl⟩ | ⟨c, -, rfl⟩⟩ := command_next h
    · have := (checkGroup_none .opens s).mp hc
      exact .inr (.inr (.inr ⟨h0, this.1, .inr (.inl ⟨this.2, .inr (.inr (.inl rfl))⟩)⟩))
    · exact .inl ⟨h0, _, _, rfl⟩
  case erase a =>
    obtain ⟨h0, ⟨hc, rfl⟩ | ⟨c, -, rfl⟩⟩ := command_next h
    · have := (checkGroup_none .opens s).mp hc
      exact .inr (.inr (.inr ⟨h0, this.1, .inr (.inl ⟨this.2, .inr (.inr (.inr ⟨a, rfl⟩))⟩)⟩))
    · exact .inl ⟨h0, _, _, rfl⟩
  case readByte l =>
    obtain ⟨h0, ⟨hc, rfl⟩ | ⟨c, -, rfl⟩⟩ := command_next h
    · have := (checkGroup_none .needsRead s).mp hc
      exact .inr (.inr (.inr ⟨h0, this.1, .inr (.inr (.inl ⟨this.2, .inl rfl⟩))⟩))
    · exact .inl ⟨h0, _, _, rfl⟩
  case readStop =>
    obtain ⟨h0, ⟨hc, rfl⟩ | ⟨c, -, rfl⟩⟩ := command_next h
    · have := (checkGroup_none .needsRead s).mp hc
      exact .inr (.inr (.inr ⟨h0, this.1, .inr (.inr (.inl ⟨this.2, .inr rfl⟩))⟩))
    · exact .inl ⟨h0, _, _, rfl⟩
  case writeByte d =>
    obtain ⟨h0, ⟨hc, rfl⟩ | ⟨c, -, rfl⟩⟩ := command_next h
    · have := (checkGroup_none .needsWrite s).mp hc
      exact .inr (.inr (.inr ⟨h0, this.1, .inr (.inr (.inr ⟨this.2, .inl ⟨d, rfl⟩⟩))⟩))
    · exact .inl ⟨h0, _, _, rfl⟩
  case writeStop =>
    obtain ⟨h0, ⟨hc, rfl⟩ | ⟨c, -, rfl⟩⟩ := command_next h
    · have := (checkGroup_none .needsWrite s).mp hc
      exact .inr (.inr (.inr ⟨h0, this.1, .inr (.inr (.inr ⟨this.2, .inr rfl⟩))⟩))
    · exact .inl ⟨h0, _, _, rfl⟩
  all_goals (cases h; exact .inr (.inl ⟨_, rfl, rfl⟩))

/-! ### The reference flash kept -/

/-- A transaction that a command opens and closes keeps the reference flash. -/
theorem FlashKept.transaction {s : State} (hp : s.params.wf = true) (bs : List Byte) (h : FlashKept s) :
    FlashKept (Machine.csDeassert (Machine.xferAll bs (Machine.csAssert s))) :=
  (h.csAssert.xferAll bs).csDeassert (by simpa using hp)

theorem FlashKept.doInit {s : State} (hp : s.params.wf = true) (h : FlashKept s) : FlashKept (doInit s) := by
  have hr : (Machine.doInit s).rf =
      (Machine.csDeassert (Machine.xferAll [0x9F, 0xFF, 0xFF, 0xFF] (Machine.csAssert (transportInit s)))).rf := rfl
  have hk := FlashKept.transaction (s := transportInit s) hp [0x9F, 0xFF, 0xFF, 0xFF] h
  unfold FlashKept at hk ⊢
  rw [hr]
  simpa using hk

theorem FlashKept.doReadStart {s : State} (a : Addr) (h : FlashKept s) : FlashKept (doReadStart a s) :=
  (h.csAssert.xfer _).addrOut a

theorem FlashKept.doWriteStart {s : State} (hp : s.params.wf = true) (a : Addr) (h : FlashKept s) :
    FlashKept (doWriteStart a s) :=
  ((h.wrenTxn hp).csAssert.xfer _).addrOut a

theorem FlashKept.doWriteIsbusy {s : State} (hp : s.params.wf = true) (h : FlashKept s) :
    FlashKept (doWriteIsbusy s) := by
  have hr : (Machine.doWriteIsbusy s).rf =
      (Machine.csDeassert (Machine.xferAll [0x05, 0xFF] (Machine.csAssert s))).rf := rfl
  have hk := h.transaction hp [0x05, 0xFF]
  unfold FlashKept at hk ⊢
  rw [hr]
  simpa using hk

theorem FlashKept.doErase {s : State} (hp : s.params.wf = true) (a : Addr) (h : FlashKept s) :
    FlashKept (doErase a s) := by
  have hr : (Machine.doErase a s).rf =
      (Machine.csDeassert (Machine.xferAll (0x20 :: addrBytes a) (Machine.csAssert (Machine.wrenTxn s)))).rf :=
    rfl
  have hk := (h.wrenTxn hp).transaction (by simpa using hp) (0x20 :: addrBytes a)
  unfold FlashKept at hk ⊢
  rw [hr]
  simpa using hk

/-! ### Frames of the flash array -/

/-- A reaction that keeps the cells keeps every byte. -/
theorem FlashSame.of_mem {s t : State} (hp : t.params = s.params) (h : t.rf.mem = s.rf.mem) : FlashSame s t := by
  intro a
  simp [State.flashByte, hp, h]

theorem State.chip_mem {s : State} {g : RfParams → Rf → Rf} (h : ∀ p f, (g p f).mem = f.mem) :
    (s.chip g).mem = s.rf.mem := by
  unfold State.chip
  split
  · exact h _ _
  · rfl

end Sys2Proof.Machine
end

