-- ==== Sys2Proof/Laws/PerInstr.lean ====
section
/-! SUPPORT. One statement about every instruction as syntax: its encoding begins with its own operation code
(30_encoding.md R81, R84), and an upward command word has `RSV` zero (R80). -/

namespace Sys2Proof.Laws.OpcodeField

/-- The `OP` of an upward command (R81), or the wire opcode (R84). -/
def code : Instr → Nat
  | .init => 0
  | .readStart _ => 1
  | .readByte _ => 2
  | .readStop => 3
  | .writeStart _ => 4
  | .writeByte _ => 5
  | .writeStop => 6
  | .writeIsbusy => 7
  | .erase _ => 8
  | .getsize => 9
  | .wren => 0x06
  | .pageProgram _ _ => 0x02
  | .sectorErase _ => 0x20
  | .readData _ _ => 0x03
  | .readStatus1 _ => 0x05
  | .readId _ => 0x9F

/-- The encoding of the instruction begins with its operation code; a command word's reserved bits are 0. -/
def Statement (i : Instr) : Prop :=
  match encode i with
  | .command w => opField w = BitVec.ofNat 4 (code i) ∧ rsvField w = 0
  | .wire tx => tx.head? = some (BitVec.ofNat 8 (code i))

theorem init : Statement .init := by simp [Statement, encode, code]
theorem readStart (a : Addr) : Statement (.readStart a) := by simp [Statement, encode, code]
theorem readByte (l : Bool) : Statement (.readByte l) := by simp [Statement, encode, code]
theorem readStop : Statement .readStop := by simp [Statement, encode, code]
theorem writeStart (a : Addr) : Statement (.writeStart a) := by simp [Statement, encode, code]
theorem writeByte (d : Byte) : Statement (.writeByte d) := by simp [Statement, encode, code]
theorem writeStop : Statement .writeStop := by simp [Statement, encode, code]
theorem writeIsbusy : Statement .writeIsbusy := by simp [Statement, encode, code]
theorem erase (a : Addr) : Statement (.erase a) := by simp [Statement, encode, code]
theorem getsize : Statement .getsize := by simp [Statement, encode, code]
theorem wren : Statement .wren := rfl
theorem pageProgram (a : Addr) (d : List Byte) : Statement (.pageProgram a d) := rfl
theorem sectorErase (a : Addr) : Statement (.sectorErase a) := rfl
theorem readData (a : Addr) (n : Nat) : Statement (.readData a n) := rfl
theorem readStatus1 (n : Nat) : Statement (.readStatus1 n) := rfl
theorem readId (n : Nat) : Statement (.readId n) := rfl

end Sys2Proof.Laws.OpcodeField
end

