-- ==== Sys2Proof/Machine/Instances.lean ====
section
/-! DEFINITION. Several instances (10_state.md R33): each has its own state, bus and chip, and they share
nothing. DESIGN CHOICE, unsafe for a statement that compares instances: their free values come from the same
Config.draw and Config.freeCap, so at equal counters two chips give the same undefined bytes (log entry 15). -/

namespace Sys2Proof.Machine

/-- One step of the `k`-th instance of several; the others are as before.
R33 leaves open whether the separate chips answer their undefined bytes alike. DESIGN CHOICE: they do at equal
`State.draws`, each instance counting its own (log entry 15). -/
def stepInstance : Nat → List State → Host.Outcome (List State) Fault Refusal
  | _, [] => .next []
  | 0, s :: ss =>
    match step s with
    | .next t => .next (t :: ss)
    | .fault r => .fault r
    | .refused r => .refused r
  | k + 1, s :: ss =>
    match stepInstance k ss with
    | .next ts => .next (s :: ts)
    | .fault r => .fault r
    | .refused r => .refused r

end Sys2Proof.Machine
end

