-- ==== Sys2Proof/Laws/Step.lean ====
section
/-! SUPPORT. What a step can do, once: the invariants are derived from this. -/

namespace Sys2Proof.Machine

/-- The next states of an item's encoding: those of an instruction, of an illegal command word, or of a wire
transaction that decodes to none. -/
theorem runEncoded_next {e : Encoded} {s t : State} (h : runEncoded e s = .next t) :
    (∃ i, decode e = .instr i ∧ exec i s = .next t) ∨
      (∃ w, e = .command w ∧ s.fault.code = 0 ∧ t = raiseFault .illegalCmd w s) ∨
      (∃ tx, e = .wire tx ∧ t = wireTxn tx s) := by
  unfold runEncoded at h
  split at h
  · next i hi => exact .inl ⟨i, hi, h⟩
  · split at h
    · next w _ =>
      unfold execIllegal at h
      split at h
      · next h0 => cases h; exact .inr (.inl ⟨w, rfl, h0, rfl⟩)
      · cases h
    · next tx _ => cases h; exact .inr (.inr ⟨tx, rfl, rfl⟩)

/-- The next states of an item. -/
theorem runItem_next {it : Item} {s t : State} (h : runItem it s = .next t) :
    (∃ e u, it = .issue e ∧ runEncoded e s = .next u ∧ t = advance u) ∨
      (∃ u, it = .waitReady ∧ exec .writeIsbusy s = .next u ∧ t = advanceReady u) := by
  unfold runItem at h
  split at h
  · next e =>
    split at h
    · next u hu => cases h; exact .inl ⟨e, u, rfl, hu, rfl⟩
    · cases h
    · cases h
  · split at h
    · next u hu => cases h; exact .inr ⟨u, rfl, hu, rfl⟩
    · cases h
    · cases h

/-- Everything a step that answers a next state can have done: a reset, an item of the program, or nothing
where there is no item. -/
theorem step_next {s t : State} (h : step s = .next t) :
    (s.resetReq = true ∧ t = blockReset s) ∨
      (s.resetReq = false ∧ recordedFault s = none ∧
        ((∃ it, s.prog[s.pc]? = some it ∧ runItem it s = .next t) ∨ (s.prog[s.pc]? = none ∧ t = s))) := by
  unfold step stepState at h
  split at h
  · next hr => cases h; exact .inl ⟨hr, rfl⟩
  · next hr =>
    refine .inr ⟨by simpa using hr, ?_⟩
    split at h
    · cases h
    · next hf =>
      refine ⟨hf, ?_⟩
      split at h
      · next it hit => exact .inl ⟨it, hit, h⟩
      · next hit => cases h; exact .inr ⟨hit, rfl⟩

/-- No fault recorded (R93). -/
theorem recordedFault_none {s : State} :
    recordedFault s = none ↔ s.fault.code = 0 ∧ (s.attached = true → s.rf.fault = none) := by
  unfold recordedFault
  split
  · next h => cases hf : s.rf.fault <;> cases ha : s.attached <;> simp [h]
  · next h => exact ⟨fun h' => (by cases h'), fun h' => absurd h'.1 h⟩

/-- A word that decodes to an instruction decodes to an upward command. -/
theorem encode_of_decodeCommand {w : CmdWord} {i : Instr} (h : decodeCommand w = .instr i) :
    ∃ v, encode i = .command v := by
  simp only [decodeCommand] at h
  split at h
  · next r hr =>
    have hm := List.mem_of_find?_eq_some hr
    injection h with h
    subst h
    revert hm
    simp only [cmdRows, List.mem_cons, List.not_mem_nil, or_false]
    rintro (rfl | rfl | rfl | rfl | rfl | rfl | rfl | rfl | rfl | rfl) <;> exact ⟨_, rfl⟩
  · cases h

/-- What a step that answers a next state changes, once for every invariant: a reset; nothing; or, with no
fault recorded, what one instruction, one illegal word or one foreign transaction does, and the position. -/
theorem step_change {s t : State} (h : step s = .next t) :
    (s.resetReq = true ∧ t = blockReset s) ∨ t = s ∨
      (s.fault.code = 0 ∧ (s.attached = true → s.rf.fault = none) ∧ s.pc < s.prog.length ∧
        ∃ u, (t = u ∨ t = { u with pc := u.pc + 1 }) ∧
          ((∃ i, exec i s = .next u ∧ (s.blockOnly → ∃ w, encode i = .command w)) ∨
            (∃ w, u = raiseFault .illegalCmd w s) ∨ (∃ bs, u = wireTxn bs s ∧ ¬ s.blockOnly))) := by
  rcases step_next h with ⟨h1, h2⟩ | ⟨h1, h2, ⟨it, hit, h3⟩ | ⟨h3, h4⟩⟩
  · exact .inl ⟨h1, h2⟩
  · obtain ⟨h0, hf⟩ := recordedFault_none.mp h2
    refine .inr (.inr ⟨h0, hf, (List.getElem?_eq_some_iff.mp hit).1, ?_⟩)
    rcases runItem_next h3 with ⟨e, u, rfl, hu, rfl⟩ | ⟨u, rfl, hu, rfl⟩
    · refine ⟨u, by unfold advance; split <;> simp, ?_⟩
      rcases runEncoded_next hu with ⟨i, hd, he⟩ | ⟨w, rfl, -, rfl⟩ | ⟨tx, rfl, rfl⟩
      · refine .inl ⟨i, he, fun hb => ?_⟩
        cases e with
        | wire tx => exact absurd hit (hb tx)
        | command w => exact encode_of_decodeCommand hd
      · exact .inr (.inl ⟨w, rfl⟩)
      · exact .inr (.inr ⟨tx, rfl, fun hb => hb tx hit⟩)
    · exact ⟨u, by unfold advanceReady advance; split <;> [simp; (split <;> simp)],
        .inl ⟨_, hu, fun _ => ⟨_, rfl⟩⟩⟩
  · exact .inr (.inl h4)

/-- The item just placed is the one at the position. -/
theorem getElem?_placeItem (l : List Item) (n : Nat) (it : Item) : (placeItem l n it)[n]? = some it := by
  induction n generalizing l with
  | zero => cases l <;> rfl
  | succ n ih => cases l <;> simpa [placeItem] using ih _

/-- A step of one instance leaves the others as they were (R33). -/
theorem stepInstance_of_ne {k j : Nat} {ss ts : List State} (h : stepInstance k ss = .next ts) (hj : j ≠ k) :
    ts[j]? = ss[j]? := by
  induction ss generalizing k j ts with
  | nil => cases k <;> cases h <;> rfl
  | cons s ss ih =>
    cases k with
    | zero =>
      unfold stepInstance at h
      split at h
      · cases h
        cases j with
        | zero => exact absurd rfl hj
        | succ j => rfl
      · cases h
      · cases h
    | succ k =>
      unfold stepInstance at h
      split at h
      · next us hus =>
        cases h
        cases j with
        | zero => rfl
        | succ j => simpa using ih hus (by omega)
      · cases h
      · cases h

end Sys2Proof.Machine
end

