-- ==== Sys2Proof/Tests/Slice0.lean ====
section
/-! SUPPORT. The model's own tests: the smoke tests of the well-formedness checks, decoding of words written out
from 30_encoding.md, one step of each instruction with the results of 95_test_vectors.md, and a witness for every
statement that has hypotheses. -/

namespace Sys2Proof.Tests

open Sys2Proof Sys2Proof.Machine

/-! ### Small states -/

/-- A small reference flash: 32 bytes, pages of 4, sectors of 8 (20_memory.md R55), otherwise the setting of
95_test_vectors.md P2. -/
def chip : RfParams :=
  { size := 32, pageSize := 4, sectorSize := 8, tProg := 2, tErase := 1, mfr := 0xEF, type := 0x40,
    capCode := 0x16, image := { fill := 0x00, cells := [(9, 0x5A), (16, 0xF0), (31, 0xA5)] } }

/-- Right after power-on, the small chip attached. -/
def fresh : State := State.resetWith true chip

/-- After `init`, no session. -/
def ready : State := { fresh with initDone := true, cap := 0x400000 }

/-- A read session at address 8, before its first byte. -/
def reading : State :=
  { ready with
    sess := .read
    cs := true
    trace := [.csa, .xfer 0x03 0, .xfer 0x00 0, .xfer 0x00 0, .xfer 0x08 0]
    rf := { ready.rf with sel := true, txn := [0x03, 0x00, 0x00, 0x08] } }

/-- A program session at address 16 with the data bytes `data` sent. -/
def writing (data : List Byte) : State :=
  { ready with
    sess := .write
    cs := true
    trace := [.csa, .xfer 0x06 0, .csd, .csa, .xfer 0x02 0, .xfer 0x00 0, .xfer 0x00 0, .xfer 0x10 0] ++
      data.map (fun d => .xfer d 0)
    rf := { ready.rf with sel := true, wel := true, txn := [0x02, 0x00, 0x00, 0x10] ++ data } }

/-- The chip busy for `n` more polls. -/
def busyFor (n : Nat) (s : State) : State := { s with rf := { s.rf with busy := n } }

/-- The write-enable latch set. -/
def enabled (s : State) : State := { s with rf := { s.rf with wel := true } }

/-- The program `items`, its first item the next one. -/
def running (items : List Item) (s : State) : State := { s with prog := items, pc := 0 }

/-- A block that has faulted with `F_NO_SESSION` on `read_byte 0`. -/
def broken : State := { ready with fault := { code := 5, word := 0x0000000002 }, resp := some (.fault 5) }

/-- The next state satisfies a check. -/
def nextSatisfies (o : Host.Outcome State Fault Refusal) (f : State → Bool) : Bool :=
  match o with
  | .next t => f t
  | .fault _ => false
  | .refused _ => false

/-- The events of a state's trace without the received bytes. -/
def sent (s : State) : List BusEvent := s.trace.map BusEvent.sent

/-- The events of a list of sent bytes. -/
def sends (l : List Byte) : List BusEvent := l.map (fun b => .xfer b 0)

/-! ### Well-formedness: each check refuses an ill-formed term -/

theorem test_wf_status_needs_one_byte : (Instr.readStatus1 0).wf = false ∧ (Instr.readStatus1 2).wf = false := by
  decide

theorem test_wf_id_needs_three_bytes : (Instr.readId 2).wf = false ∧ (Instr.readId 4).wf = false := by decide

theorem test_wf_params_accepted : chip.wf = true := by decide

theorem test_wf_params_size_zero : { chip with size := 0 }.wf = false := by decide

theorem test_wf_params_size_over : { chip with size := 2 ^ 24 + 8 }.wf = false := by decide

theorem test_wf_params_sector_zero : { chip with sectorSize := 0 }.wf = false := by decide

theorem test_wf_params_page_zero : { chip with pageSize := 0 }.wf = false := by decide

theorem test_wf_params_size_no_multiple : { chip with size := 36 }.wf = false := by decide

theorem test_wf_params_sector_no_multiple : { chip with pageSize := 3 }.wf = false := by decide

theorem test_wf_read_block_needs_one_byte : (Pseudo.readBlock 0 0).wf = false := by decide

/-- R91: an operand that does not fit is a syntax error. -/
theorem test_wf_operand_too_wide :
    assemble "read_start 0x1000000".toList = none ∧ assemble "write_byte 256".toList = none ∧
      assemble "read_byte 2".toList = none := by decide

/-! ### Decoding, by words written out from R80 to R85 (95_test_vectors.md V10 to V25) -/

theorem test_decode_init : decodeCommand 0x0000000000 = .instr .init := by decide
theorem test_decode_read_start : decodeCommand 0xFFFFFE0001 = .instr (.readStart 0xFFFFFE) := by decide
theorem test_decode_read_byte : decodeCommand 0x0000000002 = .instr (.readByte false) ∧
    decodeCommand 0x0000001002 = .instr (.readByte true) := by decide
theorem test_decode_read_stop : decodeCommand 0x0000000003 = .instr .readStop := by decide
theorem test_decode_write_start : decodeCommand 0x0010000004 = .instr (.writeStart 0x001000) := by decide
theorem test_decode_write_byte : decodeCommand 0x0000000FF5 = .instr (.writeByte 0xFF) ∧
    decodeCommand 0x0000000DE5 = .instr (.writeByte 0xDE) := by decide
theorem test_decode_write_stop : decodeCommand 0x0000000006 = .instr .writeStop := by decide
theorem test_decode_write_isbusy : decodeCommand 0x0000000007 = .instr .writeIsbusy := by decide
theorem test_decode_erase : decodeCommand 0x1234560008 = .instr (.erase 0x123456) := by decide
theorem test_decode_getsize : decodeCommand 0x0000000009 = .instr .getsize := by decide
theorem test_decode_wren : decodeWire [0x06] = .instr .wren := by decide
theorem test_decode_page_program :
    decodeWire [0x02, 0x12, 0x34, 0x56, 0xA5, 0x5A] = .instr (.pageProgram 0x123456 [0xA5, 0x5A]) := by decide
theorem test_decode_sector_erase : decodeWire [0x20, 0x80, 0x00, 0x01] = .instr (.sectorErase 0x800001) := by decide
theorem test_decode_read_data :
    decodeWire [0x03, 0x00, 0x00, 0xFE, 0xFF, 0xFF] = .instr (.readData 0x0000FE 2) := by decide
theorem test_decode_read_status : decodeWire [0x05, 0xFF] = .instr (.readStatus1 1) := by decide
theorem test_decode_read_id : decodeWire [0x9F, 0xFF, 0xFF, 0xFF] = .instr (.readId 3) := by decide

/-- V12 to V17, V19, V21, V23: one word for each way to be illegal. -/
theorem test_decode_illegal :
    [(0x000000000A : CmdWord), 0x000000000F, 0x0000002000, 0x0000008007, 0x0000000010, 0x0000010000, 0x0000001001,
      0x0000000012, 0x0000001005].all (fun w => decodeCommand w == .reject .illegalCommand) = true := by decide

/-- R84, R65, R89: no opcode, an opcode outside the six, a length not allowed, a byte that is no
placeholder. -/
theorem test_decode_wire_rejected :
    decodeWire [] = .reject .wireEmpty ∧ decodeWire [0x0B] = .reject .wireOpcode ∧
      decodeWire [0x06, 0xFF] = .reject .wireLength ∧ decodeWire [0x20, 0, 0] = .reject .wireLength ∧
      decodeWire [0x03, 0, 0] = .reject .wireLength ∧ decodeWire [0x02, 0, 0] = .reject .wireLength ∧
      decodeWire [0x05, 0x00] = .reject .wirePlaceholder := by decide

/-- V26 to V30: the address bytes. -/
theorem test_address_bytes :
    addrBytes 0xFFFFFF = [0xFF, 0xFF, 0xFF] ∧ addrBytes 0x123456 = [0x12, 0x34, 0x56] ∧
      addrBytes 0x800001 = [0x80, 0x00, 0x01] ∧ addrBytes 0x0000FE = [0x00, 0x00, 0xFE] := by decide

/-- spec/opcode_table.json: the bits of a CMD40 row, of a one-byte command row and of a WIRE8 row. -/
theorem test_table_word :
    decodeTableWord 40 0xFFFFFE0001 = some (.readStart 0xFFFFFE) ∧ decodeTableWord 40 0x0000000006 = some .writeStop ∧
      decodeTableWord 8 0x06 = some .wren ∧ decodeTableWord 8 0x9F = some (.readId 3) ∧
      decodeTableWord 40 0x000000000A = none := by decide

/-! ### One step of each instruction (V31 to V71) -/

/-- V1c: the capacity of `(0xEF, 0x16)`; the trace of R101. -/
theorem test_init_sets_capacity :
    nextSatisfies (exec .init fresh) (fun t =>
      t.cap == 0x400000 && t.initDone && t.resp == some .noValue && t.sess == .idle && !t.cs) = true := by decide

theorem test_init_trace :
    nextSatisfies (exec .init fresh) (fun t =>
      sent t == [.tinit, .csa] ++ sends [0x9F, 0xFF, 0xFF, 0xFF] ++ [.csd]) = true := by decide

/-- V50. -/
theorem test_getsize_in_session :
    nextSatisfies (exec .getsize reading) (fun t =>
      t.resp == some (.size 0x400000) && t.trace == reading.trace && t.sess == .read && t.cs) = true := by decide

/-- V41. -/
theorem test_read_start_trace :
    nextSatisfies (exec (.readStart 0x012345) ready) (fun t =>
      sent t == .csa :: sends [0x03, 0x01, 0x23, 0x45] && t.sess == .read && t.cs) = true := by decide

/-- V71: the chip busy. -/
theorem test_read_start_while_busy :
    nextSatisfies (exec (.readStart 0) (busyFor 1 ready)) (fun t =>
      t.rf.fault == some .busy && t.resp == some .noValue && t.sess == .read) = true := by decide

/-- The first byte of a read session, R62: the array at the address, 0x00 at 8. -/
theorem test_read_byte_from_array :
    nextSatisfies (exec (.readByte false) reading) (fun t => t.resp == some (.byte 0x00) && t.sess == .read) = true := by
  decide

/-- V43, and R43: the second byte is that of the next address, 0x5A at 9; `is_last` does not close. -/
theorem test_read_byte_next_address :
    nextSatisfies (exec (.readByte true) { reading with rf := { reading.rf with txn := reading.rf.txn ++ [0xFF] } })
      (fun t => t.resp == some (.byte 0x5A) && t.sess == .read && t.cs) = true := by decide

/-- V44. -/
theorem test_read_stop_closes :
    nextSatisfies (exec .readStop reading) (fun t =>
      t.trace == reading.trace ++ [.csd] && t.sess == .idle && !t.cs && !t.rf.sel) = true := by decide

/-- V45. -/
theorem test_write_start_trace :
    nextSatisfies (exec (.writeStart 0x001000) ready) (fun t =>
      sent t == .csa :: sends [0x06] ++ [.csd, .csa] ++ sends [0x02, 0x00, 0x10, 0x00] && t.sess == .write && t.cs &&
        t.rf.wel) = true := by decide

/-- V46. -/
theorem test_write_byte_trace :
    nextSatisfies (exec (.writeByte 0xA5) (writing [])) (fun t =>
      sent t == sent (writing []) ++ sends [0xA5] && t.resp == some .noValue && t.sess == .write &&
        t.flashByte 16 == 0xF0) = true := by decide

/-- V67: the AND. -/
theorem test_write_stop_ands :
    nextSatisfies (exec .writeStop (writing [0x3C])) (fun t =>
      t.flashByte 16 == 0x30 && t.flashByte 17 == 0x00 && t.rf.busy == 2 && !t.rf.wel && t.sess == .idle) = true := by
  decide

/-- V52: no data byte programs nothing, and the chip is busy all the same. -/
theorem test_write_stop_without_data :
    nextSatisfies (exec .writeStop (writing [])) (fun t =>
      t.rf.mem == [] && !t.rf.wel && t.rf.busy == 2) = true := by decide

/-- V48, V38: a busy chip. -/
theorem test_write_isbusy_busy :
    nextSatisfies (exec .writeIsbusy (busyFor 2 ready)) (fun t =>
      t.resp == some (.bool true) && t.rf.busy == 1 && t.trace.getLast? == some .csd && !t.cs) = true := by decide

/-- V36: a ready chip; the status byte received is 0x00. -/
theorem test_write_isbusy_ready :
    nextSatisfies (exec .writeIsbusy ready) (fun t =>
      t.resp == some (.bool false) && t.trace.drop 2 == [.xfer 0xFF 0x00, .csd]) = true := by decide

/-- V49. -/
theorem test_erase_trace :
    nextSatisfies (exec (.erase 0x000010) ready) (fun t =>
      sent t == .csa :: sends [0x06] ++ [.csd, .csa] ++ sends [0x20, 0x00, 0x00, 0x10] ++ [.csd] && t.sess == .idle &&
        t.flashByte 16 == 0xFF && t.flashByte 23 == 0xFF && t.flashByte 24 == 0x00 && t.flashByte 15 == 0x00 &&
        t.rf.busy == 1) = true := by decide

/-- V69: an unaligned address is the chip's fault, and the block reports nothing. -/
theorem test_erase_unaligned :
    nextSatisfies (exec (.erase 0x000011) ready) (fun t =>
      t.rf.fault == some .align && t.resp == some .noValue && t.rf.mem == [] && t.fault.code == 0) = true := by decide

/-- R66. -/
theorem test_wren_sets_latch :
    nextSatisfies (exec .wren ready) (fun t => t.rf.wel && t.trace == [] && t.wireLog.length == 3) = true := by decide

/-- V68 scaled to a page of 4: the fifth byte wraps to the start of the page. -/
theorem test_page_program_wraps :
    nextSatisfies
      (exec (.pageProgram 4 [1, 2, 3, 4, 5]) (enabled { ready with params := { chip with image := ⟨0xFF, []⟩ } }))
      (fun t => t.rf.mem == [(4, 5), (5, 2), (6, 3), (7, 4)]) = true := by decide

/-- R67: ignored while the latch is clear. -/
theorem test_page_program_disabled :
    nextSatisfies (exec (.pageProgram 16 [0x3C]) ready) (fun t =>
      t.rf.mem == [] && t.rf.busy == 0 && t.rf.fault == none) = true := by decide

/-- R68: the range check comes before the alignment check. -/
theorem test_sector_erase_out_of_range :
    nextSatisfies (exec (.sectorErase 33) (enabled ready)) (fun t => t.rf.fault == some .range) = true := by decide

/-- V40: an erased sector stays erased, the latch clears, the chip goes busy. -/
theorem test_sector_erase_idempotent :
    nextSatisfies (exec (.sectorErase 8) (enabled { ready with params := { chip with image := ⟨0xFF, []⟩ } }))
      (fun t => t.rf.mem == [] && !t.rf.wel && t.rf.busy == 1) = true := by decide

/-- V70: the last byte of the chip, then `RF_RANGE`. -/
theorem test_read_data_to_the_end :
    nextSatisfies (exec (.readData 31 1) ready) (fun t =>
      t.wireLog.drop 5 == [.xfer 0xFF 0xA5, .csd] && t.rf.fault == none) = true := by decide

theorem test_read_data_past_the_end :
    nextSatisfies (exec (.readData 31 2) ready) (fun t => t.rf.fault == some .range) = true := by decide

/-- R61, R69. -/
theorem test_read_status_counts_down :
    nextSatisfies (exec (.readStatus1 1) (busyFor 2 ready)) (fun t =>
      t.wireLog.drop 2 == [.xfer 0xFF 0x01, .csd] && t.rf.busy == 1) = true := by decide

/-- R60. -/
theorem test_read_id_reply :
    nextSatisfies (exec (.readId 3) ready) (fun t =>
      t.wireLog.drop 2 == [.xfer 0xFF 0xEF, .xfer 0xFF 0x40, .xfer 0xFF 0x16, .csd]) = true := by decide

/-! ### Faults and their priority (V53 to V66) -/

/-- The fault register after an instruction. -/
def faultOf (o : Host.Outcome State Fault Refusal) : Option FaultReg :=
  match o with
  | .next t => some t.fault
  | .fault _ => none
  | .refused _ => none

theorem test_faults_before_init :
    faultOf (exec .getsize fresh) = some ⟨2, 0x0000000009⟩ ∧
      faultOf (runEncoded (.command 0x000000000A) fresh) = some ⟨1, 0x000000000A⟩ ∧
      faultOf (exec .readStop fresh) = some ⟨2, 0x0000000003⟩ := by decide

theorem test_faults_after_init :
    faultOf (exec .init ready) = some ⟨3, 0x0000000000⟩ ∧ faultOf (exec .init reading) = some ⟨3, 0x0000000000⟩ ∧
      faultOf (exec (.readStart 0) reading) = some ⟨4, 0x0000000001⟩ ∧
      faultOf (exec (.erase 0) (writing [])) = some ⟨4, 0x0000000008⟩ ∧
      faultOf (exec .writeIsbusy reading) = some ⟨4, 0x0000000007⟩ := by decide

theorem test_faults_of_sessions :
    faultOf (exec (.readByte false) ready) = some ⟨5, 0x0000000002⟩ ∧
      faultOf (exec .writeStop ready) = some ⟨5, 0x0000000006⟩ ∧
      faultOf (exec (.readByte false) (writing [])) = some ⟨6, 0x0000000002⟩ ∧
      faultOf (exec (.writeByte 0) reading) = some ⟨6, 0x0000000005⟩ ∧
      faultOf (runEncoded (.command 0x0000001005) (writing [])) = some ⟨1, 0x0000001005⟩ := by decide

/-- V66. -/
theorem test_faulted_takes_no_step : faultOf (exec .getsize broken) = none ∧ faultOf (step broken) = none := by decide

/-! ### The step, reset and text -/

/-- R93: a step runs the item at the position and moves on. -/
theorem test_step_runs_fetched_word :
    nextSatisfies (step (ready.withFetchWord 40 0x0000000009)) (fun t =>
      t.resp == some (.size 0x400000) && t.pc == 1) = true := by decide

/-- P5: the position stays at a faulting item. -/
theorem test_step_stays_at_fault :
    nextSatisfies (step (fresh.withFetchWord 40 0x0000000009)) (fun t =>
      t.pc == 0 && t.fault == ⟨2, 0x0000000009⟩ && t.trace == []) = true := by decide

/-- The first instruction from the reset state itself, a command row and a wire row. -/
theorem test_step_from_reset :
    faultOf (step (State.reset.withFetchWord 40 0x0000000003)) = some ⟨2, 0x0000000003⟩ ∧
      faultOf (step (State.reset.withFetchWord 8 0x06)) = some ⟨0, 0⟩ := by decide

/-- R231: a reset in a write session commits the program. -/
theorem test_reset_commits_program :
    nextSatisfies (step { writing [0x3C] with resetReq := true }) (fun t =>
      t.flashByte 16 == 0x30 && !t.cs && t.sess == .idle && !t.initDone && t.trace.getLast? == some .csd) = true := by
  decide

/-- R91, R92: comments, numbers in both bases, the short `read_byte`, a pseudo-instruction. -/
theorem test_assemble :
    assemble "erase 0x001000 ; a sector\nread_byte\nread_block 16, 1".toList = some
      [.issue (.command 0x0010000008), .issue (.command 0x0000000002), .issue (.command 0x0000100001),
        .issue (.command 0x0000001002), .issue (.command 0x0000000003)] := by decide

/-- R33: instances share nothing. -/
theorem test_instances_share_nothing :
    (match stepInstance 1 [reading, ready.withFetchWord 40 0x0000000009] with
      | .next [a, b] => a == reading && b.resp == some (.size 0x400000)
      | _ => false) = true := by decide

/-! ### Witnesses: for every statement with hypotheses, a state and operands that meet them together -/

/-- DecodeEncodeRoundTrip: one well-formed instruction of each family. -/
theorem test_witness_round_trip :
    (Instr.readStart 0xFFFFFF).wf = true ∧ (Instr.writeByte 0xFF).wf = true ∧ (Instr.erase 0).wf = true ∧
      Instr.getsize.wf = true ∧ (Instr.pageProgram 0x123456 [0, 0xFF]).wf = true ∧
      (Instr.readStatus1 1).wf = true ∧ (Instr.readId 3).wf = true := by decide

/-- DecodedCommandWordReencodes: every operand bit set. -/
theorem test_witness_reencodes :
    decodeCommand 0xFFFFFF0008 = .instr (.erase 0xFFFFFF) ∧ decodeCommand 0x0000001002 = .instr (.readByte true) := by
  decide

/-- IllegalWordsExactly: each way to be illegal alone, and a word that is none of them. -/
theorem test_witness_illegal :
    10 ≤ (opField 0x000000000A).toNat ∧ rsvField 0x0000002000 ≠ 0 ∧
      (lastField 0x0000001001 = true ∧ opField 0x0000001001 ≠ 2) ∧
      (dataField 0x0000000012 ≠ 0 ∧ opField 0x0000000012 ≠ 5) ∧
      (addrField 0x0000010000 ≠ 0 ∧ opField 0x0000010000 ≠ 1 ∧ opField 0x0000010000 ≠ 4 ∧
        opField 0x0000010000 ≠ 8) ∧
      decodeCommand 0x0000001002 ≠ .reject .illegalCommand := by decide

/-- StepRunsDecodedItem: a command, and a wire transaction of another bus master. -/
theorem test_witness_step_runs :
    let s := running [.issue (.command 0x0000000009), .issue (.wire [0x06])] ready
    (s.resetReq = false ∧ recordedFault s = none ∧ s.prog[s.pc]? = some (.issue (.command 0x0000000009)) ∧
      decode (.command 0x0000000009) = .instr .getsize) ∧
    (recordedFault { s with pc := 1 } = none ∧ s.prog[1]? = some (.issue (.wire [0x06])) ∧
      decode (.wire [0x06]) = .instr .wren) := by decide

/-- StepIllegalWordFaults. -/
theorem test_witness_step_illegal :
    let s := running [.issue (.command 0x000000000A)] fresh
    s.resetReq = false ∧ recordedFault s = none ∧ s.prog[s.pc]? = some (.issue (.command 0x000000000A)) ∧
      decodeCommand 0x000000000A = .reject .illegalCommand := by decide

/-- StepWaitReadyPolls: a ready chip, a busy chip, and a session that makes the poll fault. -/
theorem test_witness_wait_ready :
    ((running [.waitReady] ready).resetReq = false ∧ recordedFault (running [.waitReady] ready) = none) ∧
      (∃ t, exec .writeIsbusy (running [.waitReady] ready) = .next t ∧ t.resp = some (.bool false)) ∧
      (∃ t, exec .writeIsbusy (running [.waitReady] (busyFor 1 ready)) = .next t ∧ t.resp = some (.bool true)) ∧
      (recordedFault (running [.waitReady] reading) = none ∧
        ∃ t, exec .writeIsbusy (running [.waitReady] reading) = .next t ∧ t.fault.code = 4) :=
  ⟨by decide, ⟨_, rfl, by decide⟩, ⟨_, rfl, by decide⟩, by decide, ⟨_, rfl, by decide⟩⟩

/-- FaultedBlockTakesNoStep. -/
theorem test_witness_faulted_block :
    broken.fault.code ≠ 0 ∧ broken.resetReq = false ∧ encode .init = .command 0x0000000000 ∧
      decodeCommand 0x000000000F = .reject .illegalCommand := by decide

/-- EnvironmentFaultStopsRun. -/
theorem test_witness_environment_fault :
    let s := { ready with rf := { ready.rf with fault := some .busy } }
    s.resetReq = false ∧ s.fault.code = 0 ∧ s.attached = true ∧ s.rf.fault = some .busy := by decide

/-- InitCompletes, the first clause of InitOnceOrElseFaults, InitThenGetsize. -/
theorem test_witness_init :
    fresh.fault.code = 0 ∧ fresh.initDone = false ∧ fresh.flashUp ∧ fresh.rf.busy = 0 ∧
      encode .readStop = .command 0x0000000003 ∧ Instr.readStop ≠ .init := by decide

/-- The second clause of InitOnceOrElseFaults, in and out of a session. -/
theorem test_witness_reinit : ready.accepts ∧ reading.accepts := by decide

/-- GetsizeCompletes, in every session. -/
theorem test_witness_getsize : ready.accepts ∧ reading.accepts ∧ (writing []).accepts := by decide

/-- ReadStartCompletes, WriteStartCompletes, WriteIsbusyCompletes, EraseCompletes, ReadSessionTrace,
ProgramSessionTrace. -/
theorem test_witness_opens : ready.acceptsOpen ∧ (busyFor 2 ready).acceptsOpen := by decide

/-- The attached reference flash of `reading` has seen its session. -/
theorem test_witness_bus_reading : BusInv reading :=
  fun _ _ => ⟨rfl, fun _ => ⟨8, 0, rfl⟩, fun h => by cases h⟩

/-- The same in a program session. -/
theorem test_witness_bus_writing : BusInv (writing [0x3C]) :=
  fun _ _ => ⟨rfl, fun h => (by cases h), fun _ => ⟨16, [0x3C], rfl, rfl, rfl⟩⟩

/-- ReadByteCompletes, ReadStopCompletes. -/
theorem test_witness_reading : reading.accepts ∧ reading.sess = .read ∧ BusInv reading :=
  ⟨by decide, rfl, test_witness_bus_reading⟩

/-- WriteByteCompletes, WriteStopCompletes. -/
theorem test_witness_writing :
    (writing [0x3C]).accepts ∧ (writing [0x3C]).sess = .write ∧ BusInv (writing [0x3C]) :=
  ⟨by decide, rfl, test_witness_bus_writing⟩

/-- WrenCompletes, ReadStatusCompletes, ReadIdCompletes. -/
theorem test_witness_wire_ready : ready.attached = true ∧ ready.rf.fault = none ∧ ready.rf.busy = 0 := by decide

/-- PageProgramCompletes: the latch set and clear, the last address of the chip and the first beyond it. -/
theorem test_witness_page_program :
    (enabled ready).attached = true ∧ (enabled ready).rf.fault = none ∧ (enabled ready).rf.busy = 0 ∧
      (31 : Addr).toNat < (enabled ready).params.size ∧ (enabled ready).params.size ≤ (32 : Addr).toNat ∧
      (enabled ready).rf.wel = true ∧ ready.rf.wel = false ∧
      Memory.wf (enabled ready).params.image (enabled ready).rf.mem ∧ 3 < (enabled ready).params.pageSize := by
  decide

/-- SectorEraseCompletes: aligned and not, in the chip and beyond it. -/
theorem test_witness_sector_erase :
    (enabled ready).params.size ≤ (32 : Addr).toNat ∧
      ((31 : Addr).toNat < (enabled ready).params.size ∧ (31 : Addr).toNat % (enabled ready).params.sectorSize ≠ 0) ∧
      ((24 : Addr).toNat < (enabled ready).params.size ∧ (24 : Addr).toNat % (enabled ready).params.sectorSize = 0) ∧
      (enabled ready).rf.wel = true ∧ ready.rf.wel = false ∧ 7 < (enabled ready).params.sectorSize := by decide

/-- ReadDataCompletes: up to the last byte of the chip, and one beyond it. -/
theorem test_witness_read_data :
    (31 : Addr).toNat + 1 ≤ ready.params.size ∧ 0 < 2 ∧ ready.params.size < (31 : Addr).toNat + 2 := by decide

/-- OpenWhileOpenFaults. -/
theorem test_witness_open_while_open :
    reading.accepts ∧ reading.sess ≠ .idle ∧ (writing []).accepts ∧ (writing []).sess ≠ .idle := by decide

/-- ByteOrStopOutsideItsSessionFaults: no session, and the other kind of session. -/
theorem test_witness_byte_or_stop :
    ready.accepts ∧ ready.sess ≠ .read ∧ ready.sess ≠ .write ∧ (writing []).accepts ∧ (writing []).sess ≠ .read ∧
      reading.accepts ∧ reading.sess ≠ .write := by decide

/-- PowerOnResetValues. -/
theorem test_witness_power_on : fresh = State.resetWith true chip := rfl

/-- BlockResetEffect: with chip-select asserted, with it deasserted, and with a fault standing. -/
theorem test_witness_block_reset :
    ({ reading with resetReq := true } : State).resetReq = true ∧ reading.cs = true ∧
      ({ broken with resetReq := true } : State).resetReq = true ∧ broken.cs = false := by decide

/-- BlockResetEffect, its clause about a read session: the request, the session and `BusInv` together. -/
theorem test_witness_reset_reading :
    let s := { reading with resetReq := true }
    s.resetReq = true ∧ BusInv s ∧ s.sess = .read :=
  ⟨rfl, fun _ _ => ⟨rfl, fun _ => ⟨8, 0, rfl⟩, fun h => by cases h⟩, rfl⟩

/-- ResetCommitsOpenProgram: one byte more than the page, which wraps. -/
theorem test_witness_reset_commits_wrap :
    let s := { writing [1, 2, 3, 4, 5] with resetReq := true }
    s.resetReq = true ∧ s.sess = .write ∧ s.cs = true ∧ s.flashUp ∧ Memory.wf s.params.image s.rf.mem ∧
      s.rf.txn = wireBytesOf (.pageProgram 16 [1, 2, 3, 4, 5]) ∧ s.rf.wel = true ∧
      (16 : Addr).toNat < s.params.size ∧ 3 < s.params.pageSize := by decide

/-- ResetCommitsOpenProgram, its clause within the page: the page filled to its last byte. -/
theorem test_witness_reset_commits :
    let s := { writing [1, 2, 3, 4] with resetReq := true }
    s.resetReq = true ∧ s.sess = .write ∧ s.cs = true ∧ s.flashUp ∧ Memory.wf s.params.image s.rf.mem ∧
      s.rf.txn = wireBytesOf (.pageProgram 16 [1, 2, 3, 4]) ∧ s.rf.wel = true ∧ (16 : Addr).toNat < s.params.size ∧
      (16 : Addr).toNat % s.params.pageSize + [1, 2, 3, 4].length ≤ s.params.pageSize := by decide

/-- CapacityDecoderTable: the bytes beside the table (V3, V9). -/
theorem test_witness_capacity :
    (0xEE : Byte) ≠ 0xEF ∧ (0x13 : Byte) ∉ [(0x14 : Byte), 0x15, 0x16, 0x17, 0x18] ∧
      (0x19 : Byte) ∉ [(0x14 : Byte), 0x15, 0x16, 0x17, 0x18] := by decide

/-- StatusBusyIsBitZero (V34, V35c). -/
theorem test_witness_status : statusBusy 0x03 = true ∧ statusBusy 0xFE = false := by decide

/-- DeviceIdReply: each index. -/
theorem test_witness_device_id :
    ({ Rf.reset with txn := [0x9F] } : Rf).fault = none ∧ ([] : List Byte).length = 0 ∧ [(0xFF : Byte)].length = 1 ∧
      [(0xFF : Byte), 0xFF].length = 2 ∧ 3 ≤ [(0xFF : Byte), 0xFF, 0xFF].length := by decide

/-- WriteEnableSetsLatch. -/
theorem test_witness_write_enable :
    ({ Rf.reset with sel := true, txn := [0x06] } : Rf).fault = none ∧
      ({ Rf.reset with sel := true, txn := [0x06] } : Rf).txn = [0x06] := by decide

/-- FaultedFlashIsFrozen. -/
theorem test_witness_faulted_flash : ({ Rf.reset with fault := some .opcode } : Rf).fault = some .opcode := by decide

/-- OpcodeByteFaults: busy, an unknown opcode, a known one. -/
theorem test_witness_opcode_byte :
    ({ Rf.reset with busy := 1 } : Rf).fault = none ∧ ({ Rf.reset with busy := 1 } : Rf).txn = [] ∧
      (({ Rf.reset with busy := 1 } : Rf).busy > 0 ∧ (0x06 : Byte) ≠ 0x05) ∧
      (0x0B : Byte) ∉ [(0x06 : Byte), 0x02, 0x20, 0x03, 0x05, 0x9F] ∧
      (0x03 : Byte) ∈ [(0x06 : Byte), 0x02, 0x20, 0x03, 0x05, 0x9F] := by decide

/-- TransactionLengthFaults: each way to be too short or too long. -/
theorem test_witness_length :
    (Rf.deselect chip { Rf.reset with txn := [0x06, 0xFF] }).fault = some .trunc ∧
      (Rf.deselect chip { Rf.reset with txn := [0x20, 0, 0] }).fault = some .trunc ∧
      (Rf.deselect chip { Rf.reset with txn := [0x20, 0, 0, 0, 0] }).fault = some .trunc ∧
      (Rf.deselect chip { Rf.reset with txn := [0x03, 0, 0] }).fault = some .trunc ∧
      (Rf.deselect chip { Rf.reset with txn := [0x02, 0, 0] }).fault = some .trunc ∧
      (Rf.deselect chip { Rf.reset with txn := [0x02, 0, 0, 0] }).fault = none := by decide

/-- LaterProgramBytesWin: an offset that two bytes reach, and one that none reaches. -/
theorem test_witness_later_bytes :
    (0 < 4 ∧ (0 + 4) % 4 = 0 ∧ 4 < [(1 : Byte), 2, 3, 4, 5].length) ∧
      (∀ j, j < [(1 : Byte), 2].length → (0 + j) % 4 ≠ 3) := by decide

/-- StepKeepsInv: the invariant holds with a session open, and with a fault standing. -/
theorem test_witness_state_inv_reading : StateInv reading :=
  ⟨by decide, by decide, by decide, by decide, by decide, by decide, by decide, by decide, by decide, by decide,
    by decide⟩

theorem test_witness_state_inv_writing : StateInv (writing [0x3C]) :=
  ⟨by decide, by decide, by decide, by decide, by decide, by decide, by decide, by decide, by decide, by decide,
    by decide⟩

theorem test_witness_state_inv_broken : StateInv broken :=
  ⟨by decide, by decide, by decide, by decide, by decide, by decide, by decide, by decide, by decide, by decide,
    by decide⟩

theorem test_witness_state_inv_ready : StateInv ready :=
  ⟨by decide, by decide, by decide, by decide, by decide, by decide, by decide, by decide, by decide, by decide,
    by decide⟩

/-- StepKeepsInv, StepKeepsTraceProtocol, TraceOnlyGrows: a step of such a state. -/
theorem test_witness_step_trace :
    StateInv reading ∧ TraceInv reading ∧
      ∃ t, step { reading with resetReq := true } = .next t ∧ step reading = .next reading ∧
        t.trace.getLast? = some .csd :=
  ⟨test_witness_state_inv_reading, ⟨⟨some [0x03, 0x00, 0x00, 0x08], false⟩, by decide, ⟨8, 0, by decide⟩⟩, _, rfl, rfl,
    by decide⟩

theorem test_witness_trace_writing : TraceInv (writing [0x3C]) :=
  ⟨⟨some [0x02, 0x00, 0x00, 0x10, 0x3C], true⟩, by decide, ⟨16, [0x3C], by decide⟩⟩

/-- StepKeepsBusInv, BlockNeverMisusesTheWire: a step of the block in a session, and a step of another bus master
with chip-select deasserted. -/
theorem test_witness_step_bus :
    (BusInv reading ∧ reading.blockOnly ∧ step reading = .next reading) ∧
      (BusInv ready ∧ (running [.issue (.wire [0x06])] ready).cs = false ∧
        ∃ t, step (running [.issue (.wire [0x06])] ready) = .next t) :=
  ⟨⟨test_witness_bus_reading, fun tx h => (by cases h), rfl⟩,
    ⟨fun _ _ => ⟨rfl, fun h => (by cases h), fun h => (by cases h)⟩, rfl, _, rfl⟩⟩

/-- BlockNeverMisusesTheWire: a flash that has recorded those faults before. -/
theorem test_witness_misuse :
    ({ Rf.reset with fault := some .opcode } : Rf).fault = some .opcode ∧
      ({ Rf.reset with fault := some .trunc } : Rf).fault = some .trunc := by decide

/-- OnlyTheirCommandsWriteCapAndSession: an opening and a closing. -/
theorem test_witness_session_writes :
    (∃ t, exec (.readStart 0) ready = .next t ∧ t.sess ≠ ready.sess) ∧
      (∃ t, exec .writeStop (writing []) = .next t ∧ t.sess ≠ (writing []).sess) :=
  ⟨⟨_, rfl, by decide⟩, ⟨_, rfl, by decide⟩⟩

/-- EnvironmentOnlyFillsReceivedBytes: two environments, one with the reference flash busy, one without it. -/
theorem test_witness_environments :
    let u := { busyFor 1 reading with attached := false, draws := 7 }
    u.initDone = reading.initDone ∧ u.sess = reading.sess ∧ u.cs = reading.cs ∧ u.fault = reading.fault ∧
      u.trace.map BusEvent.sent = reading.trace.map BusEvent.sent ∧ u ≠ reading := by decide

/-- LastFlagsDoNotMatter. -/
theorem test_witness_last_flags : [false, true].length = [true, false].length := by decide

/-- ReadSessionReturnsFlashBytes: up to the last byte of the chip. -/
theorem test_witness_read_session :
    ready.acceptsOpen ∧ ready.flashUp ∧ ready.rf.busy = 0 ∧
      (30 : Addr).toNat + [false, true].length ≤ ready.params.size := by decide

/-- ProgramSessionWritesFlash, whose first clause takes any data: the last byte of the chip's last page, the
first and last offset of the page, data up to the end of a page, and data one byte past it. -/
theorem test_witness_program_session :
    ready.acceptsOpen ∧ ready.flashUp ∧ ready.rf.busy = 0 ∧ Memory.wf ready.params.image ready.rf.mem ∧
      (31 : Addr).toNat < ready.params.size ∧ (18 : Addr).toNat < ready.params.size ∧
      0 < ready.params.pageSize ∧ 3 < ready.params.pageSize ∧
      ready.params.pageSize < (18 : Addr).toNat % ready.params.pageSize + [(1 : Byte), 2, 3].length ∧
      (18 : Addr).toNat % ready.params.pageSize + [(1 : Byte), 2].length ≤ ready.params.pageSize := by decide

/-- WaitReadyEnds. -/
theorem test_witness_wait_ready_ends :
    let s := running [.waitReady] (busyFor 2 ready)
    s.acceptsOpen ∧ s.flashUp ∧ s.resetReq = false ∧ s.prog[s.pc]? = some .waitReady ∧ 1 < s.rf.busy := by decide

/-- ErasedSectorReadsAllOnes: the whole sector read. -/
theorem test_witness_erased_sector :
    ready.acceptsOpen ∧ ready.flashUp ∧ ready.rf.busy = 0 ∧ Memory.wf ready.params.image ready.rf.mem ∧
      (24 : Addr).toNat < ready.params.size ∧ (24 : Addr).toNat % ready.params.sectorSize = 0 ∧
      (List.replicate 8 false).length ≤ ready.params.sectorSize := by decide

/-- EraseProgramReadRoundTrip: the last bytes of a sector. -/
theorem test_witness_flash_round_trip :
    (16 : Addr).toNat < ready.params.size ∧ (16 : Addr).toNat % ready.params.sectorSize = 0 ∧
      (16 : Addr).toNat ≤ (22 : Addr).toNat ∧ (22 : Addr).toNat < (16 : Addr).toNat + ready.params.sectorSize ∧
      (22 : Addr).toNat % ready.params.pageSize + [(0xDE : Byte), 0xAD].length ≤ ready.params.pageSize ∧
      ready.acceptsOpen ∧ ready.flashUp ∧ ready.rf.busy = 0 ∧ Memory.wf ready.params.image ready.rf.mem := by decide

/-- EraseOfErasedSectorIsIdempotent. -/
theorem test_witness_erased_again :
    let s := { ready with params := { chip with image := ⟨0xFF, []⟩ } }
    s.acceptsOpen ∧ s.flashUp ∧ s.rf.busy = 0 ∧ Memory.wf s.params.image s.rf.mem ∧ (8 : Addr).toNat < s.params.size ∧
      (8 : Addr).toNat % s.params.sectorSize = 0 ∧
      ∀ k, k < s.params.sectorSize → s.flashByte ((8 : Addr).toNat + k) = 0xFF := by decide

/-- AssembledItemsDecode: a text that assembles to a command word, and operands at the first value too wide. -/
theorem test_witness_assembled :
    (∃ items, assemble "program 0xFFFFFF, 0xFF, 1".toList = some items ∧
      Item.issue (.command 0xFFFFFF0004) ∈ items) ∧ 2 ^ 24 ≤ 0x1000000 ∧
      2 ^ 8 ≤ 256 ∧ 256 ∈ [0xFF, 256] ∧ 2 ≤ 2 :=
  ⟨⟨_, rfl, by decide⟩, by decide, by decide, by decide, by decide⟩

end Sys2Proof.Tests
end

section
/-! PROOFS. What the wire decoder reads of an encoded transaction (R84, R85), and which closed transactions
the bus protocol accepts (R140). -/

namespace Sys2Proof

/-- The placeholder bytes of a transaction decode to their number (R89). -/
theorem placeholders_replicate (n : Nat) (build : Nat → Instr) :
    placeholders (List.replicate n placeholder) build = .instr (build n) := by
  simp [placeholders]

/-- The bytes sent in a wire transaction decode to that transaction. -/
theorem decodeWire_of_encode {i : Instr} {bs : List Byte} (h : encode i = .wire bs) :
    decodeWire bs = .instr i := by
  cases i with
  | wren => cases h; rfl
  | pageProgram a d => cases h; simp [decodeWire, addrBytes, addrOfBytes_addrBytes]
  | sectorErase a => cases h; simp [decodeWire, addrBytes, addrOfBytes_addrBytes]
  | readData a n => cases h; simp [decodeWire, addrBytes, addrOfBytes_addrBytes, placeholders_replicate]
  | readStatus1 n => cases h; simp [decodeWire, placeholders_replicate]
  | readId n => cases h; simp [decodeWire, placeholders_replicate]
  | init | readStart | readByte | readStop | writeStart | writeByte | writeStop | writeIsbusy | erase
  | getsize => cases h

namespace Machine

/-- A well-formed wire transaction may be closed when a write enable stands before it exactly if it is a page
program or a sector erase. -/
theorem closeOk_of_encode {i : Instr} {bs : List Byte} {wren : Bool} (h : encode i = .wire bs)
    (hwf : i.wf = true) (hw : (bs.head? == some 0x02 || bs.head? == some 0x20) = wren) :
    closeOk wren bs = true := by
  subst hw
  simp [closeOk, decodeWire_of_encode h, hwf]

theorem closeOk_wren : closeOk false [0x06] = true := closeOk_of_encode (i := .wren) rfl rfl rfl

theorem closeOk_readId : closeOk false [0x9F, 0xFF, 0xFF, 0xFF] = true :=
  closeOk_of_encode (i := .readId 3) rfl rfl rfl

theorem closeOk_readStatus1 : closeOk false [0x05, 0xFF] = true :=
  closeOk_of_encode (i := .readStatus1 1) rfl rfl rfl

theorem closeOk_sectorErase (a : Addr) : closeOk true (0x20 :: addrBytes a) = true :=
  closeOk_of_encode (i := .sectorErase a) rfl rfl rfl

theorem closeOk_readData (a : Addr) (n : Nat) : closeOk false (wireBytesOf (.readData a n)) = true :=
  closeOk_of_encode (i := .readData a n) rfl rfl rfl

theorem closeOk_pageProgram (a : Addr) (d : List Byte) : closeOk true (wireBytesOf (.pageProgram a d)) = true :=
  closeOk_of_encode (i := .pageProgram a d) rfl rfl rfl

/-- One more placeholder byte continues a Read Data transaction (R121). -/
theorem wireBytesOf_readData_succ (a : Addr) (n : Nat) :
    wireBytesOf (.readData a (n + 1)) = wireBytesOf (.readData a n) ++ [0xFF] := by
  simp [wireBytesOf, encode, placeholder, List.replicate_succ']

/-- One more data byte continues a Page Program transaction (R142). -/
theorem wireBytesOf_pageProgram_concat (a : Addr) (d : List Byte) (b : Byte) :
    wireBytesOf (.pageProgram a (d ++ [b])) = wireBytesOf (.pageProgram a d) ++ [b] := by
  simp [wireBytesOf, encode]

end Machine
end Sys2Proof
end

section
/-! PROOFS. The reader of the trace, rule by rule: appended events, a run of exchanges, a transaction opened,
a whole transaction (R9). -/

namespace Sys2Proof.Machine

theorem scanFrom_cons (c : Scan) (e : BusEvent) (es : List BusEvent) :
    scanFrom c (e :: es) = (scanStep c e).bind fun c' => scanFrom c' es := by
  rw [scanFrom]
  cases scanStep c e <;> rfl

theorem scanFrom_append {c c' : Scan} {xs : List BusEvent} (h : scanFrom c xs = some c') (ys : List BusEvent) :
    scanFrom c (xs ++ ys) = scanFrom c' ys := by
  induction xs generalizing c with
  | nil => cases h; rfl
  | cons x xs ih =>
    rw [scanFrom_cons] at h
    obtain ⟨d, hd, hxs⟩ := Option.bind_eq_some_iff.mp h
    rw [List.cons_append, scanFrom_cons, hd]
    exact ih hxs

/-- Exchanges in an open transaction append the bytes sent, whatever is received. -/
theorem scanFrom_exchanges (sent : List Byte) (wren : Bool) {bs rxs : List Byte} (hl : rxs.length = bs.length) :
    scanFrom ⟨some sent, wren⟩ (List.zipWith .xfer bs rxs) = some ⟨some (sent ++ bs), wren⟩ := by
  induction bs generalizing sent rxs with
  | nil => simp [scanFrom]
  | cons b bs ih =>
    cases rxs with
    | nil => cases hl
    | cons r rxs => simpa [scanFrom_cons, scanStep] using ih (sent ++ [b]) (Nat.succ.inj hl)

/-- A chip-select and the bytes sent after it stand as an open transaction. -/
theorem scanFrom_opening (wren : Bool) {bs rxs : List Byte} (hl : rxs.length = bs.length) :
    scanFrom ⟨none, wren⟩ (.csa :: List.zipWith .xfer bs rxs) = some ⟨some bs, wren⟩ :=
  scanFrom_exchanges [] wren hl

/-- The end of an acceptable transaction. -/
theorem scanFrom_csd {wren : Bool} {bs : List Byte} (h : closeOk wren bs = true) :
    scanFrom ⟨some bs, wren⟩ [.csd] = some ⟨none, bs == [0x06]⟩ := by
  simp [scanFrom, scanStep, h]

/-- A whole acceptable transaction. -/
theorem scanFrom_transaction {wren : Bool} {bs rxs : List Byte} (hl : rxs.length = bs.length)
    (h : closeOk wren bs = true) :
    scanFrom ⟨none, wren⟩ (.csa :: List.zipWith .xfer bs rxs ++ [.csd]) = some ⟨none, bs == [0x06]⟩ :=
  (scanFrom_append (scanFrom_opening wren hl) _).trans (scanFrom_csd h)

/-- The write enable of R140 leaves the reader closed, with the latch recorded. -/
theorem scanFrom_wrenTxn (q : Byte) (es : List BusEvent) :
    scanFrom ⟨none, false⟩ ([.csa, .xfer 0x06 q, .csd] ++ es) = scanFrom ⟨none, true⟩ es :=
  scanFrom_append (scanFrom_transaction (bs := [0x06]) (rxs := [q]) rfl closeOk_wren) es

end Sys2Proof.Machine
end

section
/-! PROOFS. The trace invariant under the commands, the reset and the step. -/

namespace Sys2Proof.Machine

variable {s t : State}

/-- The events appended to a trace carry the reader from one place to the next. -/
theorem TraceInv.of_events {c c' : Scan} {es : List BusEvent} (hc : scan s.trace = some c)
    (ht : t.trace = s.trace ++ es) (he : scanFrom c es = some c') (hm : ScanMatches t.sess c') : TraceInv t :=
  ⟨c', by rw [ht, scan, scanFrom_append hc, he], hm⟩

/-- What leaves the trace and the session alone keeps the protocol. -/
theorem TraceInv.of_same (h : TraceInv s) (ht : t.trace = s.trace) (hs : t.sess = s.sess) : TraceInv t := by
  unfold TraceInv
  rwa [ht, hs]

theorem TraceInv.scan_idle (h : TraceInv s) (hs : s.sess = .idle) : scan s.trace = some ⟨none, false⟩ := by
  obtain ⟨c, hc, hm⟩ := h
  rw [hs] at hm
  exact hc.trans (congrArg some hm)

theorem TraceInv.scan_read (h : TraceInv s) (hs : s.sess = .read) :
    ∃ a n, scan s.trace = some ⟨some (wireBytesOf (.readData a n)), false⟩ := by
  obtain ⟨c, hc, hm⟩ := h
  rw [hs] at hm
  obtain ⟨a, n, rfl⟩ := hm
  exact ⟨a, n, hc⟩

theorem TraceInv.scan_write (h : TraceInv s) (hs : s.sess = .write) :
    ∃ a d, scan s.trace = some ⟨some (wireBytesOf (.pageProgram a d)), true⟩ := by
  obtain ⟨c, hc, hm⟩ := h
  rw [hs] at hm
  obtain ⟨a, d, rfl⟩ := hm
  exact ⟨a, d, hc⟩

/-- The end of either session closes its transaction in a format of R85. -/
theorem TraceInv.of_sessionEnd (h : TraceInv s) (hs : s.sess ≠ .idle) (ht : t.trace = s.trace ++ [.csd])
    (hi : t.sess = .idle) : TraceInv t := by
  cases hk : s.sess with
  | idle => exact absurd hk hs
  | read =>
    obtain ⟨a, n, hc⟩ := h.scan_read hk
    exact .of_events hc ht (scanFrom_csd (closeOk_readData a n)) (by rw [hi]; rfl)
  | write =>
    obtain ⟨a, d, hc⟩ := h.scan_write hk
    exact .of_events hc ht (scanFrom_csd (closeOk_pageProgram a d)) (by rw [hi]; rfl)

theorem TraceInv.doInit (h : TraceInv s) (hs : s.sess = .idle) : TraceInv (doInit s) := by
  obtain ⟨r, m, y, c, -, ht⟩ := doInit_events s
  exact .of_events (h.scan_idle hs) ht
    (scanFrom_transaction (bs := [0x9F, 0xFF, 0xFF, 0xFF]) (rxs := [r, m, y, c]) rfl closeOk_readId)
    (by rw [doInit_sess, hs]; rfl)

theorem TraceInv.doReadStart (a : Addr) (h : TraceInv s) (hs : s.sess = .idle) : TraceInv (doReadStart a s) := by
  obtain ⟨r, r2, r1, r0, ht⟩ := doReadStart_events s a
  exact .of_events (h.scan_idle hs) ht
    (scanFrom_opening false (bs := 0x03 :: addrBytes a) (rxs := [r, r2, r1, r0]) rfl)
    (by rw [doReadStart_sess]; exact ⟨a, 0, rfl⟩)

theorem TraceInv.doReadByte (h : TraceInv s) (hs : s.sess = .read) : TraceInv (doReadByte s) := by
  obtain ⟨a, n, hc⟩ := h.scan_read hs
  exact .of_events hc (doReadByte_trace s) (scanFrom_exchanges _ false (bs := [0xFF]) (rxs := [_]) rfl)
    (by rw [doReadByte_sess, hs]; exact ⟨a, n + 1, by rw [wireBytesOf_readData_succ]⟩)

theorem TraceInv.doWriteStart (a : Addr) (h : TraceInv s) (hs : s.sess = .idle) :
    TraceInv (doWriteStart a s) := by
  obtain ⟨q, r, r2, r1, r0, ht⟩ := doWriteStart_events s a
  exact .of_events (h.scan_idle hs) ht
    ((scanFrom_wrenTxn q _).trans
      (scanFrom_opening true (bs := 0x02 :: addrBytes a) (rxs := [r, r2, r1, r0]) rfl))
    (by rw [doWriteStart_sess]; exact ⟨a, [], rfl⟩)

theorem TraceInv.doWriteByte (b : Byte) (h : TraceInv s) (hs : s.sess = .write) : TraceInv (doWriteByte b s) := by
  obtain ⟨a, d, hc⟩ := h.scan_write hs
  exact .of_events hc (doWriteByte_trace b s) (scanFrom_exchanges _ true (bs := [b]) (rxs := [_]) rfl)
    (by rw [doWriteByte_sess, hs]; exact ⟨a, d ++ [b], by rw [wireBytesOf_pageProgram_concat]⟩)

theorem TraceInv.doWriteIsbusy (h : TraceInv s) (hs : s.sess = .idle) : TraceInv (doWriteIsbusy s) := by
  obtain ⟨r, y, -, ht⟩ := doWriteIsbusy_events s
  exact .of_events (h.scan_idle hs) ht
    (scanFrom_transaction (bs := [0x05, 0xFF]) (rxs := [r, y]) rfl closeOk_readStatus1)
    (by rw [doWriteIsbusy_sess, hs]; rfl)

theorem TraceInv.doErase (a : Addr) (h : TraceInv s) (hs : s.sess = .idle) : TraceInv (doErase a s) := by
  obtain ⟨q, r, r2, r1, r0, ht⟩ := doErase_events s a
  exact .of_events (h.scan_idle hs) ht
    ((scanFrom_wrenTxn q _).trans
      (scanFrom_transaction (bs := 0x20 :: addrBytes a) (rxs := [r, r2, r1, r0]) rfl (closeOk_sectorErase a)))
    (by rw [doErase_sess, hs]; rfl)

/-- A reset releases an open session's chip-select, and finds nothing open otherwise (R27, R231). -/
theorem TraceInv.blockReset (hi : StateInv s) (h : TraceInv s) : TraceInv (blockReset s) := by
  by_cases hcs : s.cs = true
  · exact h.of_sessionEnd (hi.csSession.mp hcs) (by rw [blockReset_trace, if_pos hcs]) (blockReset_sess s)
  · have hs : s.sess = .idle := by_contra fun hn => hcs (hi.csSession.mpr hn)
    exact h.of_same (by rw [blockReset_trace, if_neg hcs]) ((blockReset_sess s).trans hs.symm)

/-- Every instruction keeps the bus protocol: each command is taken in the session where its events fit. -/
theorem TraceInv.exec {i : Instr} (hi : StateInv s) (h : TraceInv s) (he : exec i s = .next t) : TraceInv t := by
  rcases exec_next he with ⟨-, c, w, rfl⟩ | ⟨bs, -, rfl⟩ | ⟨-, hd, rfl⟩ | ⟨-, -, hcmd⟩
  · exact h.of_same (raiseFault_trace c w s) (raiseFault_sess c w s)
  · exact h.of_same (wireTxn_trace bs s) (wireTxn_sess bs s)
  · exact h.doInit (hi.uninitIdle hd)
  · rcases hcmd with rfl | ⟨hs, ⟨a, rfl⟩ | ⟨a, rfl⟩ | rfl | ⟨a, rfl⟩⟩ | ⟨hs, rfl | rfl⟩ | ⟨hs, ⟨d, rfl⟩ | rfl⟩
    · exact h.of_same (doGetsize_trace s) (doGetsize_sess s)
    · exact h.doReadStart a hs
    · exact h.doWriteStart a hs
    · exact h.doWriteIsbusy hs
    · exact h.doErase a hs
    · exact h.doReadByte hs
    · exact h.of_sessionEnd (by simp [hs]) (doReadStop_trace s) (doReadStop_sess s)
    · exact h.doWriteByte d hs
    · exact h.of_sessionEnd (by simp [hs]) (doWriteStop_trace s) (doWriteStop_sess s)

/-- Settles O44: a reset ends the open transaction, an instruction runs in the session its events need, and
the rest of a step writes neither the trace nor the session. -/
theorem stepKeepsTraceProtocol : Obligations.StepKeepsTraceProtocol := by
  intro s t hi h hstep
  rcases step_change hstep with ⟨-, rfl⟩ | rfl | ⟨-, -, -, u, hu, hrun⟩
  · exact h.blockReset hi
  · exact h
  · have hinv : TraceInv u := by
      rcases hrun with ⟨i, he, -⟩ | ⟨w, rfl⟩ | ⟨bs, rfl, -⟩
      · exact h.exec hi he
      · exact h.of_same (raiseFault_trace _ w s) (raiseFault_sess _ w s)
      · exact h.of_same (wireTxn_trace bs s) (wireTxn_sess bs s)
    rcases hu with rfl | rfl
    · exact hinv
    · exact hinv.of_same rfl rfl

end Sys2Proof.Machine
end

section
/-! PROOFS. Two machines in different environments: every operation of the block keeps them alike, since it
looks at nothing the chip answers (R10, R200). -/

namespace Sys2Proof.Machine

/-- Two states that a command cannot tell apart but for received bytes: the block's control fields and the
events without what was received. -/
structure Alike (s u : State) : Prop where
  initDone : u.initDone = s.initDone
  sess : u.sess = s.sess
  cs : u.cs = s.cs
  fault : u.fault = s.fault
  sent : u.trace.map BusEvent.sent = s.trace.map BusEvent.sent

section
variable {s u : State}

theorem Alike.transportInit (h : Alike s u) : Alike (transportInit s) (transportInit u) :=
  ⟨h.initDone, h.sess, h.cs, h.fault, by simp [h.sent]⟩

theorem Alike.csAssert (h : Alike s u) : Alike (csAssert s) (csAssert u) :=
  ⟨h.initDone, h.sess, rfl, h.fault, by simp [h.sent]⟩

theorem Alike.csDeassert (h : Alike s u) : Alike (csDeassert s) (csDeassert u) :=
  ⟨h.initDone, h.sess, rfl, h.fault, by simp [h.sent]⟩

/-- The one place where the environments differ: the byte received, which `BusEvent.sent` leaves out. -/
theorem Alike.xfer (tx : Byte) (h : Alike s u) : Alike (xfer tx s) (xfer tx u) :=
  ⟨h.initDone, h.sess, h.cs, h.fault, by simp [h.sent, BusEvent.sent]⟩

theorem Alike.xferAll (bs : List Byte) (h : Alike s u) : Alike (xferAll bs s) (xferAll bs u) := by
  induction bs generalizing s u with
  | nil => exact h
  | cons b bs ih => exact ih (h.xfer b)

theorem Alike.addrOut (a : Addr) (h : Alike s u) : Alike (addrOut a s) (addrOut a u) := h.xferAll _

theorem Alike.wrenTxn (h : Alike s u) : Alike (wrenTxn s) (wrenTxn u) := (h.csAssert.xfer 0x06).csDeassert

/-- The responses may differ: one of them may carry a received byte. -/
theorem Alike.respond (q r : Response) (h : Alike s u) : Alike (respond q s) (respond r u) :=
  ⟨h.initDone, h.sess, h.cs, h.fault, h.sent⟩

theorem Alike.raiseFault (c : FaultCode) (w : CmdWord) (h : Alike s u) :
    Alike (raiseFault c w s) (raiseFault c w u) :=
  ⟨h.initDone, h.sess, h.cs, rfl, h.sent⟩

theorem Alike.setSess (k : Session) (h : Alike s u) : Alike { s with sess := k } { u with sess := k } :=
  ⟨h.initDone, rfl, h.cs, h.fault, h.sent⟩

/-- The capacities may differ: they are decoded from received bytes (R101). -/
theorem Alike.setCap (a b : Addr) (h : Alike s u) :
    Alike { s with cap := a, initDone := true } { u with cap := b, initDone := true } :=
  ⟨rfl, h.sess, h.cs, h.fault, h.sent⟩

/-- A transaction of another bus master leaves the block as it was. -/
theorem Alike.wireTxn (bs : List Byte) (h : Alike s u) : Alike (wireTxn bs s) (wireTxn bs u) :=
  ⟨by simpa using h.initDone, by simpa using h.sess, by simpa using h.cs, by simpa using h.fault,
    by simpa using h.sent⟩

/-- The checks of R202 read the block's own fields alone. -/
theorem Alike.check_eq (h : Alike s u) (i : Instr) : check i u = check i s := by
  simp only [check, checkGroup, h.initDone, h.sess]

end

/-- Two answers to one command that differ at most in received bytes: two next states that are alike, or the
same fault. -/
def AnswersAlike (a b : Host.Outcome State Fault Refusal) : Prop :=
  (∃ t v, a = .next t ∧ b = .next v ∧ Alike t v) ∨ ∃ r, a = .fault r ∧ b = .fault r

section
variable {s u : State}

theorem AnswersAlike.of_next {t v : State} (h : Alike t v) : AnswersAlike (.next t) (.next v) :=
  .inl ⟨t, v, rfl, rfl, h⟩

/-- The checks and the faults of a command are alike; so is its answer if its own effect is. -/
theorem AnswersAlike.command {i : Instr} {body : State → State} (h : Alike s u)
    (hb : Alike (body s) (body u)) : AnswersAlike (command i body s) (command i body u) := by
  have hcode : u.fault.code = s.fault.code := by rw [h.fault]
  by_cases h0 : s.fault.code = 0
  · have h0u : u.fault.code = 0 := hcode.trans h0
    cases hc : check i s with
    | none =>
      rw [command_of_ok h0 hc, command_of_ok h0u ((h.check_eq i).trans hc)]
      exact .of_next hb
    | some c =>
      rw [command_of_check h0 hc, command_of_check h0u ((h.check_eq i).trans hc)]
      exact .of_next (h.raiseFault c (wordOf i))
  · rw [command_of_fault h0, command_of_fault (hcode ▸ h0), hcode]
    exact .inr ⟨_, rfl, rfl⟩

/-- Each instruction is a run of operations that keep the two machines alike. -/
theorem Alike.exec (h : Alike s u) (i : Instr) : AnswersAlike (exec i s) (exec i u) := by
  cases i with
  | init =>
    have htxn := ((((h.transportInit.csAssert.xfer 0x9F).xfer placeholder).xfer placeholder).xfer
      placeholder).csDeassert
    exact .command h ((htxn.setCap _ _).respond _ _)
  | readStart a => exact .command h ((((h.csAssert.xfer 0x03).addrOut a).setSess .read).respond _ _)
  | readByte l => exact .command h ((h.xfer placeholder).respond _ _)
  | readStop => exact .command h ((h.csDeassert.setSess .idle).respond _ _)
  | writeStart a => exact .command h ((((h.wrenTxn.csAssert.xfer 0x02).addrOut a).setSess .write).respond _ _)
  | writeByte d => exact .command h ((h.xfer d).respond _ _)
  | writeStop => exact .command h ((h.csDeassert.setSess .idle).respond _ _)
  | writeIsbusy => exact .command h (((h.csAssert.xfer 0x05).xfer placeholder).csDeassert.respond _ _)
  | erase a => exact .command h (((h.wrenTxn.csAssert.xfer 0x20).addrOut a).csDeassert.respond _ _)
  | getsize => exact .command h (h.respond _ _)
  | wren | pageProgram | sectorErase | readData | readStatus1 | readId => exact .of_next (h.wireTxn _)

end

/-- Settles O49: both answers are alike, since the environment enters a command through the bytes of `Xfer`
alone and no check, session, chip-select or sent byte depends on one. -/
theorem environmentOnlyFillsReceivedBytes : Obligations.EnvironmentOnlyFillsReceivedBytes := by
  intro i s u hinit hsess hcs hfault hsent
  have halike : Alike s u := ⟨hinit, hsess, hcs, hfault, hsent⟩
  rcases halike.exec i with ⟨t, v, ht, hv, h⟩ | ⟨r, hs, hu⟩
  · rw [ht, hv]
    exact ⟨h.initDone, h.sess, h.cs, h.fault, h.sent⟩
  · rw [hs, hu]

end Sys2Proof.Machine
end

section
/-! PROOFS. The values of the power-on reset (R20, R57), and the invariants there. -/

namespace Sys2Proof.Machine

/-- The array of a reset reference flash reads as its image (R57). -/
theorem resetWith_flashByte (att : Bool) (p : RfParams) (a : Nat) :
    (State.resetWith att p).flashByte a = imageRead p.image a := rfl

/-- Settles O30: the two resets are written out, and the free parameters are replaced by legal ones. -/
theorem powerOnResetValues : Obligations.PowerOnResetValues := by
  constructor
  · rintro att p s rfl
    exact ⟨rfl, rfl, rfl, rfl, rfl, rfl, rfl, rfl, rfl, rfl, rfl, rfl, resetWith_flashByte att p⟩
  · exact ⟨Config.rfAttached, Config.rfParams.legal, RfParams.legal_wf _, rfl⟩

/-- The machine of a power-on reset meets its invariant: no session, no fault, the capacity not yet read. -/
theorem StateInv.resetWith (att : Bool) {p : RfParams} (hp : p.wf = true) : StateInv (State.resetWith att p) where
  csSession := by simp [State.resetWith]
  uninitIdle _ := rfl
  capLegal h := by cases h
  codeLegal := Nat.zero_le 6
  faultWord _ := rfl
  faultResp h := absurd rfl h
  paramsWf := hp
  memWf := ⟨.nil, by simp [State.resetWith, Rf.reset]⟩
  memInRange := by simp [State.resetWith, Rf.reset]
  busyBound := Nat.zero_le _
  pcInProg := Nat.le_refl 0

theorem TraceInv.resetWith (att : Bool) (p : RfParams) : TraceInv (State.resetWith att p) :=
  ⟨⟨none, false⟩, rfl, rfl⟩

theorem BusInv.resetWith (att : Bool) (p : RfParams) : BusInv (State.resetWith att p) :=
  fun _ _ => ⟨rfl, fun h => (by cases h), fun h => (by cases h)⟩

/-- Settles O42: each invariant holds after the power-on reset of any machine with legal parameters. -/
theorem invariantsHoldAtReset : Obligations.InvariantsHoldAtReset :=
  ⟨.resetWith _ (RfParams.legal_wf _), .resetWith _ _, .resetWith _ _⟩

end Sys2Proof.Machine
end

section
/-! PROOFS. The invariant of the machine under the commands, the faults, the reset and the step. -/

namespace Sys2Proof.Machine

variable {s t : State}

/-- No instruction writes the environment's parameters, the caller's program or its position: a step moves the
position (R93). -/
theorem exec_callerSame {i : Instr} (he : exec i s = .next t) : CallerSame s t := by
  rcases exec_next he with ⟨-, c, w, rfl⟩ | ⟨bs, -, rfl⟩ | ⟨-, -, rfl⟩ | ⟨-, -, rfl |
    ⟨-, ⟨a, rfl⟩ | ⟨a, rfl⟩ | rfl | ⟨a, rfl⟩⟩ | ⟨-, rfl | rfl⟩ | ⟨-, ⟨d, rfl⟩ | rfl⟩⟩
  all_goals constructor <;> simp

/-- The capacity decoder answers one of the five values of R20. -/
theorem capDecode_mem_legalCaps (m c : Byte) : capDecode m c ∈ legalCaps := by
  unfold capDecode
  split_ifs <;> decide

/-- The codes of R201 are 1 to 6. -/
theorem FaultCode.bits_range (c : FaultCode) : c.bits ≠ 0 ∧ c.bits.toNat ≤ 6 := by
  cases c <;> decide

/-- With chip-select deasserted no session is open (R27). -/
theorem StateInv.sess_idle (h : StateInv s) (hcs : s.cs = false) : s.sess = .idle :=
  by_contra fun hn => by simp [h.csSession.mpr hn] at hcs

theorem StateInv.flashKept (h : StateInv s) : FlashKept s := ⟨h.memWf, h.memInRange, h.busyBound⟩

/-- What a command that ran leaves: no fault, `init` done with a legal capacity, chip-select in line with the
session, and the reference flash kept. -/
theorem StateInv.of_command (h : StateInv s) (h0 : s.fault.code = 0) (hc : CallerSame s t) (hf : t.fault = s.fault)
    (hk : FlashKept t) (hcs : t.cs = true ↔ t.sess ≠ .idle) (hd : t.initDone = true) (hcap : t.cap ∈ legalCaps) :
    StateInv t where
  csSession := hcs
  uninitIdle h' := by simp [hd] at h'
  capLegal _ := hcap
  codeLegal := by simp [hf, h0]
  faultWord _ := by rw [hf, h.faultWord h0]
  faultResp h' := absurd (hf ▸ h0) h'
  paramsWf := hc.params ▸ h.paramsWf
  memWf := hk.memWf
  memInRange := hk.memInRange
  busyBound := hk.busyBound
  pcInProg := by rw [hc.pc, hc.prog]; exact h.pcInProg

/-- A fault entry writes the fault register and the response together (R203). -/
theorem StateInv.raiseFault (c : FaultCode) (w : CmdWord) (h : StateInv s) : StateInv (raiseFault c w s) :=
  { h with
    codeLegal := c.bits_range.2
    faultWord := fun h' => absurd h' c.bits_range.1
    faultResp := fun _ => rfl }

/-- A transaction of another bus master reaches the reference flash alone. -/
theorem StateInv.wireTxn (bs : List Byte) (h : StateInv s) : StateInv (wireTxn bs s) where
  csSession := by simpa using h.csSession
  uninitIdle := by simpa using h.uninitIdle
  capLegal := by simpa using h.capLegal
  codeLegal := by simpa using h.codeLegal
  faultWord := by simpa using h.faultWord
  faultResp := by simpa using h.faultResp
  paramsWf := by simpa using h.paramsWf
  memWf := (h.flashKept.wireTxn h.paramsWf bs).memWf
  memInRange := (h.flashKept.wireTxn h.paramsWf bs).memInRange
  busyBound := (h.flashKept.wireTxn h.paramsWf bs).busyBound
  pcInProg := by simpa using h.pcInProg

/-- A reset of the block gives its fields their reset values and at most deselects the chip (R230, R231). -/
theorem StateInv.blockReset (h : StateInv s) : StateInv (blockReset s) where
  csSession := by simp
  uninitIdle _ := rfl
  capLegal h' := by simp at h'
  codeLegal := by simp
  faultWord _ := rfl
  faultResp h' := absurd rfl h'
  paramsWf := by simpa using h.paramsWf
  memWf := (h.flashKept.blockReset h.paramsWf).memWf
  memInRange := (h.flashKept.blockReset h.paramsWf).memInRange
  busyBound := (h.flashKept.blockReset h.paramsWf).busyBound
  pcInProg := by simpa using h.pcInProg

/-- Every instruction keeps the invariant: each command leaves chip-select as its session asks (R27). -/
theorem StateInv.exec {i : Instr} (h : StateInv s) (he : exec i s = .next t) : StateInv t := by
  have hc : CallerSame s t := exec_callerSame he
  have hp : s.params.wf = true := h.paramsWf
  have hk : FlashKept s := h.flashKept
  rcases exec_next he with ⟨-, c, w, rfl⟩ | ⟨bs, -, rfl⟩ | ⟨h0, hd, rfl⟩ | ⟨h0, hd, hcmd⟩
  · exact h.raiseFault c w
  · exact h.wireTxn bs
  · obtain ⟨_, m, _, c, hcap, -⟩ := doInit_events s
    exact h.of_command h0 hc rfl (hk.doInit hp) (by simp [h.uninitIdle hd]) rfl (hcap ▸ capDecode_mem_legalCaps m c)
  · have hcap : s.cap ∈ legalCaps := h.capLegal hd
    rcases hcmd with rfl | ⟨hs, ⟨a, rfl⟩ | ⟨a, rfl⟩ | rfl | ⟨a, rfl⟩⟩ | ⟨hs, rfl | rfl⟩ | ⟨hs, ⟨d, rfl⟩ | rfl⟩
    · exact h.of_command h0 hc rfl hk h.csSession hd hcap
    · exact h.of_command h0 hc (by simp) (hk.doReadStart a) (by simp) (by simpa) (by simpa)
    · exact h.of_command h0 hc (by simp) (hk.doWriteStart hp a) (by simp) (by simpa) (by simpa)
    · exact h.of_command h0 hc rfl (hk.doWriteIsbusy hp) (by simp [hs]) hd hcap
    · exact h.of_command h0 hc (by simp) (hk.doErase hp a) (by simp [hs]) (by simpa) (by simpa)
    · exact h.of_command h0 hc rfl (hk.xfer placeholder) h.csSession hd hcap
    · exact h.of_command h0 hc rfl (hk.csDeassert hp) (by simp) hd hcap
    · exact h.of_command h0 hc rfl (hk.xfer d) h.csSession hd hcap
    · exact h.of_command h0 hc rfl (hk.csDeassert hp) (by simp) hd hcap

/-- The position may move past an item (R93). -/
theorem StateInv.setPc {n : Nat} (h : StateInv s) (hn : n ≤ s.prog.length) : StateInv { s with pc := n } :=
  { h with pcInProg := hn }

/-- Settles O43: a reset, an instruction, an illegal word and a foreign transaction keep the invariant, and the
position moves only past an item that is there. -/
theorem stepKeepsInv : Obligations.StepKeepsInv := by
  intro s t h hstep
  rcases step_change hstep with ⟨-, rfl⟩ | rfl | ⟨-, -, hpc, u, hu, hrun⟩
  · exact h.blockReset
  · exact h
  · have hinv : StateInv u ∧ u.pc = s.pc ∧ u.prog = s.prog := by
      rcases hrun with ⟨i, he, -⟩ | ⟨w, rfl⟩ | ⟨bs, rfl, -⟩
      · exact ⟨h.exec he, (exec_callerSame he).pc, (exec_callerSame he).prog⟩
      · exact ⟨h.raiseFault _ w, rfl, rfl⟩
      · exact ⟨h.wireTxn bs, wireTxn_pc bs s, wireTxn_prog bs s⟩
    obtain ⟨hui, hupc, huprog⟩ := hinv
    rcases hu with rfl | rfl
    · exact hui
    · exact hui.setPc (by rw [hupc, huprog]; exact hpc)

end Sys2Proof.Machine
end

section
/-! PROOFS. The reference flash and the session (R24, R58, R65): what a fault-free end of a run of exchanges says
of the flash, and the bus invariant under the commands, the reset and the step. -/

namespace Sys2Proof.Machine

section
variable {p : RfParams} {f : Rf}

/-- An exchange that leaves no fault recorded has been received. -/
theorem Rf.exchange_ok {tx : Byte} (h : (f.exchange p tx).fault = none) :
    f.fault = none ∧ f.exchange p tx = { f with txn := f.txn ++ [tx] } :=
  Rf.exchangeAll_ok (bs := [tx]) h

/-- A busy reference flash faults on every opcode but Read Status (R59). -/
theorem Rf.xferFault_of_busy {op : Byte} (ht : f.txn = []) (hb : f.busy ≠ 0) (hop : op ≠ 0x05) :
    f.xferFault p op = some .busy := by
  simp only [Rf.xferFault, ht]
  exact if_pos ⟨Nat.pos_of_ne_zero hb, hop⟩

/-- Only a ready reference flash takes an opcode other than Read Status without a fault (R59). -/
theorem Rf.busy_of_opening {op : Byte} {bs : List Byte} (hop : op ≠ 0x05)
    (h : (f.select.exchangeAll p (op :: bs)).fault = none) : f.busy = 0 := by
  obtain ⟨hx, -⟩ := Rf.exchangeAll_ok (f := f.select.exchange p op) (bs := bs) h
  obtain ⟨hf, -⟩ := Rf.exchange_ok hx
  have hf' : f.fault = none := by simpa using hf
  by_contra hb
  rw [Rf.exchange_of_ok op hf, Rf.select_of_ok hf'] at hx
  simp only [Rf.xferFault_of_busy (f := { f with sel := true, txn := [] }) rfl hb hop, reduceCtorEq] at hx

/-- The deselect of a write enable sets the latch (R66). -/
theorem Rf.deselect_of_wren (hf : f.fault = none) (ht : f.txn = [0x06]) :
    f.deselect p = { f with sel := false, wel := true } := by
  simp [Rf.deselect, hf, ht, Rf.close, lengthBad]

/-- A write-enable transaction that leaves no fault recorded has set the latch (R66). -/
theorem Rf.wel_of_wren (h : (f.transact p [0x06]).fault = none) : (f.transact p [0x06]).wel = true := by
  unfold Rf.transact at h ⊢
  rcases Rf.select_exchangeAll p f [0x06] with ⟨c, hc⟩ | ⟨hf, hx⟩
  · rw [Rf.deselect_of_fault hc, hc] at h
    cases h
  · rw [hx, Rf.deselect_of_wren (f := { f with sel := true, txn := [0x06] }) hf rfl]

end

variable {s t : State}

/-- What leaves the chip, chip-select and the session alone keeps the bus invariant. -/
theorem BusInv.of_same (h : BusInv s) (ha : t.attached = s.attached) (hrf : t.rf = s.rf) (hcs : t.cs = s.cs)
    (hs : t.sess = s.sess) : BusInv t := by
  unfold BusInv
  rwa [ha, hrf, hcs, hs]

/-- After a deselect the chip is deselected, as an idle block has it, unless it has recorded a fault. -/
theorem BusInv.of_deselect {g : RfParams → Rf → Rf} (hrf : t.rf = s.chip fun p f => (g p f).deselect p)
    (ha : t.attached = s.attached) (hcs : t.cs = false) (hs : t.sess = .idle) : BusInv t := by
  intro hat hf
  rw [hrf, State.chip_of_attached (ha ▸ hat)] at hf ⊢
  exact ⟨(Rf.sel_of_deselect hf).trans hcs.symm, by simp [hs], by simp [hs]⟩

/-- The reference flash is selected and holds the Read Data transaction that the block has opened. -/
theorem BusInv.doReadStart (a : Addr) : BusInv (doReadStart a s) := by
  intro ha hf
  rw [doReadStart_rf, State.chip_of_attached (by simpa using ha)] at hf ⊢
  rcases Rf.select_exchangeAll s.params s.rf (0x03 :: addrBytes a) with ⟨c, hc⟩ | ⟨-, hx⟩
  · rw [hc] at hf
    cases hf
  · rw [hx]
    exact ⟨by simp, fun _ => ⟨a, 0, rfl⟩, by simp⟩

/-- The reference flash has set its latch, was ready, and holds the Page Program transaction that the block has
opened. -/
theorem BusInv.doWriteStart (a : Addr) : BusInv (doWriteStart a s) := by
  intro ha hf
  rw [doWriteStart_rf, State.chip_of_attached (by simpa using ha)] at hf ⊢
  have hb : (s.rf.transact s.params [0x06]).busy = 0 := Rf.busy_of_opening (by decide) hf
  rcases Rf.select_exchangeAll s.params (s.rf.transact s.params [0x06]) (0x02 :: addrBytes a) with ⟨c, hc⟩ | ⟨hw, hx⟩
  · rw [hc] at hf
    cases hf
  · rw [hx]
    exact ⟨by simp, by simp, fun _ => ⟨a, [], rfl, Rf.wel_of_wren hw, hb⟩⟩

/-- One more byte in an open session continues the transaction that the reference flash holds. -/
theorem BusInv.doReadByte (h : BusInv s) (hs : s.sess = .read) : BusInv (doReadByte s) := by
  intro (ha : s.attached = true) hf
  rw [doReadByte_rf, if_pos ha] at hf ⊢
  obtain ⟨hf', hx⟩ := Rf.exchange_ok hf
  obtain ⟨hsel, hr, -⟩ := h ha hf'
  obtain ⟨a, n, htxn⟩ := hr hs
  rw [hx]
  exact ⟨hsel, fun _ => ⟨a, n + 1, by rw [wireBytesOf_readData_succ, htxn]⟩, by simp [hs]⟩

theorem BusInv.doWriteByte (b : Byte) (h : BusInv s) (hs : s.sess = .write) : BusInv (doWriteByte b s) := by
  intro (ha : s.attached = true) hf
  rw [doWriteByte_rf, if_pos ha] at hf ⊢
  obtain ⟨hf', hx⟩ := Rf.exchange_ok hf
  obtain ⟨hsel, -, hw⟩ := h ha hf'
  obtain ⟨a, d, htxn, hwel, hbusy⟩ := hw hs
  rw [hx]
  exact ⟨hsel, by simp [hs], fun _ => ⟨a, d ++ [b], by rw [wireBytesOf_pageProgram_concat, htxn], hwel, hbusy⟩⟩

/-- A transaction of another bus master ends with the chip deselected: in line with a block that has no session
open (log entry 6). -/
theorem BusInv.wireTxn (bs : List Byte) (hcs : s.cs = false) (hs : s.sess = .idle) : BusInv (wireTxn bs s) :=
  .of_deselect (wireTxn_rf bs s) (wireTxn_attached bs s) (by simpa) (by simpa)

/-- A reset deselects a chip that the block has selected (R231). -/
theorem BusInv.blockReset (h : BusInv s) : BusInv (blockReset s) := by
  by_cases hcs : s.cs = true
  · have hrf : (Machine.blockReset s).rf = s.chip fun p f => f.deselect p := by simp [hcs, State.chip]
    exact .of_deselect hrf (blockReset_attached s) rfl rfl
  · intro ha hf
    simp only [blockReset_rf, hcs, false_and, if_false, Bool.false_eq_true] at hf ⊢
    obtain ⟨hsel, -, -⟩ := h (by simpa using ha) hf
    exact ⟨by simpa [hcs] using hsel, by simp, by simp⟩

/-- Every instruction keeps the bus invariant, a foreign transaction where chip-select is deasserted. -/
theorem BusInv.exec {i : Instr} (hi : StateInv s) (h : BusInv s) (hb : (∃ w, encode i = .command w) ∨ s.cs = false)
    (he : exec i s = .next t) : BusInv t := by
  rcases exec_next he with ⟨-, c, w, rfl⟩ | ⟨bs, henc, rfl⟩ | ⟨-, hd, rfl⟩ | ⟨-, -, hcmd⟩
  · exact h.of_same rfl rfl rfl rfl
  · have hcs : s.cs = false := hb.resolve_left fun ⟨w, hw⟩ => by simp [henc] at hw
    exact .wireTxn bs hcs (hi.sess_idle hcs)
  · exact .of_deselect (doInit_rf s) rfl rfl (hi.uninitIdle hd)
  · rcases hcmd with rfl | ⟨hs, ⟨a, rfl⟩ | ⟨a, rfl⟩ | rfl | ⟨a, rfl⟩⟩ | ⟨hs, rfl | rfl⟩ | ⟨hs, ⟨d, rfl⟩ | rfl⟩
    · exact h.of_same rfl rfl rfl rfl
    · exact .doReadStart a
    · exact .doWriteStart a
    · exact .of_deselect (doWriteIsbusy_rf s) rfl rfl hs
    · exact .of_deselect (doErase_rf s a) (doErase_attached a s) (doErase_cs a s) (by simpa)
    · exact h.doReadByte hs
    · exact .of_deselect (g := fun _ f => f) (doReadStop_rf s) rfl rfl rfl
    · exact h.doWriteByte d hs
    · exact .of_deselect (g := fun _ f => f) (doWriteStop_rf s) rfl rfl rfl

/-- Settles O45: a reset and the block's own commands keep the reference flash in line, and so does a foreign
transaction while no session is open. -/
theorem stepKeepsBusInv : Obligations.StepKeepsBusInv := by
  intro s t hi h hb hstep
  rcases step_change hstep with ⟨-, rfl⟩ | rfl | ⟨-, -, -, u, hu, hrun⟩
  · exact h.blockReset
  · exact h
  · have hinv : BusInv u := by
      rcases hrun with ⟨i, he, hblock⟩ | ⟨w, rfl⟩ | ⟨bs, rfl, hforeign⟩
      · exact h.exec hi (hb.imp_left hblock) he
      · exact h.of_same rfl rfl rfl rfl
      · have hcs : s.cs = false := hb.resolve_left hforeign
        exact .wireTxn bs hcs (hi.sess_idle hcs)
    rcases hu with rfl | rfl
    · exact hinv
    · exact hinv.of_same rfl rfl rfl rfl

end Sys2Proof.Machine
end

section
/-! PROOFS. The commands before `init` and a second `init` (R21, R202, R203). -/

namespace Sys2Proof.Machine

/-- The fault entry of R203 is the state that the statements write out. -/
theorem raiseFault_eq_faultState (c : FaultCode) (w : CmdWord) (s : State) :
    raiseFault c w s = faultState s c.bits w := rfl

/-- An instruction encoded as a command word runs in the frame of a command (R202 to R204). -/
theorem exec_eq_command {i : Instr} {w : CmdWord} (h : encode i = .command w) :
    ∃ body, ∀ s, exec i s = command i body s := by
  cases i with
  | wren | pageProgram | sectorErase | readData | readStatus1 | readId => cases h
  | _ => exact ⟨_, fun _ => rfl⟩

/-- An instruction encoded as a wire transaction is that transaction (R85, log entry 6). -/
theorem exec_eq_wireTxn {i : Instr} {bs : List Byte} (h : encode i = .wire bs) (s : State) :
    exec i s = .next (wireTxn bs s) := by
  cases i with
  | wren | pageProgram | sectorErase | readData | readStatus1 | readId => cases h; rfl
  | _ => cases h

theorem wordOf_of_encode {i : Instr} {w : CmdWord} (h : encode i = .command w) : wordOf i = w := by
  rw [wordOf, h]

theorem groupOf_ne_init {i : Instr} (h : i ≠ .init) : groupOf i ≠ .init := by
  cases i with
  | init => exact absurd rfl h
  | _ => exact Group.noConfusion

/-- Before `init` no other command runs: the first check of R202 stops it. -/
theorem exec_before_init {s : State} {i : Instr} {w : CmdWord} (h0 : s.fault.code = 0) (hd : s.initDone = false)
    (hw : encode i = .command w) (hi : i ≠ .init) : exec i s = .next (raiseFault .notInit w s) := by
  obtain ⟨body, hb⟩ := exec_eq_command hw
  have hc : check i s = some .notInit := (checkGroup_some _ s .notInit).mpr ⟨groupOf_ne_init hi, hd⟩
  rw [hb, command_of_check h0 hc, wordOf_of_encode hw]

/-- Before `init`, no instruction but `init` has the effect of `init`. -/
theorem eq_init_of_exec_doInit {s : State} {i : Instr} (h0 : s.fault.code = 0) (hd : s.initDone = false)
    (he : exec i s = .next (doInit s)) : i = .init := by
  by_contra hi
  cases henc : encode i with
  | command w =>
    rw [exec_before_init h0 hd henc hi] at he
    simpa [hd] using congrArg State.initDone (Host.Outcome.next.inj he)
  | wire bs =>
    rw [exec_eq_wireTxn henc] at he
    simpa [hd] using congrArg State.initDone (Host.Outcome.next.inj he)

/-- A second `init` is stopped by the second check of R202. -/
theorem exec_init_again {s : State} (h0 : s.fault.code = 0) (hd : s.initDone = true) :
    exec .init s = .next (raiseFault .reinit 0 s) :=
  command_of_check h0 ((checkGroup_some .init s .reinit).mpr ⟨rfl, hd⟩)

/-- Settles O27: the checks of R202 find the two faults, and a fault entry is all that happens. -/
theorem initOnceOrElseFaults : Obligations.InitOnceOrElseFaults := by
  intro s h0
  refine ⟨fun hd i w hw hi => ?_, fun hd => ?_⟩
  · rw [exec_before_init h0 hd hw hi, raiseFault_eq_faultState]
    rfl
  · rw [exec_init_again h0 hd, raiseFault_eq_faultState]
    rfl

end Sys2Proof.Machine
end

section
/-! PROOFS. What writes the trace, the capacity and the session (R20 to R26). -/

namespace Sys2Proof.Machine

variable {s t : State}

/-- Every instruction appends its events to the trace (R9). -/
theorem exec_trace_prefix {i : Instr} (he : exec i s = .next t) : s.trace <+: t.trace := by
  rcases exec_next he with ⟨-, c, w, rfl⟩ | ⟨bs, -, rfl⟩ | ⟨-, -, rfl⟩ | ⟨-, -, hcmd⟩
  · exact List.prefix_rfl
  · rw [wireTxn_trace]
  · obtain ⟨_, _, _, _, -, ht⟩ := doInit_events s
    exact ⟨_, ht.symm⟩
  · rcases hcmd with rfl | ⟨-, ⟨a, rfl⟩ | ⟨a, rfl⟩ | rfl | ⟨a, rfl⟩⟩ | ⟨-, rfl | rfl⟩ | ⟨-, ⟨d, rfl⟩ | rfl⟩
    · exact List.prefix_rfl
    · obtain ⟨_, _, _, _, ht⟩ := doReadStart_events s a
      exact ⟨_, ht.symm⟩
    · obtain ⟨_, _, _, _, _, ht⟩ := doWriteStart_events s a
      exact ⟨_, ht.symm⟩
    · obtain ⟨_, _, -, ht⟩ := doWriteIsbusy_events s
      exact ⟨_, ht.symm⟩
    · obtain ⟨_, _, _, _, _, ht⟩ := doErase_events s a
      exact ⟨_, ht.symm⟩
    · exact ⟨_, rfl⟩
    · exact ⟨_, rfl⟩
    · exact ⟨_, rfl⟩
    · exact ⟨_, rfl⟩

/-- A reset appends the release of chip-select or nothing (R230, R231). -/
theorem blockReset_trace_prefix (s : State) : s.trace <+: (blockReset s).trace := by
  rw [blockReset_trace]
  split
  · exact List.prefix_append _ _
  · exact List.prefix_rfl

/-- Settles O47: a reset and an instruction append, and the rest of a step leaves the trace. -/
theorem traceOnlyGrows : Obligations.TraceOnlyGrows := by
  intro s t hstep
  rcases step_change hstep with ⟨-, rfl⟩ | rfl | ⟨-, -, -, u, hu, hrun⟩
  · exact blockReset_trace_prefix s
  · exact List.prefix_rfl
  · have htrace : t.trace = u.trace := by rcases hu with rfl | rfl <;> rfl
    rw [htrace]
    rcases hrun with ⟨i, he, -⟩ | ⟨w, rfl⟩ | ⟨bs, rfl, -⟩
    · exact exec_trace_prefix he
    · exact List.prefix_rfl
    · rw [wireTxn_trace]

/-- Every command but `init` leaves the capacity and `init_done`: before `init` it has no effect of its own
(R20, R21, R22). -/
theorem exec_keeps_cap_initDone {i : Instr} (hi : i ≠ .init) (he : exec i s = .next t) :
    t.cap = s.cap ∧ t.initDone = s.initDone := by
  rcases exec_next he with ⟨-, c, w, rfl⟩ | ⟨bs, -, rfl⟩ | ⟨h0, hd, rfl⟩ | ⟨-, -, hcmd⟩
  · exact ⟨rfl, rfl⟩
  · exact ⟨wireTxn_cap bs s, wireTxn_initDone bs s⟩
  · exact absurd (eq_init_of_exec_doInit h0 hd he) hi
  · rcases hcmd with rfl | ⟨-, ⟨a, rfl⟩ | ⟨a, rfl⟩ | rfl | ⟨a, rfl⟩⟩ | ⟨-, rfl | rfl⟩ | ⟨-, ⟨d, rfl⟩ | rfl⟩
    all_goals constructor <;> simp

/-- A command that changes the session has passed its checks and had its own effect. -/
theorem check_of_sess_ne {i : Instr} {body : State → State} (h : command i body s = .next t)
    (hne : t.sess ≠ s.sess) : check i s = none ∧ t = body s := by
  obtain ⟨-, hbody | ⟨c, -, rfl⟩⟩ := command_next h
  · exact hbody
  · exact absurd rfl hne

/-- A command whose own effect leaves the session leaves it in every case. -/
theorem command_keeps_sess {i : Instr} {body : State → State} (hb : (body s).sess = s.sess)
    (h : command i body s = .next t) : t.sess = s.sess :=
  by_contra fun hne => hne ((check_of_sess_ne h hne).2 ▸ hb)

/-- Settles O48: every other command leaves the capacity; a command that changes the session has passed the check
of R202 that names the session it finds, and its effect names the one it leaves. -/
theorem onlyTheirCommandsWriteCapAndSession : Obligations.OnlyTheirCommandsWriteCapAndSession := by
  intro i s t he
  refine ⟨fun hi => exec_keeps_cap_initDone hi he, fun hne => ?_⟩
  cases i with
  | readStart a =>
    obtain ⟨hc, rfl⟩ := check_of_sess_ne he hne
    exact .inl ⟨⟨a, rfl⟩, ((checkGroup_none .opens s).mp hc).2, doReadStart_sess a s⟩
  | readStop =>
    obtain ⟨hc, rfl⟩ := check_of_sess_ne he hne
    exact .inr (.inl ⟨rfl, ((checkGroup_none .needsRead s).mp hc).2, rfl⟩)
  | writeStart a =>
    obtain ⟨hc, rfl⟩ := check_of_sess_ne he hne
    exact .inr (.inr (.inl ⟨⟨a, rfl⟩, ((checkGroup_none .opens s).mp hc).2, doWriteStart_sess a s⟩))
  | writeStop =>
    obtain ⟨hc, rfl⟩ := check_of_sess_ne he hne
    exact .inr (.inr (.inr ⟨rfl, ((checkGroup_none .needsWrite s).mp hc).2, rfl⟩))
  | init => exact absurd (command_keeps_sess (doInit_sess s) he) hne
  | readByte l => exact absurd (command_keeps_sess (doReadByte_sess s) he) hne
  | writeByte d => exact absurd (command_keeps_sess (doWriteByte_sess d s) he) hne
  | writeIsbusy => exact absurd (command_keeps_sess (doWriteIsbusy_sess s) he) hne
  | erase a => exact absurd (command_keeps_sess (doErase_sess a s) he) hne
  | getsize => exact absurd (command_keeps_sess (doGetsize_sess s) he) hne
  | wren | pageProgram | sectorErase | readData | readStatus1 | readId =>
    cases he
    exact absurd (wireTxn_sess _ s) hne

end Sys2Proof.Machine
end

section
/-! PROOFS. The reference flash, rule by rule (R58 to R67): its replies, the length check at the deselect, and
the page buffer. -/

namespace Sys2Proof.Machine

section
variable {p : RfParams} {f : Rf} {op : Byte} {tl : List Byte}

/-- The byte at the opcode's place gets no defined reply (R59). -/
theorem Rf.reply_of_opcode (tx d : Byte) (ht : f.txn = []) : f.reply p tx d = d := by
  unfold Rf.reply
  split
  · rfl
  · split
    · rfl
    · simp [Rf.xferByte, ht]

/-- After the opcode, only a byte of a Read Data transaction faults (R62). -/
theorem Rf.xferFault_of_txn (tx : Byte) (ht : f.txn = op :: tl) (hop : op ≠ 0x03) : f.xferFault p tx = none := by
  simp only [Rf.xferFault, ht]
  exact if_neg fun h => hop h.1

/-- Where no fault is raised, a byte gets the reply its opcode defines (R60 to R64). -/
theorem Rf.reply_of_ok {tx : Byte} (d : Byte) (hf : f.fault = none) (hx : f.xferFault p tx = none) :
    f.reply p tx d = f.xferByte p d := by
  simp [Rf.reply, hf, hx]

/-- A deselect without a fault acts by the opcode of the transaction (R65). -/
theorem Rf.deselect_of_txn (hf : f.fault = none) (ht : f.txn = op :: tl) :
    f.deselect p = Rf.close p { f with sel := false } op := by
  simp [Rf.deselect, hf, ht]

/-- The lengths that an opcode does not allow (R65). -/
theorem lengthBad_iff (op : Byte) (n : Nat) : lengthBad op (n + 1) = true ↔
    (op = 0x06 ∧ n ≠ 0) ∨ (op = 0x20 ∧ n ≠ 3) ∨ ((op = 0x03 ∨ op = 0x02) ∧ n < 3) := by
  have hlt : n + 1 < 4 ↔ n < 3 := by omega
  simp [lengthBad, or_assoc, hlt]

/-- A transaction of a length its opcode does not allow is closed with `RF_TRUNC` and no action (R65). -/
theorem Rf.close_of_lengthBad (h : lengthBad op f.txn.length = true) :
    f.close p op = { f with fault := some .trunc } :=
  if_pos h

/-- A page program records no fault but `RF_RANGE` (R67). -/
theorem Rf.commitProgram_fault (hf : f.fault = none) :
    (f.commitProgram p).fault = none ∨ (f.commitProgram p).fault = some .range := by
  simp only [Rf.commitProgram]
  split
  · exact .inr rfl
  · split
    · exact .inl hf
    · exact .inl hf

/-- A sector erase records no fault but `RF_RANGE` and `RF_ALIGN` (R68). -/
theorem Rf.commitErase_fault (hf : f.fault = none) : (f.commitErase p).fault = none ∨
    (f.commitErase p).fault = some .range ∨ (f.commitErase p).fault = some .align := by
  simp only [Rf.commitErase]
  split
  · exact .inr (.inl rfl)
  · split
    · exact .inr (.inr rfl)
    · split
      · exact .inl hf
      · exact .inl hf

/-- A transaction of an allowed length is closed with no fault but those of its address (R67, R68). -/
theorem Rf.close_fault (hf : f.fault = none) (h : lengthBad op f.txn.length = false) :
    (f.close p op).fault = none ∨ (f.close p op).fault = some .range ∨ (f.close p op).fault = some .align := by
  unfold Rf.close
  rw [if_neg (by simp [h])]
  split
  · exact .inl hf
  · split
    · exact (Rf.commitProgram_fault hf).imp_right .inl
    · split
      · exact Rf.commitErase_fault hf
      · split
        · split
          · exact .inl hf
          · exact .inl hf
        · exact .inl hf

end

/-- Settles O36: the reply is the one of R60 at each index. -/
theorem deviceIdReply : Obligations.DeviceIdReply := by
  intro p f tl tx d hf ht
  have hreply : f.reply p tx d = f.xferByte p d := Rf.reply_of_ok d hf (Rf.xferFault_of_txn tx ht (by decide))
  simp only [hreply, Rf.xferByte, ht, if_true, List.length_cons]
  refine ⟨fun h => ?_, fun h => ?_, fun h => ?_, fun h => ?_⟩
  · simp [h]
  · simp [h]
  · simp [h]
  · rw [if_neg (by omega), if_neg (by omega), if_neg (by omega)]

/-- Settles O37: the action of R66 on a transaction of the write-enable opcode alone. -/
theorem writeEnableSetsLatch : Obligations.WriteEnableSetsLatch :=
  fun _ _ hf ht => Rf.deselect_of_wren hf ht

/-- Settles O38: every reaction looks at the recorded fault first (R58). -/
theorem faultedFlashIsFrozen : Obligations.FaultedFlashIsFrozen :=
  fun _ _ _ h => ⟨Rf.select_of_fault h, Rf.deselect_of_fault h, fun tx => Rf.exchange_of_fault tx h,
    fun tx d => Rf.reply_of_fault tx d h⟩

/-- Settles O39: the two checks of R59 in their order, on a transaction with no byte yet. -/
theorem opcodeByteFaults : Obligations.OpcodeByteFaults := by
  intro p f tx d hf ht
  refine ⟨by rw [Rf.exchange_of_ok tx hf, ht]; rfl, Rf.reply_of_opcode tx d ht, ?_⟩
  simp only [Rf.exchange_of_ok tx hf, Rf.xferFault, ht]
  split
  · rfl
  · exact ite_not _ _ _

/-- Settles O40: a length that R65 does not allow is the first thing a deselect looks at, and no later action
records `RF_TRUNC`. -/
theorem transactionLengthFaults : Obligations.TransactionLengthFaults := by
  intro p f op tl hf ht
  have hdes : f.deselect p = Rf.close p { f with sel := false } op := Rf.deselect_of_txn hf ht
  have hlen : f.txn.length = tl.length + 1 := by rw [ht]; rfl
  rw [← lengthBad_iff, ← hlen]
  by_cases hbad : lengthBad op f.txn.length = true
  · rw [hdes, Rf.close_of_lengthBad (f := { f with sel := false }) hbad]
    exact ⟨iff_of_true rfl hbad, fun _ => rfl⟩
  · have hne : (f.deselect p).fault ≠ some .trunc := by
      rw [hdes]
      rcases Rf.close_fault (p := p) (f := { f with sel := false }) hf (Bool.not_eq_true _ ▸ hbad) with h | h | h <;>
        simp [h]
    exact ⟨iff_of_false hne hbad, fun h => absurd h hne⟩

/-- The last data byte sent to an offset is the one that stands there. -/
theorem lastAt_of_last (pageSize off k : Nat) (data : List Byte) (i n : Nat) (b : Byte) (hn : n < data.length)
    (hk : (off + (i + n)) % pageSize = k)
    (hlast : ∀ n', n < n' → n' < data.length → (off + (i + n')) % pageSize ≠ k) :
    lastAt pageSize off k data i b = data.getD n 0xFF := by
  induction data generalizing i n b with
  | nil => simp at hn
  | cons d ds ih =>
    rw [lastAt]
    simp only [List.length_cons] at hn hlast
    cases n with
    | zero =>
      rw [if_pos (by simpa using hk), lastAt_of_none]
      · rfl
      · intro j h1 h2
        have := hlast (j - i) (by omega) (by omega)
        rwa [show i + (j - i) = j by omega] at this
    | succ n =>
      rw [ih (i + 1) n _ (by omega) (by rwa [show i + 1 + n = i + (n + 1) by omega])]
      · rfl
      · intro n' h1 h2
        have := hlast (n' + 1) (by omega) (by omega)
        rwa [show i + 1 + n' = i + (n' + 1) by omega]

/-- Settles O41: each byte of the page buffer is the last one sent to its offset, or 0xFF. -/
theorem laterProgramBytesWin : Obligations.LaterProgramBytesWin := by
  intro pageSize off data k hk
  rw [getD_pageBuffer pageSize off k hk data]
  refine ⟨fun j hj hjk hlast => ?_, fun hnone => ?_⟩
  · exact lastAt_of_last pageSize off k data 0 j 0xFF hj (by rwa [Nat.zero_add])
      (fun j' h1 h2 => by rw [Nat.zero_add]; exact hlast j' h1 h2)
  · exact lastAt_of_none pageSize off k data 0 0xFF fun i _ hi => hnone i (by omega)

end Sys2Proof.Machine
end

section
/-! PROOFS. The block at the wire: no reaction of the reference flash to it is `RF_OPCODE` or `RF_TRUNC`
(R59, R65, R71). -/

namespace Sys2Proof.Machine

/-- Between two states of the reference flash no misuse of the wire has been recorded: neither an opcode outside
the six nor a length its opcode does not allow (R71). -/
structure Rf.NoMisuse (f g : Rf) : Prop where
  opcode : g.fault = some .opcode → f.fault = some .opcode
  trunc : g.fault = some .trunc → f.fault = some .trunc

section
variable {p : RfParams} {f g h : Rf} {op : Byte}

theorem Rf.NoMisuse.of_eq (hf : g.fault = f.fault) : f.NoMisuse g :=
  ⟨fun hg => hf ▸ hg, fun hg => hf ▸ hg⟩

theorem Rf.NoMisuse.trans (h1 : f.NoMisuse g) (h2 : g.NoMisuse h) : f.NoMisuse h :=
  ⟨fun h' => h1.opcode (h2.opcode h'), fun h' => h1.trunc (h2.trunc h')⟩

/-- No byte raises `RF_TRUNC`, and only an opcode byte raises `RF_OPCODE` (R59, R62). -/
theorem Rf.NoMisuse.exchange (tx : Byte) (hop : f.fault = none → f.txn = [] → tx ∈ wireOpcodes) :
    f.NoMisuse (f.exchange p tx) := by
  cases hf : f.fault with
  | some c => exact .of_eq (by rw [Rf.exchange_of_fault tx hf])
  | none =>
    have hx : (f.exchange p tx).fault = f.xferFault p tx := by rw [Rf.exchange_of_ok tx hf]
    have hclean : f.xferFault p tx ≠ some .opcode ∧ f.xferFault p tx ≠ some .trunc := by
      unfold Rf.xferFault
      split
      · next ht =>
        split
        · simp
        · rw [if_neg (not_not_intro (hop hf ht))]; simp
      · split <;> simp
    rw [← hx] at hclean
    exact ⟨fun h' => absurd h' hclean.1, fun h' => absurd h' hclean.2⟩

/-- An exchange that leaves no fault leaves a transaction with a byte in it. -/
theorem Rf.exchange_txn_ne_nil (tx : Byte) (hf : (f.exchange p tx).fault = none) : (f.exchange p tx).txn ≠ [] := by
  rw [(Rf.exchange_ok hf).2]
  simp

theorem Rf.NoMisuse.exchangeAll (bs : List Byte) (hop : f.fault = none → f.txn ≠ []) :
    f.NoMisuse (f.exchangeAll p bs) := by
  induction bs generalizing f with
  | nil => exact .of_eq rfl
  | cons b bs ih => exact (Rf.NoMisuse.exchange b fun hf ht => absurd ht (hop hf)).trans (ih (Rf.exchange_txn_ne_nil b))

/-- A transaction opened with one of the six opcodes (R84). -/
theorem Rf.NoMisuse.opening (hop : op ∈ wireOpcodes) (bs : List Byte) :
    f.NoMisuse (f.select.exchangeAll p (op :: bs)) :=
  have hsel : f.NoMisuse f.select := .of_eq (Rf.select_fault f)
  have hbyte : f.select.NoMisuse (f.select.exchange p op) := .exchange op fun _ _ => hop
  (hsel.trans hbyte).trans (.exchangeAll bs (Rf.exchange_txn_ne_nil op))

/-- A transaction closed at a length its opcode allows (R65). -/
theorem Rf.NoMisuse.deselect
    (hlen : f.fault = none → ∃ op tl, f.txn = op :: tl ∧ lengthBad op (tl.length + 1) = false) :
    f.NoMisuse (f.deselect p) := by
  cases hf : f.fault with
  | some c => exact .of_eq (by rw [Rf.deselect_of_fault hf])
  | none =>
    obtain ⟨op, tl, ht, hl⟩ := hlen hf
    rw [Rf.deselect_of_txn hf ht]
    have hl' : lengthBad op f.txn.length = false := by rwa [ht]
    rcases Rf.close_fault (p := p) (f := { f with sel := false }) hf hl' with hc | hc | hc <;>
      exact ⟨by simp [hc], by simp [hc]⟩

/-- A whole transaction of an opcode and a length that R84 and R65 allow. -/
theorem Rf.NoMisuse.transact (hop : op ∈ wireOpcodes) (bs : List Byte) (hl : lengthBad op (bs.length + 1) = false) :
    f.NoMisuse (f.transact p (op :: bs)) := by
  refine (Rf.NoMisuse.opening (p := p) hop bs).trans (.deselect fun hf => ⟨op, bs, ?_, hl⟩)
  rcases Rf.select_exchangeAll p f (op :: bs) with ⟨c, hc⟩ | ⟨-, hx⟩
  · rw [hc] at hf
    cases hf
  · rw [hx]

theorem Rf.NoMisuse.wren : f.NoMisuse (f.transact p [0x06]) := .transact (by decide) [] rfl

/-- What every attached reference flash does right, the chip of a state does. -/
theorem Rf.NoMisuse.chip {s : State} {g : RfParams → Rf → Rf}
    (h : s.attached = true → s.rf.NoMisuse (g s.params s.rf)) : s.rf.NoMisuse (s.chip g) := by
  unfold State.chip
  split
  · next ha => exact h ha
  · exact .of_eq rfl

end

variable {s t : State}

/-- While a session is open, the transaction that the reference flash holds has a length that R65 allows. -/
theorem BusInv.session_length (h : BusInv s) (hs : s.sess ≠ .idle) (ha : s.attached = true) (hf : s.rf.fault = none) :
    ∃ op tl, s.rf.txn = op :: tl ∧ lengthBad op (tl.length + 1) = false := by
  obtain ⟨-, hr, hw⟩ := h ha hf
  cases hk : s.sess with
  | idle => exact absurd hk hs
  | read =>
    obtain ⟨a, n, ht⟩ := hr hk
    exact ⟨0x03, addrBytes a ++ List.replicate n placeholder, ht, by simp [lengthBad]⟩
  | write =>
    obtain ⟨a, d, ht, -, -⟩ := hw hk
    exact ⟨0x02, addrBytes a ++ d, ht, by simp [lengthBad]⟩

/-- The end of a session closes its transaction at a length that R65 allows. -/
theorem BusInv.sessionEnd_noMisuse (h : BusInv s) (hs : s.sess ≠ .idle) :
    s.rf.NoMisuse (s.chip fun p f => f.deselect p) :=
  .chip fun ha => .deselect (h.session_length hs ha)

/-- A byte exchanged in an open session is no opcode. -/
theorem BusInv.sessionByte_noMisuse (h : BusInv s) (hs : s.sess ≠ .idle) (tx : Byte) :
    s.rf.NoMisuse (s.chip fun p f => f.exchange p tx) :=
  .chip fun ha => .exchange tx fun hf ht => by
    obtain ⟨op, tl, ht', -⟩ := h.session_length hs ha hf
    simp [ht] at ht'

/-- A reset closes at most an open session's transaction (R231). -/
theorem BusInv.blockReset_noMisuse (hi : StateInv s) (h : BusInv s) : s.rf.NoMisuse (Machine.blockReset s).rf := by
  rw [blockReset_rf]
  split
  · next hcs => exact .deselect (h.session_length (hi.csSession.mp hcs.1) hcs.2)
  · exact .of_eq rfl

/-- Every command of the block uses the wire as R84 and R85 say. -/
theorem exec_noMisuse {i : Instr} {w : CmdWord} (h : BusInv s) (hw : encode i = .command w)
    (he : exec i s = .next t) : s.rf.NoMisuse t.rf := by
  rcases exec_next he with ⟨-, c, w, rfl⟩ | ⟨bs, henc, rfl⟩ | ⟨-, -, rfl⟩ | ⟨-, -, hcmd⟩
  · exact .of_eq rfl
  · simp [hw] at henc
  · rw [doInit_rf]
    exact .chip fun _ => .transact (by decide) _ rfl
  · rcases hcmd with rfl | ⟨-, ⟨a, rfl⟩ | ⟨a, rfl⟩ | rfl | ⟨a, rfl⟩⟩ | ⟨hs, rfl | rfl⟩ | ⟨hs, ⟨d, rfl⟩ | rfl⟩
    · exact .of_eq rfl
    · rw [doReadStart_rf]
      exact .chip fun _ => .opening (by decide) _
    · rw [doWriteStart_rf]
      exact .chip fun _ => Rf.NoMisuse.wren.trans (.opening (by decide) _)
    · rw [doWriteIsbusy_rf]
      exact .chip fun _ => .transact (by decide) _ rfl
    · rw [doErase_rf]
      exact .chip fun _ => Rf.NoMisuse.wren.trans (.transact (by decide) _ rfl)
    · exact h.sessionByte_noMisuse (by simp [hs]) placeholder
    · exact h.sessionEnd_noMisuse (by simp [hs])
    · exact h.sessionByte_noMisuse (by simp [hs]) d
    · exact h.sessionEnd_noMisuse (by simp [hs])

/-- Settles O46: each command opens its transactions with one of the six opcodes and closes them at a length of
R65, and so does a reset that ends a session; a wire item is not the block's. -/
theorem blockNeverMisusesTheWire : Obligations.BlockNeverMisusesTheWire := by
  intro s t hi h hb hstep
  have huse : s.rf.NoMisuse t.rf := by
    rcases step_change hstep with ⟨-, rfl⟩ | rfl | ⟨-, -, -, u, hu, hrun⟩
    · exact h.blockReset_noMisuse hi
    · exact .of_eq rfl
    · have hrf : t.rf = u.rf := by rcases hu with rfl | rfl <;> rfl
      rw [hrf]
      rcases hrun with ⟨i, he, hcmd⟩ | ⟨w, rfl⟩ | ⟨bs, -, hforeign⟩
      · obtain ⟨w, hw⟩ := hcmd hb
        exact exec_noMisuse h hw he
      · exact .of_eq rfl
      · exact absurd hb hforeign
  exact ⟨huse.opcode, huse.trunc⟩

end Sys2Proof.Machine
end

section
/-! PROOFS. Each transaction of R85 at a reference flash that takes its opcode: what it leaves of the chip, and
the bytes clocked back (R60 to R69). -/

namespace Sys2Proof.Machine

section
variable {p : RfParams} {f : Rf}

/-! ### The actions at the deselect -/

section
variable {a : Addr} (hta : txnAddr f.txn = a)
include hta

theorem Rf.commitProgram_of_range (ha : p.size ≤ a.toNat) : f.commitProgram p = f.raise .range :=
  if_pos (hta ▸ ha)

theorem Rf.commitProgram_of_latchClear (ha : a.toNat < p.size) (hw : f.wel = false) : f.commitProgram p = f :=
  (if_neg (by rw [hta]; omega)).trans (if_pos hw)

theorem Rf.commitErase_of_range (ha : p.size ≤ a.toNat) : f.commitErase p = f.raise .range :=
  if_pos (hta ▸ ha)

theorem Rf.commitErase_of_unaligned (ha : a.toNat < p.size) (hal : a.toNat % p.sectorSize ≠ 0) :
    f.commitErase p = f.raise .align :=
  (if_neg (by rw [hta]; omega)).trans (if_pos (hta ▸ hal))

theorem Rf.commitErase_of_latchClear (ha : a.toNat < p.size) (hal : a.toNat % p.sectorSize = 0)
    (hw : f.wel = false) : f.commitErase p = f :=
  (if_neg (by rw [hta]; omega)).trans ((if_neg (by rw [hta]; exact not_not_intro hal)).trans (if_pos hw))

theorem Rf.commitErase_of_latchSet (ha : a.toNat < p.size) (hal : a.toNat % p.sectorSize = 0)
    (hw : f.wel = true) :
    f.commitErase p = { f with mem := eraseSector p f.mem a.toNat, wel := false, busy := p.tErase } := by
  subst hta
  exact (if_neg (by omega)).trans ((if_neg (not_not_intro hal)).trans (if_neg (by simp [hw])))

end

/-! ### Whole transactions -/

/-- A transaction that is not a Read Data is received without a fault, where its opcode may be sent (R59). -/
theorem Rf.opening_of_ready {op : Byte} (hf : f.fault = none) (hop : op ∈ wireOpcodes) (h3 : op ≠ 0x03)
    (hb : f.busy = 0 ∨ op = 0x05) (bs : List Byte) :
    f.select.exchangeAll p (op :: bs) = { f with sel := true, txn := op :: bs } := by
  rw [Rf.select_of_ok hf, Rf.exchangeAll_cons,
    Rf.exchange_opcode (f := { f with sel := true, txn := [] }) hf rfl hop hb]
  exact Rf.exchangeAll_of_txn (f := { f with sel := true, txn := [op] }) hf rfl h3 bs

/-- WREN sets the latch (R66). -/
theorem Rf.transact_wren (hf : f.fault = none) (hb : f.busy = 0) :
    f.transact p [0x06] = { f with sel := false, txn := [0x06], wel := true } := by
  rw [Rf.transact_of_ready hf (by decide) (by decide) (.inl hb),
    Rf.deselect_of_wren (f := { f with sel := true, txn := [0x06] }) hf rfl]

section
variable (hf : f.fault = none) (hb : f.busy = 0) (a : Addr) (d : List Byte)
include hf hb

/-- A Page Program transaction ends in the action of R67. -/
theorem Rf.transact_program : f.transact p (0x02 :: addrBytes a ++ d) =
    Rf.commitProgram p { f with sel := false, txn := 0x02 :: addrBytes a ++ d } := by
  rw [List.cons_append, Rf.transact_of_ready hf (by decide) (by decide) (.inl hb),
    Rf.deselect_of_txn (f := { f with sel := true, txn := 0x02 :: (addrBytes a ++ d) }) hf rfl]
  unfold Rf.close
  rw [if_neg (by simp [lengthBad]), if_neg (by decide), if_pos rfl]

theorem Rf.transact_program_range (ha : p.size ≤ a.toNat) : f.transact p (0x02 :: addrBytes a ++ d) =
    { f with sel := false, txn := 0x02 :: addrBytes a ++ d, fault := some .range } := by
  rw [Rf.transact_program hf hb]
  exact Rf.commitProgram_of_range (txnAddr_addrBytes 0x02 a d) ha

theorem Rf.transact_program_latchClear (ha : a.toNat < p.size) (hw : f.wel = false) :
    f.transact p (0x02 :: addrBytes a ++ d) = { f with sel := false, txn := 0x02 :: addrBytes a ++ d } := by
  rw [Rf.transact_program hf hb]
  exact Rf.commitProgram_of_latchClear (txnAddr_addrBytes 0x02 a d) ha hw

theorem Rf.transact_program_latchSet (ha : a.toNat < p.size) (hw : f.wel = true) :
    f.transact p (0x02 :: addrBytes a ++ d) =
      { f with
        sel := false
        txn := 0x02 :: addrBytes a ++ d
        mem := programPage p f.mem a.toNat d
        wel := false
        busy := p.tProg } := by
  rw [List.cons_append, Rf.transact_of_ready hf (by decide) (by decide) (.inl hb)]
  exact Rf.deselect_of_program (f := { f with sel := true, txn := 0x02 :: addrBytes a ++ d }) hf rfl hw ha

/-- A Sector Erase transaction ends in the action of R68. -/
theorem Rf.transact_erase : f.transact p (0x20 :: addrBytes a) =
    Rf.commitErase p { f with sel := false, txn := 0x20 :: addrBytes a } := by
  rw [Rf.transact_of_ready hf (by decide) (by decide) (.inl hb),
    Rf.deselect_of_txn (f := { f with sel := true, txn := 0x20 :: addrBytes a }) hf rfl]
  unfold Rf.close
  rw [if_neg (by simp [lengthBad]), if_neg (by decide), if_neg (by decide), if_pos rfl]

theorem Rf.transact_erase_range (ha : p.size ≤ a.toNat) : f.transact p (0x20 :: addrBytes a) =
    { f with sel := false, txn := 0x20 :: addrBytes a, fault := some .range } := by
  rw [Rf.transact_erase hf hb]
  exact Rf.commitErase_of_range (addrOfBytes_addrBytes a) ha

theorem Rf.transact_erase_unaligned (ha : a.toNat < p.size) (hal : a.toNat % p.sectorSize ≠ 0) :
    f.transact p (0x20 :: addrBytes a) =
      { f with sel := false, txn := 0x20 :: addrBytes a, fault := some .align } := by
  rw [Rf.transact_erase hf hb]
  exact Rf.commitErase_of_unaligned (addrOfBytes_addrBytes a) ha hal

theorem Rf.transact_erase_latchClear (ha : a.toNat < p.size) (hal : a.toNat % p.sectorSize = 0)
    (hw : f.wel = false) :
    f.transact p (0x20 :: addrBytes a) = { f with sel := false, txn := 0x20 :: addrBytes a } := by
  rw [Rf.transact_erase hf hb]
  exact Rf.commitErase_of_latchClear (addrOfBytes_addrBytes a) ha hal hw

theorem Rf.transact_erase_latchSet (ha : a.toNat < p.size) (hal : a.toNat % p.sectorSize = 0)
    (hw : f.wel = true) :
    f.transact p (0x20 :: addrBytes a) =
      { f with
        sel := false
        txn := 0x20 :: addrBytes a
        mem := eraseSector p f.mem a.toNat
        wel := false
        busy := p.tErase } := by
  rw [Rf.transact_erase hf hb]
  exact Rf.commitErase_of_latchSet (addrOfBytes_addrBytes a) ha hal hw

end

/-- A Read Status transaction with a status byte counts a busy poll down (R69). -/
theorem Rf.transact_status (hf : f.fault = none) (n : Nat) :
    f.transact p (0x05 :: List.replicate n placeholder) =
      { f with
        sel := false
        txn := 0x05 :: List.replicate n placeholder
        busy := if 1 ≤ n then f.busy - 1 else f.busy } := by
  rw [Rf.transact_of_ready hf (by decide) (by decide) (.inr rfl),
    Rf.deselect_of_txn (f := { f with sel := true, txn := 0x05 :: List.replicate n placeholder }) hf rfl]
  unfold Rf.close
  rw [if_neg (by simp [lengthBad]), if_neg (by decide), if_neg (by decide), if_neg (by decide), if_pos rfl]
  by_cases hn : 1 ≤ n
  · by_cases hb : f.busy = 0 <;> simp [hn, hb, Nat.pos_of_ne_zero]
  · simp [hn]

/-- A Read Device ID transaction has no action at its deselect (R65). -/
theorem Rf.transact_readId (hf : f.fault = none) (hb : f.busy = 0) (bs : List Byte) :
    f.transact p (0x9F :: bs) = { f with sel := false, txn := 0x9F :: bs } := by
  rw [Rf.transact_of_ready hf (by decide) (by decide) (.inl hb),
    Rf.deselect_of_txn (f := { f with sel := true, txn := 0x9F :: bs }) hf rfl]
  unfold Rf.close
  rw [if_neg (by simp [lengthBad]), if_neg (by decide), if_neg (by decide), if_neg (by decide),
    if_neg (by decide)]

/-! ### Read Data, byte by byte (R62) -/

/-- The opcode and the address of a Read Data transaction fault on nothing. -/
theorem Rf.opening_read (hf : f.fault = none) (hb : f.busy = 0) (a : Addr) :
    f.select.exchangeAll p (0x03 :: addrBytes a) = { f with sel := true, txn := wireBytesOf (.readData a 0) } := by
  rw [Rf.select_of_ok hf, Rf.exchangeAll_cons,
    Rf.exchange_opcode (f := { f with sel := true, txn := [] }) hf rfl (by decide) (.inl hb),
    Rf.exchangeAll_of_read (f := { f with sel := true, txn := [0x03] }) (tl := []) hf rfl]
  · rfl
  · intro i h1 h2
    simp at h1
    omega

variable {a : Addr} {k : Nat}

/-- What the rules of R62 read of a Read Data transaction after `k` bytes: its opcode, that its address is
complete, and the address it has come to. -/
theorem readData_txn (ht : f.txn = wireBytesOf (.readData a k)) :
    ∃ tl, f.txn = 0x03 :: tl ∧ 4 ≤ (0x03 :: tl).length ∧
      readAddr (0x03 :: tl) (0x03 :: tl).length = a.toNat + k := by
  refine ⟨addrBytes a ++ List.replicate k placeholder, ht, by simp, ?_⟩
  have hlen : (0x03 :: (addrBytes a ++ List.replicate k placeholder)).length - 4 = k := by simp
  rw [readAddr, hlen]
  exact congrArg (BitVec.toNat · + k) (txnAddr_addrBytes 0x03 a _)

/-- A byte read faults exactly where its address lies at or beyond `P`. -/
theorem Rf.xferFault_of_read (tx : Byte) (ht : f.txn = wireBytesOf (.readData a k)) :
    f.xferFault p tx = if p.size ≤ a.toNat + k then some .range else none := by
  obtain ⟨tl, ht, hlen, haddr⟩ := readData_txn ht
  simp only [Rf.xferFault, ht, hlen, haddr, true_and]

/-- A byte read in the chip is the array's byte there. -/
theorem Rf.reply_of_read (tx d : Byte) (hf : f.fault = none) (ht : f.txn = wireBytesOf (.readData a k))
    (h : a.toNat + k < p.size) : f.reply p tx d = memRead p.image f.mem (a.toNat + k) := by
  rw [Rf.reply_of_ok d hf ((Rf.xferFault_of_read tx ht).trans (if_neg (by omega)))]
  obtain ⟨tl, ht, hlen, haddr⟩ := readData_txn ht
  simp only [Rf.xferByte, ht, hlen, haddr, and_self, if_true]
  rw [if_neg (by decide), if_neg (by decide)]

/-- A byte read in the chip continues the transaction. -/
theorem Rf.exchange_of_read (hf : f.fault = none) (ht : f.txn = wireBytesOf (.readData a k))
    (h : a.toNat + k < p.size) :
    f.exchange p placeholder = { f with txn := wireBytesOf (.readData a (k + 1)) } := by
  rw [Rf.exchange_of_ok _ hf, Rf.xferFault_of_read _ ht, if_neg (by omega), ht, hf, wireBytesOf_readData_succ]
  rfl

/-- A run of bytes read in the chip continues the transaction. -/
theorem Rf.exchangeAll_placeholders (n : Nat) (hf : f.fault = none) (ht : f.txn = wireBytesOf (.readData a k))
    (h : a.toNat + k + n ≤ p.size) :
    f.exchangeAll p (List.replicate n placeholder) = { f with txn := wireBytesOf (.readData a (k + n)) } := by
  induction n generalizing f k with
  | zero => rw [Nat.add_zero, ← ht]; rfl
  | succ n ih =>
    rw [List.replicate_succ, Rf.exchangeAll_cons, Rf.exchange_of_read hf ht (by omega),
      ih (f := { f with txn := wireBytesOf (.readData a (k + 1)) }) (k := k + 1) hf rfl (by omega),
      Nat.add_right_comm k 1 n]
    rfl

/-- A run of bytes read past the end of the chip records `RF_RANGE`. -/
theorem Rf.exchangeAll_beyond (n : Nat) (hf : f.fault = none) (ht : f.txn = wireBytesOf (.readData a k))
    (hn : 0 < n) (h : p.size < a.toNat + k + n) :
    (f.exchangeAll p (List.replicate n placeholder)).fault = some .range := by
  induction n generalizing f k with
  | zero => cases hn
  | succ n ih =>
    rw [List.replicate_succ, Rf.exchangeAll_cons]
    by_cases hk : p.size ≤ a.toNat + k
    · have hx : (f.exchange p placeholder).fault = some .range := by
        rw [Rf.exchange_of_ok _ hf, Rf.xferFault_of_read _ ht, if_pos hk]
      rw [Rf.exchangeAll_of_fault hx, hx]
    · rw [Rf.exchange_of_read hf ht (by omega)]
      exact ih (f := { f with txn := wireBytesOf (.readData a (k + 1)) }) (k := k + 1) hf rfl (by omega) (by omega)

/-- The bytes clocked back by a run of bytes read in the chip: the array's from the address on. -/
theorem Rf.replyAll_of_read (n j : Nat) (hf : f.fault = none) (ht : f.txn = wireBytesOf (.readData a k))
    (h : a.toNat + k + n ≤ p.size) : f.replyAll p j (List.replicate n placeholder) =
      (List.range n).map fun i => memRead p.image f.mem (a.toNat + k + i) := by
  induction n generalizing f k j with
  | zero => rfl
  | succ n ih =>
    rw [List.replicate_succ, Rf.replyAll, Rf.reply_of_read _ _ hf ht (by omega),
      Rf.exchange_of_read hf ht (by omega),
      ih (f := { f with txn := wireBytesOf (.readData a (k + 1)) }) (k := k + 1) _ hf rfl (by omega),
      List.range_succ_eq_map, List.map_cons, List.map_map]
    exact congrArg _ (List.map_congr_left fun i _ => congrArg (memRead p.image f.mem) (by omega))

/-- A Read Data transaction in the chip leaves everything but the transaction itself. -/
theorem Rf.transact_read (hf : f.fault = none) (hb : f.busy = 0) (a : Addr) (n : Nat) (h : a.toNat + n ≤ p.size) :
    f.transact p (wireBytesOf (.readData a n)) = { f with sel := false, txn := wireBytesOf (.readData a n) } := by
  have hx : f.select.exchangeAll p (wireBytesOf (.readData a n)) =
      { f with sel := true, txn := wireBytesOf (.readData a n) } := by
    have := Rf.exchangeAll_placeholders (p := p) (f := { f with sel := true, txn := wireBytesOf (.readData a 0) })
      n hf rfl (by omega)
    rw [Nat.zero_add, ← Rf.opening_read hf hb, ← Rf.exchangeAll_append] at this
    exact this.trans (by rw [Rf.opening_read hf hb])
  unfold Rf.transact
  rw [hx, Rf.deselect_of_read (f := { f with sel := true, txn := wireBytesOf (.readData a n) }) hf rfl]

/-- A Read Data transaction that reads past the end of the chip records `RF_RANGE`. -/
theorem Rf.transact_read_beyond (hf : f.fault = none) (hb : f.busy = 0) (a : Addr) (n : Nat) (hn : 0 < n)
    (h : p.size < a.toNat + n) : (f.transact p (wireBytesOf (.readData a n))).fault = some .range := by
  have hx := Rf.exchangeAll_beyond (p := p) (f := { f with sel := true, txn := wireBytesOf (.readData a 0) })
    n hf rfl hn (by omega)
  rw [← Rf.opening_read hf hb, ← Rf.exchangeAll_append] at hx
  exact (congrArg Rf.fault (Rf.deselect_of_fault hx)).trans hx

/-! ### Status and device ID -/

/-- A byte after the Read Status opcode is the status byte (R61). -/
theorem Rf.reply_of_status {tl : List Byte} (tx d : Byte) (hf : f.fault = none) (ht : f.txn = 0x05 :: tl) :
    f.reply p tx d = statusByte f.busy := by
  rw [Rf.reply_of_ok d hf (Rf.xferFault_of_txn tx ht (by decide))]
  simp [Rf.xferByte, ht]

/-- Every byte after the Read Status opcode is the same status byte: the count moves at the deselect (R61, R69). -/
theorem Rf.replyAll_of_status {tl : List Byte} (j : Nat) (bs : List Byte) (hf : f.fault = none)
    (ht : f.txn = 0x05 :: tl) : f.replyAll p j bs = List.replicate bs.length (statusByte f.busy) := by
  induction bs generalizing f tl j with
  | nil => rfl
  | cons b bs ih =>
    have hx : f.exchange p b = { f with txn := f.txn ++ [b] } :=
      Rf.exchangeAll_of_txn hf ht (by decide) [b]
    rw [Rf.replyAll, Rf.reply_of_status b _ hf ht, hx,
      ih (f := { f with txn := f.txn ++ [b] }) (tl := tl ++ [b]) _ hf (by rw [ht]; rfl)]
    rfl

/-- The first three bytes after the Read Device ID opcode are the device ID (R60). -/
theorem Rf.take_replyAll_of_readId (j n : Nat) (hf : f.fault = none) (ht : f.txn = [0x9F]) :
    (f.replyAll p j (List.replicate n placeholder)).take 3 = [p.mfr, p.type, p.capCode].take n := by
  have hx (bs : List Byte) : f.exchangeAll p bs = { f with txn := f.txn ++ bs } :=
    Rf.exchangeAll_of_txn hf ht (by decide) bs
  have hid (bs : List Byte) (d : Byte) := deviceIdReply p (f.exchangeAll p bs) bs placeholder d
    (by rw [hx]; exact hf) (by rw [hx, ht]; rfl)
  have h1 (d : Byte) : f.reply p placeholder d = p.mfr := (hid [] d).1 rfl
  have h2 (d : Byte) : (f.exchange p placeholder).reply p placeholder d = p.type := (hid [placeholder] d).2.1 rfl
  have h3 (d : Byte) : ((f.exchange p placeholder).exchange p placeholder).reply p placeholder d = p.capCode :=
    (hid [placeholder, placeholder] d).2.2.1 rfl
  match n with
  | 0 => rfl
  | 1 => simp [Rf.replyAll, h1]
  | 2 => simp [List.replicate_succ, Rf.replyAll, h1, h2]
  | n + 3 => simp [List.replicate_succ, Rf.replyAll, h1, h2, h3]

end

end Sys2Proof.Machine
end

section
/-! PROOFS. The wire transactions of another bus master (R84, R85, log entry 6): their events, their frame, and
what the reference flash makes of each. -/

namespace Sys2Proof.Machine

/-! ### Events and received bytes -/

/-- The bytes received in a run of exchanges of another bus master. -/
def wireReceived : List Byte → State → List Byte
  | [], _ => []
  | b :: bs, s => received b s :: wireReceived bs (wireXfer b s)

@[simp] theorem length_wireReceived (bs : List Byte) (s : State) : (wireReceived bs s).length = bs.length := by
  induction bs generalizing s with
  | nil => rfl
  | cons b bs ih => simp [wireReceived, ih]

theorem wireReceived_append (bs cs : List Byte) (s : State) :
    wireReceived (bs ++ cs) s = wireReceived bs s ++ wireReceived cs (wireXferAll bs s) := by
  induction bs generalizing s with
  | nil => rfl
  | cons b bs ih => simp [wireReceived, wireXferAll, ih]

/-- The attached reference flash's replies are what another bus master receives (R10). -/
theorem wireReceived_of_attached (bs : List Byte) {s : State} (ha : s.attached = true) :
    wireReceived bs s = s.rf.replyAll s.params s.draws bs := by
  induction bs generalizing s with
  | nil => rfl
  | cons b bs ih => simp [wireReceived, Rf.replyAll, ih (s := wireXfer b s) ha, received, ha]

theorem wireXferAll_wireLog (bs : List Byte) (s : State) :
    (wireXferAll bs s).wireLog = s.wireLog ++ List.zipWith .xfer bs (wireReceived bs s) := by
  induction bs generalizing s with
  | nil => simp [wireXferAll]
  | cons b bs ih => simp [wireXferAll, wireReceived, ih]

/-- The events of a whole wire transaction (R85). -/
theorem wireTxn_wireLog (bs : List Byte) (s : State) : (wireTxn bs s).wireLog =
    s.wireLog ++ (.csa :: List.zipWith .xfer bs (wireReceived bs (wireSelect s)) ++ [.csd]) := by
  simp [wireTxn, wireXferAll_wireLog]

/-- Exchanges of placeholders, written by the bytes received. -/
theorem zipWith_placeholders {n : Nat} {rxs : List Byte} (h : rxs.length = n) :
    List.zipWith BusEvent.xfer (List.replicate n placeholder) rxs = rxs.map (.xfer 0xFF) := by
  induction rxs generalizing n with
  | nil => simp
  | cons r rxs ih =>
    subst h
    simpa [List.replicate_succ, placeholder] using ih rfl

/-- The bytes that `n` placeholders after the bytes `hdr` receive. -/
def wireData (hdr : List Byte) (n : Nat) (s : State) : List Byte :=
  wireReceived (List.replicate n placeholder) (wireXferAll hdr (wireSelect s))

@[simp] theorem length_wireData (hdr : List Byte) (n : Nat) (s : State) : (wireData hdr n s).length = n := by
  simp [wireData]

/-- The events of a transaction that clocks out `n` bytes after the bytes `hdr`. -/
theorem wireTxn_reading_wireLog (hdr : List Byte) (n : Nat) (s : State) :
    (wireTxn (hdr ++ List.replicate n placeholder) s).wireLog = s.wireLog ++
      (.csa :: List.zipWith .xfer hdr (wireReceived hdr (wireSelect s)) ++ (wireData hdr n s).map (.xfer 0xFF) ++
        [.csd]) := by
  rw [wireTxn_wireLog, wireReceived_append, List.zipWith_append (by simp), ← wireData,
    zipWith_placeholders (length_wireData hdr n s)]
  simp

/-- The data bytes are the replies of a reference flash that has received `hdr`. -/
theorem wireData_of_attached (hdr : List Byte) (n : Nat) {s : State} (ha : s.attached = true) :
    ∃ j, wireData hdr n s =
      (s.rf.select.exchangeAll s.params hdr).replyAll s.params j (List.replicate n placeholder) := by
  have hrf : (wireXferAll hdr (wireSelect s)).rf = s.rf.select.exchangeAll s.params hdr := by
    simp [wireXferAll_rf, State.chip, ha]
  exact ⟨(wireXferAll hdr (wireSelect s)).draws, by
    rw [wireData, wireReceived_of_attached _ (by simpa using ha), hrf]; simp⟩

/-! ### Frames -/

theorem BlockSame.wireTxn (bs : List Byte) (s : State) : BlockSame s (wireTxn bs s) := by
  constructor <;> simp

theorem CallerSame.wireTxn (bs : List Byte) (s : State) : CallerSame s (wireTxn bs s) := by
  constructor <;> simp

/-- A transaction that is neither a Page Program nor a Sector Erase changes no byte of the array. -/
theorem FlashSame.wireTxn {op : Byte} (bs : List Byte) (s : State) (h2 : op ≠ 0x02) (h20 : op ≠ 0x20) :
    FlashSame s (wireTxn (op :: bs) s) :=
  .of_mem (by simp) (by rw [wireTxn_rf]; exact State.chip_mem fun _ _ => Rf.transact_mem op bs h2 h20)

theorem flashByte_wireTxn (bs : List Byte) (s : State) (x : Nat) :
    (wireTxn bs s).flashByte x = memRead s.params.image (s.chip fun p f => f.transact p bs).mem x := by
  simp [State.flashByte, wireTxn_rf]

/-- A Page Program changes no byte outside its page. -/
theorem FlashSameOutside.wireTxn_program (a : Addr) (d : List Byte) (s : State) :
    FlashSameOutside (a.toNat - a.toNat % s.params.pageSize) s.params.pageSize s
      (wireTxn (0x02 :: addrBytes a ++ d) s) := by
  intro x hx
  rw [flashByte_wireTxn]
  unfold State.chip
  split
  · exact Rf.transact_program_outside (addrBytes a ++ d) x (by
      rwa [show txnAddr (0x02 :: (addrBytes a ++ d)) = a from txnAddr_addrBytes 0x02 a d])
  · rfl

/-- A Sector Erase changes no byte outside its sector. -/
theorem FlashSameOutside.wireTxn_erase (a : Addr) (s : State) :
    FlashSameOutside a.toNat s.params.sectorSize s (wireTxn (0x20 :: addrBytes a) s) := by
  intro x hx
  rw [flashByte_wireTxn]
  unfold State.chip
  split
  · exact Rf.transact_erase_outside (addrBytes a) x (by
      rwa [show txnAddr (0x20 :: addrBytes a) = a from addrOfBytes_addrBytes a])
  · rfl

/-! ### The six wire opcodes -/

variable {s : State}

theorem wireTxn_rf_of_attached (bs : List Byte) (ha : s.attached = true) :
    (wireTxn bs s).rf = s.rf.transact s.params bs := by
  rw [wireTxn_rf, State.chip_of_attached ha]

/-- Settles O21: the transaction of one byte, whose deselect sets the latch. -/
theorem wrenCompletes : Obligations.WrenCompletes := by
  intro s
  refine ⟨wireTxn [0x06] s, _, rfl, wireTxn_wireLog [0x06] s, .wireTxn _ s, .wireTxn _ s,
    .wireTxn [] s (by decide) (by decide), fun ha hf hb => ?_⟩
  rw [wireTxn_rf_of_attached _ ha, Rf.transact_wren hf hb]
  exact ⟨rfl, hf⟩

/-- Settles O22: the frame holds for any chip; the reference flash ends in the action of R67. -/
theorem pageProgramCompletes : Obligations.PageProgramCompletes := by
  intro s a d
  refine ⟨wireTxn (0x02 :: addrBytes a ++ d) s, _, rfl, ?_, wireTxn_wireLog _ s, .wireTxn _ s, .wireTxn _ s,
    .wireTxn_program a d s, fun ha hf hb hr => ?_, fun ha hf hb hr => ?_⟩
  · simp; omega
  · have hrf := (wireTxn_rf_of_attached _ ha).trans (Rf.transact_program_range hf hb a d hr)
    exact ⟨by rw [hrf], .of_mem (by simp) (by rw [hrf])⟩
  · cases hw : s.rf.wel with
    | false =>
      have hrf := (wireTxn_rf_of_attached _ ha).trans (Rf.transact_program_latchClear hf hb a d hr hw)
      exact ⟨by rw [hrf]; exact hf, by rw [hrf]; exact hw, nofun,
        fun _ => ⟨by rw [hrf]; exact hb, .of_mem (by simp) (by rw [hrf])⟩⟩
    | true =>
      have hrf := (wireTxn_rf_of_attached _ ha).trans (Rf.transact_program_latchSet hf hb a d hr hw)
      refine ⟨by rw [hrf]; exact hf, by rw [hrf], fun _ => ⟨by rw [hrf], fun hm k hk => ?_⟩, nofun⟩
      simp only [State.flashByte, hrf, wireTxn_params]
      rw [memRead_programPage s.params hm.1, if_pos (by omega), Nat.add_sub_cancel_left]

/-- Settles O23: the frame holds for any chip; the reference flash ends in the action of R68. -/
theorem sectorEraseCompletes : Obligations.SectorEraseCompletes := by
  intro s a
  refine ⟨wireTxn (0x20 :: addrBytes a) s, _, _, _, _, rfl, wireTxn_wireLog _ s, .wireTxn _ s, .wireTxn _ s,
    .wireTxn_erase a s, fun ha hf hb => ⟨fun hr => ?_, fun hr hal => ?_, fun hr hal => ?_⟩⟩
  · have hrf := (wireTxn_rf_of_attached _ ha).trans (Rf.transact_erase_range hf hb a hr)
    exact ⟨by rw [hrf], .of_mem (by simp) (by rw [hrf])⟩
  · have hrf := (wireTxn_rf_of_attached _ ha).trans (Rf.transact_erase_unaligned hf hb a hr hal)
    exact ⟨by rw [hrf], .of_mem (by simp) (by rw [hrf])⟩
  · cases hw : s.rf.wel with
    | false =>
      have hrf := (wireTxn_rf_of_attached _ ha).trans (Rf.transact_erase_latchClear hf hb a hr hal hw)
      exact ⟨by rw [hrf]; exact hf, fun _ => .of_mem (by simp) (by rw [hrf]), nofun⟩
    | true =>
      have hrf := (wireTxn_rf_of_attached _ ha).trans (Rf.transact_erase_latchSet hf hb a hr hal hw)
      refine ⟨by rw [hrf]; exact hf, nofun, fun _ hm => ⟨by rw [hrf], by rw [hrf], fun k hk => ?_⟩⟩
      simp only [State.flashByte, hrf, wireTxn_params]
      rw [memRead_eraseSector s.params hm.1, if_pos (by omega)]

/-- Settles O24: the opcode and the address fault on nothing, and each byte after them is read in the chip or
faults. -/
theorem readDataCompletes : Obligations.ReadDataCompletes := by
  intro s a n
  refine ⟨wireTxn (wireBytesOf (.readData a n)) s, _, wireData (0x03 :: addrBytes a) n s, rfl, ?_,
    length_wireData _ n s, wireTxn_reading_wireLog (0x03 :: addrBytes a) n s, .wireTxn _ s, .wireTxn _ s,
    .wireTxn _ s (by decide) (by decide), fun ha hf hb hn hr => ?_, fun ha hf hb hr => ⟨?_, ?_⟩⟩
  · rw [length_wireReceived]; rfl
  · rw [wireTxn_rf_of_attached _ ha]
    exact Rf.transact_read_beyond hf hb a n hn hr
  · rw [wireTxn_rf_of_attached _ ha, Rf.transact_read hf hb a n hr]
    exact hf
  · obtain ⟨j, hdata⟩ := wireData_of_attached (0x03 :: addrBytes a) n ha
    rw [hdata, Rf.opening_read hf hb]
    exact Rf.replyAll_of_read (f := { s.rf with sel := true, txn := wireBytesOf (.readData a 0) }) n j hf rfl hr

/-- Settles O25: Read Status is taken while busy too, and every byte of one transaction is the same status byte. -/
theorem readStatusCompletes : Obligations.ReadStatusCompletes := by
  intro s n
  refine ⟨wireTxn (0x05 :: List.replicate n placeholder) s, _, wireData [0x05] n s, rfl, length_wireData _ n s,
    wireTxn_reading_wireLog [0x05] n s, .wireTxn _ s, .wireTxn _ s, .wireTxn _ s (by decide) (by decide),
    fun ha hf => ?_⟩
  have hrf : (wireTxn (0x05 :: List.replicate n placeholder) s).rf = _ :=
    (wireTxn_rf_of_attached _ ha).trans (Rf.transact_status hf n)
  refine ⟨by rw [hrf]; exact hf, ?_, by rw [hrf]⟩
  obtain ⟨j, hdata⟩ := wireData_of_attached [0x05] n ha
  rw [hdata, Rf.opening_of_ready hf (by decide) (by decide) (.inr rfl),
    Rf.replyAll_of_status (f := { s.rf with sel := true, txn := [0x05] }) j _ hf rfl,
    List.length_replicate]
  rfl

/-- Settles O26: the replies of R60, the first three of them whatever the number of bytes. -/
theorem readIdCompletes : Obligations.ReadIdCompletes := by
  intro s n
  refine ⟨wireTxn (0x9F :: List.replicate n placeholder) s, _, wireData [0x9F] n s, rfl, length_wireData _ n s,
    wireTxn_reading_wireLog [0x9F] n s, .wireTxn _ s, .wireTxn _ s, .wireTxn _ s (by decide) (by decide),
    fun ha hf hb => ⟨?_, ?_⟩⟩
  · rw [wireTxn_rf_of_attached _ ha, Rf.transact_readId hf hb]
    exact hf
  · obtain ⟨j, hdata⟩ := wireData_of_attached [0x9F] n ha
    rw [hdata, Rf.opening_of_ready hf (by decide) (by decide) (.inl hb)]
    exact Rf.take_replyAll_of_readId (f := { s.rf with sel := true, txn := [0x9F] }) j n hf rfl

end Sys2Proof.Machine
end

section
/-! PROOFS. The block and a reference flash that has recorded no fault, between sessions and in a session: what
each command of a session makes of the two together (R43, R62, R67, R68, R69). -/

namespace Sys2Proof.Machine

/-! ### Sequences -/

section
variable {s t : State} {i : Instr}

theorem execSeq_cons (he : exec i s = .next t) (is : List Instr) : execSeq (i :: is) s = execSeq is t := by
  rw [execSeq, he]

theorem responses_cons (he : exec i s = .next t) (is : List Instr) :
    responses (i :: is) s = t.resp :: responses is t := by
  rw [responses, he]

theorem execSeq_append {is : List Instr} (h : execSeq is s = .next t) (js : List Instr) :
    execSeq (is ++ js) s = execSeq js t := by
  induction is generalizing s with
  | nil => cases h; rfl
  | cons i is ih =>
    cases he : exec i s with
    | next u =>
      rw [execSeq_cons he] at h
      rw [List.cons_append, execSeq_cons he, ih h]
    | fault r => rw [execSeq, he] at h; cases h
    | refused r => rw [execSeq, he] at h; cases h

end

/-! ### The block and the chip together -/

/-- A reference flash that has recorded no fault. -/
abbrev Rf.up (m : List Host.Cell) (w : Bool) (b : Nat) (sel : Bool) (txn : List Byte) : Rf :=
  { mem := m, wel := w, busy := b, sel := sel, txn := txn, fault := none }

/-- No session is open, the block takes the commands that open one, and the attached reference flash with the
parameters `p` holds the array `m`, the latch `w` and the busy count `b`; the transaction it last saw does not
matter. -/
structure Resting (p : RfParams) (m : List Host.Cell) (w : Bool) (b : Nat) (s : State) : Prop where
  accepts : s.acceptsOpen
  attached : s.attached = true
  params : s.params = p
  rf : ∃ sel txn, s.rf = Rf.up m w b sel txn

/-- A read session at the address `a` after `k` bytes, against such a reference flash. -/
structure Reading (p : RfParams) (m : List Host.Cell) (w : Bool) (a : Addr) (k : Nat) (s : State) : Prop where
  accepts : s.accepts
  sess : s.sess = .read
  attached : s.attached = true
  params : s.params = p
  rf : s.rf =
    Rf.up m w 0 true (wireBytesOf (.readData a k))

/-- A program session at the address `a` after the bytes `d`, against such a reference flash. -/
structure Writing (p : RfParams) (m : List Host.Cell) (a : Addr) (d : List Byte) (s : State) : Prop where
  accepts : s.accepts
  sess : s.sess = .write
  attached : s.attached = true
  params : s.params = p
  rf : s.rf =
    Rf.up m true 0 true (wireBytesOf (.pageProgram a d))

variable {p : RfParams} {m : List Host.Cell} {w : Bool} {b k : Nat} {a : Addr} {d : List Byte} {s t : State}

theorem Resting.of_flashUp (h : s.acceptsOpen) (hu : s.flashUp) :
    Resting s.params s.rf.mem s.rf.wel s.rf.busy s :=
  ⟨h, hu.1, rfl, s.rf.sel, s.rf.txn, by rw [Rf.up, ← hu.2.2]⟩

theorem Resting.rf_fault (h : Resting p m w b s) : s.rf.fault = none := by
  obtain ⟨sel, txn, hrf⟩ := h.rf
  rw [hrf]

theorem Resting.rf_mem (h : Resting p m w b s) : s.rf.mem = m := by
  obtain ⟨sel, txn, hrf⟩ := h.rf
  rw [hrf]

theorem Resting.rf_wel (h : Resting p m w b s) : s.rf.wel = w := by
  obtain ⟨sel, txn, hrf⟩ := h.rf
  rw [hrf]

theorem Resting.rf_busy (h : Resting p m w b s) : s.rf.busy = b := by
  obtain ⟨sel, txn, hrf⟩ := h.rf
  rw [hrf]

theorem Resting.flashByte (h : Resting p m w b s) (x : Nat) : s.flashByte x = memRead p.image m x := by
  rw [State.flashByte, h.params, h.rf_mem]

/-- What keeps the block's fault, `init_done` and session and the environment keeps the block resting. -/
theorem Resting.of_same {m' : List Host.Cell} {w' : Bool} {b' : Nat} (h : Resting p m w b s)
    (hf : t.fault = s.fault) (hd : t.initDone = s.initDone) (hs : t.sess = s.sess) (ha : t.attached = s.attached)
    (hp : t.params = s.params)
    (hrf : ∃ sel txn, t.rf = Rf.up m' w' b' sel txn) :
    Resting p m' w' b' t :=
  ⟨⟨⟨hf ▸ h.accepts.1.1, hd.trans h.accepts.1.2⟩, hs.trans h.accepts.2⟩, ha.trans h.attached,
    hp.trans h.params, hrf⟩

/-- The byte received from an attached reference flash (R10). -/
theorem received_of_attached (tx : Byte) (ha : s.attached = true) :
    received tx s = s.rf.reply s.params tx (Config.draw s.draws) :=
  if_pos ha

/-! ### Polls and erases -/

theorem statusBusy_statusByte (b : Nat) : statusBusy (statusByte b) = decide (0 < b) := by
  by_cases hb : 0 < b
  · simp [statusByte, hb, statusBusy]
  · simp [statusByte, hb, statusBusy]

/-- A poll counts the busy count down (R69). -/
theorem Resting.doWriteIsbusy (h : Resting p m w b s) : Resting p m w (b - 1) (doWriteIsbusy s) := by
  obtain ⟨sel, txn, hrf⟩ := h.rf
  refine h.of_same rfl rfl rfl rfl rfl ?_
  rw [doWriteIsbusy_rf, State.chip_of_attached h.attached, hrf]
  exact ⟨_, _, Rf.transact_status rfl 1⟩

/-- A poll answers whether the flash was busy before it (R61, R161). -/
theorem Resting.resp_doWriteIsbusy (h : Resting p m w b s) :
    (Machine.doWriteIsbusy s).resp = some (.bool (decide (0 < b))) := by
  obtain ⟨sel, txn, hrf⟩ := h.rf
  have hopen : (xfer 0x05 (csAssert s)).rf =
      Rf.up m w b true [0x05] := by
    rw [show (xfer 0x05 (csAssert s)).rf = _ from opening_rf [0x05] s, State.chip_of_attached h.attached, hrf]
    exact Rf.opening_of_ready (f := Rf.up m w b sel txn) rfl (by decide) (by decide) (.inr rfl) []
  have hbyte : received placeholder (xfer 0x05 (csAssert s)) = statusByte b := by
    rw [received_of_attached (s := xfer 0x05 (csAssert s)) placeholder h.attached, hopen]
    exact Rf.reply_of_status _ _ rfl rfl
  rw [← statusBusy_statusByte, ← hbyte]
  rfl

/-- One poll more than the busy count ends with an answer of not busy (R69, R245). -/
theorem Resting.polls (h : Resting p m w b s) :
    ∃ t, execSeq (List.replicate (b + 1) .writeIsbusy) s = .next t ∧ t.resp = some (.bool false) ∧
      Resting p m w 0 t := by
  induction b generalizing s with
  | zero => exact ⟨_, execSeq_cons (exec_writeIsbusy h.accepts) [], h.resp_doWriteIsbusy, h.doWriteIsbusy⟩
  | succ b ih =>
    obtain ⟨t, ht, hresp, hrest⟩ := ih h.doWriteIsbusy
    exact ⟨t, (execSeq_cons (exec_writeIsbusy h.accepts) _).trans ht, hresp, hrest⟩

/-- The erase of an aligned sector (R68, R162). -/
theorem Resting.doErase (h : Resting p m w 0 s) (ha : a.toNat < p.size) (hal : a.toNat % p.sectorSize = 0) :
    Resting p (eraseSector p m a.toNat) false p.tErase (doErase a s) := by
  obtain ⟨sel, txn, hrf⟩ := h.rf
  refine h.of_same (doErase_fault a s) (doErase_initDone a s) (doErase_sess a s) (doErase_attached a s)
    (doErase_params a s) ?_
  rw [doErase_rf, State.chip_of_attached h.attached, hrf, h.params, Rf.transact_wren rfl rfl]
  exact ⟨_, _, Rf.transact_erase_latchSet rfl rfl a ha hal rfl⟩

/-! ### A read session -/

theorem Resting.doReadStart (h : Resting p m w 0 s) (a : Addr) : Reading p m w a 0 (doReadStart a s) where
  accepts := by simpa [State.accepts] using h.accepts.1
  sess := doReadStart_sess a s
  attached := by simpa using h.attached
  params := by simpa using h.params
  rf := by
    obtain ⟨sel, txn, hrf⟩ := h.rf
    rw [doReadStart_rf, State.chip_of_attached h.attached, hrf]
    exact Rf.opening_read rfl rfl a

/-- A byte read in the chip is the array's byte at the session's place (R43, R62). -/
theorem Reading.resp_doReadByte (h : Reading p m w a k s) (hk : a.toNat + k < p.size) :
    (doReadByte s).resp = some (.byte (memRead p.image m (a.toNat + k))) := by
  rw [doReadByte_resp, received_of_attached 0xFF h.attached, h.params, h.rf, Rf.reply_of_read _ _ rfl rfl hk]

theorem Reading.doReadByte (h : Reading p m w a k s) (hk : a.toNat + k < p.size) :
    Reading p m w a (k + 1) (doReadByte s) where
  accepts := h.accepts
  sess := h.sess
  attached := h.attached
  params := h.params
  rf := by
    rw [doReadByte_rf, if_pos h.attached, h.params, h.rf]
    exact Rf.exchange_of_read rfl rfl hk

theorem Reading.doReadStop (h : Reading p m w a k s) : Resting p m w 0 (doReadStop s) where
  accepts := ⟨h.accepts, rfl⟩
  attached := h.attached
  params := h.params
  rf := by
    rw [doReadStop_rf, if_pos h.attached, h.params, h.rf]
    exact ⟨_, _, Rf.deselect_of_read (a := a) (bs := List.replicate k placeholder) rfl rfl⟩

/-- The rest of a read session: the array's bytes from the session's place on. -/
theorem Reading.finish (lasts : List Bool) (h : Reading p m w a k s) (hk : a.toNat + k + lasts.length ≤ p.size) :
    ∃ t, execSeq (lasts.map .readByte ++ [.readStop]) s = .next t ∧
      responses (lasts.map .readByte ++ [.readStop]) s =
        (List.range lasts.length).map (fun i => some (.byte (memRead p.image m (a.toNat + k + i)))) ++
          [some .noValue] ∧
      Resting p m w 0 t := by
  induction lasts generalizing k s with
  | nil =>
    have he : exec .readStop s = .next (Machine.doReadStop s) := exec_readStop h.accepts h.sess
    exact ⟨_, execSeq_cons he [], responses_cons he [], h.doReadStop⟩
  | cons l lasts ih =>
    rw [List.length_cons] at hk
    have hlt : a.toNat + k < p.size := by omega
    have he : exec (.readByte l) s = .next (Machine.doReadByte s) := exec_readByte l h.accepts h.sess
    obtain ⟨t, ht, hresp, hrest⟩ := ih (h.doReadByte hlt) (by omega)
    refine ⟨t, (execSeq_cons he _).trans ht, ?_, hrest⟩
    rw [List.map_cons, List.cons_append, responses_cons he, hresp, h.resp_doReadByte hlt, List.length_cons,
      List.range_succ_eq_map, List.map_cons, List.map_map, List.cons_append]
    congr 3
    funext i
    simp only [Function.comp, Nat.succ_eq_add_one, show a.toNat + (k + 1) + i = a.toNat + k + (i + 1) by omega]

/-- A whole read session in the chip. -/
theorem Resting.readSession (h : Resting p m w 0 s) (a : Addr) (lasts : List Bool)
    (ha : a.toNat + lasts.length ≤ p.size) :
    ∃ t, execSeq (readBlockCommands a lasts) s = .next t ∧
      responses (readBlockCommands a lasts) s =
        some .noValue :: (List.range lasts.length).map (fun i => some (.byte (memRead p.image m (a.toNat + i)))) ++
          [some .noValue] ∧
      Resting p m w 0 t := by
  have he : exec (.readStart a) s = .next (Machine.doReadStart a s) := exec_readStart a h.accepts
  obtain ⟨t, ht, hresp, hrest⟩ := (h.doReadStart a).finish lasts ha
  refine ⟨t, (execSeq_cons he _).trans ht, (responses_cons he _).trans ?_, hrest⟩
  rw [doReadStart_resp]
  exact congrArg _ hresp

/-! ### A program session -/

theorem Resting.doWriteStart (h : Resting p m w 0 s) (a : Addr) : Writing p m a [] (doWriteStart a s) where
  accepts := by simpa [State.accepts] using h.accepts.1
  sess := doWriteStart_sess a s
  attached := by simpa using h.attached
  params := by simpa using h.params
  rf := by
    obtain ⟨sel, txn, hrf⟩ := h.rf
    rw [doWriteStart_rf, State.chip_of_attached h.attached, hrf, Rf.transact_wren rfl rfl]
    exact Rf.opening_of_ready (f := Rf.up m true 0 false [0x06]) rfl (by decide) (by decide) (.inl rfl) (addrBytes a)

theorem Writing.doWriteByte (h : Writing p m a d s) (x : Byte) : Writing p m a (d ++ [x]) (doWriteByte x s) where
  accepts := h.accepts
  sess := h.sess
  attached := h.attached
  params := h.params
  rf := by
    rw [doWriteByte_rf, if_pos h.attached, h.rf, wireBytesOf_pageProgram_concat]
    exact Rf.exchangeAll_of_txn (f := Rf.up m true 0 true (wireBytesOf (.pageProgram a d))) rfl rfl (by decide) [x]

theorem Writing.doWriteStop (h : Writing p m a d s) (ha : a.toNat < p.size) :
    Resting p (programPage p m a.toNat d) false p.tProg (doWriteStop s) where
  accepts := ⟨h.accepts, rfl⟩
  attached := h.attached
  params := h.params
  rf := by
    rw [doWriteStop_rf, if_pos h.attached, h.params, h.rf]
    exact ⟨_, _, Rf.deselect_of_program (a := a) (d := d) rfl rfl rfl ha⟩

/-- The rest of a program session: the page program of all its bytes (R67, R143). -/
theorem Writing.finish (ds : List Byte) (h : Writing p m a d s) (ha : a.toNat < p.size) :
    ∃ t, execSeq (ds.map .writeByte ++ [.writeStop]) s = .next t ∧
      Resting p (programPage p m a.toNat (d ++ ds)) false p.tProg t := by
  induction ds generalizing d s with
  | nil =>
    rw [List.append_nil]
    exact ⟨_, execSeq_cons (exec_writeStop h.accepts h.sess) [], h.doWriteStop ha⟩
  | cons x ds ih =>
    obtain ⟨t, ht, hrest⟩ := ih (h.doWriteByte x)
    rw [List.append_assoc] at hrest
    exact ⟨t, (execSeq_cons (exec_writeByte x h.accepts h.sess) _).trans ht, hrest⟩

/-- A whole program session at an address in the chip. -/
theorem Resting.programSession (h : Resting p m w 0 s) (ha : a.toNat < p.size) (d : List Byte) :
    ∃ t, execSeq (programCommands a d) s = .next t ∧
      Resting p (programPage p m a.toNat d) false p.tProg t := by
  obtain ⟨t, ht, hrest⟩ := (h.doWriteStart a).finish d ha
  exact ⟨t, (execSeq_cons (exec_writeStart a h.accepts) _).trans ht, hrest⟩

end Sys2Proof.Machine
end

section
/-! PROOFS. The block against the reference flash: capacity, sessions and polls, and the properties of R72. -/

namespace Sys2Proof.Machine

variable {p : RfParams} {m : List Host.Cell} {w : Bool} {b : Nat} {s t : State}

/-! ### The capacity (R100, R103) -/

/-- What `init` receives after the Read Device ID opcode and the bytes `tl` is the reply of R60. -/
theorem received_readId (ha : s.attached = true) (hf : s.rf.fault = none) (hb : s.rf.busy = 0) (tl : List Byte) :
    (tl.length = 0 → received placeholder (xferAll (0x9F :: tl) (csAssert s)) = s.params.mfr) ∧
      (tl.length = 2 → received placeholder (xferAll (0x9F :: tl) (csAssert s)) = s.params.capCode) := by
  have hrf : (xferAll (0x9F :: tl) (csAssert s)).rf = { s.rf with sel := true, txn := 0x9F :: tl } := by
    rw [opening_rf, State.chip_of_attached ha, Rf.opening_of_ready hf (by decide) (by decide) (.inl hb)]
  have hparams : (xferAll (0x9F :: tl) (csAssert s)).params = s.params := by rw [xferAll_params, csAssert_params]
  obtain ⟨hmfr, -, hcap, -⟩ := deviceIdReply s.params { s.rf with sel := true, txn := 0x9F :: tl } tl placeholder
    (Config.draw (xferAll (0x9F :: tl) (csAssert s)).draws) hf rfl
  rw [received_of_attached placeholder (by simpa using ha), hrf, hparams]
  exact ⟨hmfr, hcap⟩

/-- The capacity that `init` decodes from the reference flash (R100, R101). -/
theorem doInit_cap_of_attached (ha : s.attached = true) (hf : s.rf.fault = none) (hb : s.rf.busy = 0) :
    (doInit s).cap = capDecode s.params.mfr s.params.capCode :=
  congrArg₂ capDecode ((received_readId (s := transportInit s) ha hf hb []).1 rfl)
    ((received_readId (s := transportInit s) ha hf hb [placeholder, placeholder]).2 rfl)

/-- Settles O53: `getsize` answers what `init` has decoded from the first and the third byte of the device ID. -/
theorem initThenGetsize : Obligations.InitThenGetsize := by
  rintro s h0 hd ⟨ha, -, hf⟩ hb
  have hinit : exec .init s = .next (doInit s) := exec_init h0 hd
  have hget : exec .getsize (doInit s) = .next (doGetsize (doInit s)) := exec_getsize ⟨h0, rfl⟩
  refine ⟨doGetsize (doInit s), (execSeq_cons hinit _).trans (execSeq_cons hget []), ?_, ?_⟩
  · rw [doGetsize_resp, doInit_cap_of_attached ha hf hb]
  · rw [doGetsize_rf, doInit_rf, State.chip_of_attached ha, Rf.transact_readId hf hb]
    exact hf

/-! ### Sessions -/

/-- Settles O54: a read session of the reference flash as it stands. -/
theorem readSessionReturnsFlashBytes : Obligations.ReadSessionReturnsFlashBytes := by
  intro s a lasts ho hu hb hr
  have h : Resting s.params s.rf.mem s.rf.wel 0 s := hb ▸ Resting.of_flashUp ho hu
  obtain ⟨t, ht, hresp, hrest⟩ := h.readSession a lasts hr
  exact ⟨t, ht, hresp, .of_mem hrest.params hrest.rf_mem, hrest.rf_fault⟩

/-- Settles O55: a program session ends in one page program, read back by page and, without a wrap, by address. -/
theorem programSessionWritesFlash : Obligations.ProgramSessionWritesFlash := by
  intro s a d ho hu hb hm ha
  have h : Resting s.params s.rf.mem s.rf.wel 0 s := hb ▸ Resting.of_flashUp ho hu
  obtain ⟨-, -, -, hpage, -, -⟩ := RfParams.wf_parts hu.2.1
  obtain ⟨t, ht, hrest⟩ := h.programSession ha d
  refine ⟨t, ht, hrest.rf_busy, hrest.rf_wel, hrest.rf_fault, fun k hk => ?_, fun x hx => ?_,
    fun hd => ⟨fun k hk => ?_, fun x hx => ?_⟩⟩
  · rw [hrest.flashByte, h.flashByte, memRead_programPage s.params hm.1, if_pos (by omega), Nat.add_sub_cancel_left]
  · rw [hrest.flashByte, h.flashByte, memRead_programPage s.params hm.1, if_neg hx]
  · rw [hrest.flashByte, h.flashByte, memRead_programPage_within s.params hm.1 a.toNat d hpage hd,
      if_pos (by omega), Nat.add_sub_cancel_left]
  · rw [hrest.flashByte, h.flashByte, memRead_programPage_within s.params hm.1 a.toNat d hpage hd, if_neg hx]

/-! ### `wait_ready` (R93) -/

/-- A step at a `wait_ready` item. -/
theorem step_waitReady (hr : s.resetReq = false) (hf : recordedFault s = none) (hit : s.prog[s.pc]? = some .waitReady)
    (he : exec .writeIsbusy s = .next t) : step s = .next (advanceReady t) := by
  simp [step, stepState, hr, hf, hit, runItem, he]

/-- A resting block at a `wait_ready` item. -/
structure Waiting (p : RfParams) (m : List Host.Cell) (w : Bool) (b : Nat) (s : State) : Prop where
  resting : Resting p m w b s
  resetReq : s.resetReq = false
  item : s.prog[s.pc]? = some .waitReady

theorem Waiting.step (h : Waiting p m w b s) : step s = .next (advanceReady (doWriteIsbusy s)) :=
  step_waitReady h.resetReq (recordedFault_none.mpr ⟨h.resting.accepts.1.1, fun _ => h.resting.rf_fault⟩) h.item
    (exec_writeIsbusy h.resting.accepts)

/-- After its poll a `wait_ready` item leaves the block resting, the busy count one lower (R69). -/
theorem Waiting.resting_next (h : Waiting p m w b s) : Resting p m w (b - 1) (advanceReady (doWriteIsbusy s)) :=
  h.resting.doWriteIsbusy.of_same (by simp) (by simp) (by simp) (by simp) (by simp)
    (by simpa using h.resting.doWriteIsbusy.rf)

theorem Waiting.resp_next (h : Waiting p m w b s) :
    (advanceReady (doWriteIsbusy s)).resp = some (.bool (decide (0 < b))) := by
  rw [advanceReady_resp, h.resting.resp_doWriteIsbusy]

theorem Waiting.pc_next (h : Waiting p m w b s) :
    (advanceReady (doWriteIsbusy s)).pc = if 0 < b then s.pc else s.pc + 1 := by
  rw [advanceReady_pc, h.resting.resp_doWriteIsbusy]
  by_cases hb : 0 < b <;> simp [hb, h.resting.accepts.1.1]

/-- While the flash is busy, the block waits at the item. -/
theorem Waiting.next (h : Waiting p m w (b + 1) s) : Waiting p m w b (advanceReady (doWriteIsbusy s)) where
  resting := h.resting_next
  resetReq := by simpa using h.resetReq
  item := by
    rw [h.pc_next, if_pos (Nat.succ_pos b)]
    simpa using h.item

theorem run_succ {k : Nat} (h : step s = .next t) :
    Host.Core.run Sys2Proof.core (k + 1) s = Host.Core.run Sys2Proof.core k t := by
  have h' : Sys2Proof.core.step s = .next t := h
  simp only [Host.Core.run, h']

/-- Up to its busy count, each poll of a `wait_ready` item stays at the item (R93). -/
theorem Waiting.run_busy {k : Nat} (h : Waiting p m w b s) (hk : k < b) :
    ∃ t, Host.Core.run Sys2Proof.core (k + 1) s = .next t ∧ t.pc = s.pc ∧ t.resp = some (.bool true) ∧
      t.rf.busy = b - (k + 1) := by
  obtain ⟨b, rfl⟩ : ∃ b', b = b' + 1 := ⟨b - 1, by omega⟩
  have hpc : (advanceReady (doWriteIsbusy s)).pc = s.pc := by rw [h.pc_next, if_pos (Nat.succ_pos b)]
  induction k generalizing s b with
  | zero => exact ⟨_, run_succ h.step, hpc, h.resp_next.trans (by simp), h.next.resting.rf_busy⟩
  | succ k ih =>
    obtain ⟨b, rfl⟩ : ∃ b', b = b' + 1 := ⟨b - 1, by omega⟩
    obtain ⟨t, ht, htpc, hresp, hbusy⟩ := ih b h.next (by omega)
      (by rw [h.next.pc_next, if_pos (Nat.succ_pos b)])
    exact ⟨t, (run_succ h.step).trans ht, htpc.trans hpc, hresp, hbusy.trans (by omega)⟩

/-- One poll more advances past the item. -/
theorem Waiting.run_ready (h : Waiting p m w b s) :
    ∃ t, Host.Core.run Sys2Proof.core (b + 1) s = .next t ∧ t.pc = s.pc + 1 ∧ t.resp = some (.bool false) ∧
      Resting p m w 0 t := by
  induction b generalizing s with
  | zero => exact ⟨_, run_succ h.step, h.pc_next, h.resp_next, h.resting_next⟩
  | succ b ih =>
    obtain ⟨t, ht, htpc, hresp, hrest⟩ := ih h.next
    refine ⟨t, (run_succ h.step).trans ht, ?_, hresp, hrest⟩
    rw [htpc, h.pc_next, if_pos (Nat.succ_pos b)]

/-- Settles O56: each poll counts the busy count down, and the one that finds it 0 ends the item. -/
theorem waitReadyEnds : Obligations.WaitReadyEnds := by
  intro s ho hu hr hit
  have h : Waiting s.params s.rf.mem s.rf.wel s.rf.busy s := ⟨.of_flashUp ho hu, hr, hit⟩
  refine ⟨fun k hk => h.run_busy hk, ?_⟩
  obtain ⟨t, ht, hpc, hresp, hrest⟩ := h.run_ready
  exact ⟨t, ht, hpc, hresp, hrest.rf_busy, .of_mem hrest.params hrest.rf_mem⟩

/-! ### The properties of R72 -/

/-- An erase and its polls leave the sector erased and the flash ready. -/
theorem Resting.eraseAndPoll (h : Resting p m w 0 s) {a : Addr} (ha : a.toNat < p.size)
    (hal : a.toNat % p.sectorSize = 0) :
    ∃ t, execSeq (.erase a :: List.replicate (p.tErase + 1) .writeIsbusy) s = .next t ∧
      t.resp = some (.bool false) ∧ Resting p (eraseSector p m a.toNat) false 0 t := by
  obtain ⟨t, ht, hresp, hrest⟩ := (h.doErase ha hal).polls
  exact ⟨t, (execSeq_cons (exec_erase a h.accepts) _).trans ht, hresp, hrest⟩

/-- An aligned sector of the chip lies in the chip whole. -/
theorem sector_in_range (hp : p.wf = true) {n : Nat} (hn : n < p.size) (hal : n % p.sectorSize = 0) :
    n + p.sectorSize ≤ p.size := by
  obtain ⟨-, -, -, -, hdvd, -⟩ := RfParams.wf_parts hp
  have := block_in_range hdvd hn
  omega

/-- Settles O57: the bytes that a read session returns of an erased sector. -/
theorem erasedSectorReadsAllOnes : Obligations.ErasedSectorReadsAllOnes := by
  intro s a lasts ho hu hb hm ha hal hl
  have h : Resting s.params s.rf.mem s.rf.wel 0 s := hb ▸ Resting.of_flashUp ho hu
  have hin : a.toNat + s.params.sectorSize ≤ s.params.size := sector_in_range hu.2.1 ha hal
  obtain ⟨t, ht, hresp, hrest⟩ := h.eraseAndPoll ha hal
  obtain ⟨-, -, hread, -⟩ := hrest.readSession a lasts (by omega)
  refine ⟨t, ht, hresp, hrest.accepts, hrest.rf_fault, hread.trans ?_⟩
  have hones : ∀ i ∈ List.range lasts.length,
      memRead s.params.image (eraseSector s.params s.rf.mem a.toNat) (a.toNat + i) = 0xFF := by
    intro i hi
    rw [memRead_eraseSector s.params hm.1, if_pos (by have := List.mem_range.mp hi; omega)]
  rw [List.map_congr_left fun i hi => by rw [hones i hi], List.map_const', List.length_range]

/-- A page that begins in an aligned sector ends in it. -/
theorem page_in_sector (hp : p.wf = true) {sec a : Nat} (hal : sec % p.sectorSize = 0) (h1 : sec ≤ a)
    (h2 : a < sec + p.sectorSize) : a - a % p.pageSize + p.pageSize ≤ sec + p.sectorSize := by
  obtain ⟨-, -, -, -, -, hdvd⟩ := RfParams.wf_parts hp
  have hsec : p.pageSize ∣ sec := dvd_trans hdvd (Nat.dvd_of_mod_eq_zero hal)
  have hoff : (a - sec) % p.pageSize = a % p.pageSize := by
    conv_rhs => rw [← Nat.sub_add_cancel h1, Nat.add_mod, Nat.mod_eq_zero_of_dvd hsec, Nat.add_zero, Nat.mod_mod]
  have hblock := block_in_range hdvd (show a - sec < p.sectorSize by omega)
  have hle : (a - sec) % p.pageSize ≤ a - sec := Nat.mod_le _ _
  omega

/-- The responses of bytes read back by index are those of the bytes in order. -/
theorem map_range_getD (d : List Byte) (g : Byte → Option Response) :
    (List.range d.length).map (fun i => g (d.getD i 0xFF)) = d.map g := by
  refine List.ext_getElem (by simp) fun i h1 h2 => ?_
  have hi : i < d.length := by simpa using h2
  simp [List.getD_eq_getElem?_getD, hi]

/-- Settles O58: bytes programmed into an erased page read back as they were sent. -/
theorem eraseProgramReadRoundTrip : Obligations.EraseProgramReadRoundTrip := by
  intro s sec a d ho hu hb hm hsec hal h1 h2 hd
  have h : Resting s.params s.rf.mem s.rf.wel 0 s := hb ▸ Resting.of_flashUp ho hu
  obtain ⟨-, -, -, hpage, -, -⟩ := RfParams.wf_parts hu.2.1
  have hin : sec.toNat + s.params.sectorSize ≤ s.params.size := sector_in_range hu.2.1 hsec hal
  have hpg := page_in_sector hu.2.1 hal h1 h2
  have hmod : a.toNat % s.params.pageSize ≤ a.toNat := Nat.mod_le _ _
  obtain ⟨t1, ht1, -, hrest1⟩ := h.eraseAndPoll hsec hal
  obtain ⟨t2, ht2, hrest2⟩ := hrest1.programSession (a := a) (by omega) d
  obtain ⟨t, ht, -, hrest⟩ := hrest2.polls
  obtain ⟨-, -, hread, -⟩ := hrest.readSession a (List.replicate d.length false) (by simp; omega)
  refine ⟨t, ?_, hrest.rf_fault, hread.trans ?_⟩
  · rw [execSeq_append ((execSeq_append ht1 _).trans ht2)]
    exact ht
  · have hback : ∀ i ∈ List.range d.length,
        memRead s.params.image (programPage s.params (eraseSector s.params s.rf.mem sec.toNat) a.toNat d)
          (a.toNat + i) = d.getD i 0xFF := by
      intro i hi
      have hi' : i < d.length := List.mem_range.mp hi
      rw [memRead_programPage_within s.params (eraseSector_wf s.params _ hm).1 a.toNat d hpage hd,
        if_pos (by omega), memRead_eraseSector s.params hm.1, if_pos (by omega), Nat.add_sub_cancel_left]
      exact BitVec.allOnes_and
    rw [List.length_replicate, List.map_congr_left fun i hi => by rw [hback i hi],
      map_range_getD d fun b => some (.byte b)]

/-- A run of writes of what the addresses already hold changes nothing, in canonical form. -/
theorem rewriteRange_of_same (im : Image) (base : Nat) (g : Byte → Nat → Byte) (n : Nat) {m : List Host.Cell}
    (hm : Memory.wf im m) (h : ∀ k, k < n → g (memRead im m (base + k)) k = memRead im m (base + k)) :
    rewriteRange im base g n m = m := by
  induction n with
  | zero => rfl
  | succ n ih =>
    rw [rewriteRange_succ, ih fun k hk => h k (by omega), h n (by omega), memWrite_memRead im _ hm]

/-- Settles O59: the erase writes what each address holds, and the canonical form keeps the cells as they are. -/
theorem eraseOfErasedSectorIsIdempotent : Obligations.EraseOfErasedSectorIsIdempotent := by
  intro s a ho hu hb hm ha hal hones
  have h : Resting s.params s.rf.mem s.rf.wel 0 s := hb ▸ Resting.of_flashUp ho hu
  have hrest := h.doErase ha hal
  refine ⟨doErase a s, exec_erase a ho, hrest.rf_mem.trans ?_, hrest.rf_wel, hrest.rf_busy, hrest.rf_fault⟩
  rw [eraseSector_eq]
  exact rewriteRange_of_same _ _ _ _ hm fun k hk => (hones k hk).symm

end Sys2Proof.Machine
end

section
/-! PROOFS. The command word as its five fields (R80), the table of R82 row by row, and the decoder of R83 as the
inverse of the encoder. -/

namespace Sys2Proof

/-! ### A word is its fields (R80) -/

section
variable {v w : CmdWord}

/-- The five fields cover the word. -/
theorem cmdWord_ext (hop : opField v = opField w) (hdata : dataField v = dataField w)
    (hlast : lastField v = lastField w) (hrsv : rsvField v = rsvField w) (haddr : addrField v = addrField w) :
    v = w := by
  refine BitVec.eq_of_getLsbD_eq fun i hi => ?_
  by_cases h4 : i < 4
  · simpa [opField, h4] using congrArg (·.getLsbD i) hop
  by_cases h12 : i < 12
  · simpa [dataField, show i - 4 < 8 by omega, show 4 + (i - 4) = i by omega] using
      congrArg (·.getLsbD (i - 4)) hdata
  by_cases h13 : i < 13
  · rwa [show i = 12 by omega]
  by_cases h16 : i < 16
  · simpa [rsvField, show i - 13 < 3 by omega, show 13 + (i - 13) = i by omega] using
      congrArg (·.getLsbD (i - 13)) hrsv
  · simpa [addrField, show i - 16 < 24 by omega, show 16 + (i - 16) = i by omega] using
      congrArg (·.getLsbD (i - 16)) haddr

/-- The words that an assembled word equals: those with its operands and `RSV` zero. -/
theorem cmdWord_eq_iff {op : BitVec 4} {d : Byte} {l : Bool} {a : Addr} : cmdWord op d l a = w ↔
    opField w = op ∧ dataField w = d ∧ lastField w = l ∧ rsvField w = 0 ∧ addrField w = a := by
  refine ⟨fun h => by simp [← h], fun ⟨hop, hdata, hlast, hrsv, haddr⟩ => ?_⟩
  apply cmdWord_ext <;> simp [*]

/-- A masked word is compared field by field. -/
theorem cmdWord_and_eq_iff {m : CmdWord} : w &&& m = v ↔
    opField w &&& opField m = opField v ∧ dataField w &&& dataField m = dataField v ∧
      (lastField w && lastField m) = lastField v ∧ rsvField w &&& rsvField m = rsvField v ∧
      addrField w &&& addrField m = addrField v := by
  have hop : opField (w &&& m) = opField w &&& opField m := BitVec.extractLsb'_and
  have hdata : dataField (w &&& m) = dataField w &&& dataField m := BitVec.extractLsb'_and
  have hlast : lastField (w &&& m) = (lastField w && lastField m) := BitVec.getLsbD_and
  have hrsv : rsvField (w &&& m) = rsvField w &&& rsvField m := BitVec.extractLsb'_and
  have haddr : addrField (w &&& m) = addrField w &&& addrField m := BitVec.extractLsb'_and
  rw [← hop, ← hdata, ← hlast, ← hrsv, ← haddr]
  exact ⟨fun h => by simp [h], fun ⟨h1, h2, h3, h4, h5⟩ => cmdWord_ext h1 h2 h3 h4 h5⟩

end

/-! ### The rows of the table (R82) -/

section
variable {r r' : CmdRow} {w : CmdWord} {i : Instr}

/-- A row selects exactly the encodings of the commands it builds: its mask covers `OP`, `RSV` and every field
that is not an operand. -/
theorem CmdRow.selects_iff (hr : r ∈ cmdRows) : r.selects w = true ↔ encode (r.build w) = .command w := by
  have hop (x : BitVec 4) : x &&& 15#4 = x := BitVec.and_allOnes
  have hdata (x : Byte) : x &&& 255#8 = x := BitVec.and_allOnes
  have hrsv (x : BitVec 3) : x &&& 7#3 = x := BitVec.and_allOnes
  have haddr (x : Addr) : x &&& 16777215#24 = x := BitVec.and_allOnes
  revert hr
  simp only [cmdRows, List.mem_cons, List.not_mem_nil, or_false]
  rintro (rfl | rfl | rfl | rfl | rfl | rfl | rfl | rfl | rfl | rfl) <;>
    simp [CmdRow.selects, encode, cmdWord_and_eq_iff, cmdWord_eq_iff, opField, dataField, lastField, rsvField,
      addrField, *]

/-- Each row has its own `OP`. -/
theorem cmdRows_opField_nodup : (cmdRows.map fun r => opField r.matchBits).Nodup := by decide

/-- Every row compares the whole `OP`. -/
theorem CmdRow.opField_of_selects (hr : r ∈ cmdRows) (h : r.selects w = true) : opField w = opField r.matchBits := by
  have hmask : opField r.mask = BitVec.allOnes 4 :=
    (show ∀ r ∈ cmdRows, opField r.mask = BitVec.allOnes 4 by decide) r hr
  obtain ⟨hop, -⟩ := cmdWord_and_eq_iff.mp (beq_iff_eq.mp h)
  rwa [hmask, BitVec.and_allOnes] at hop

/-- One word selects at most one row. -/
theorem CmdRow.eq_of_selects (hr : r ∈ cmdRows) (hr' : r' ∈ cmdRows) (h : r.selects w = true)
    (h' : r'.selects w = true) : r = r' :=
  List.inj_on_of_nodup_map cmdRows_opField_nodup hr hr' <|
    (opField_of_selects hr h).symm.trans (opField_of_selects hr' h')

/-- Every command is built by a row from its own encoding. -/
theorem exists_row_of_encode (h : encode i = .command w) : ∃ r ∈ cmdRows, r.build w = i := by
  cases i with
  | wren | pageProgram | sectorErase | readData | readStatus1 | readId => cases h
  | _ => cases h; simp [cmdRows]

/-! ### The decoder of R83 -/

theorem CmdRow.mem_and_selects_of_find (h : cmdRows.find? (fun r => r.selects w) = some r) :
    r ∈ cmdRows ∧ r.selects w = true :=
  ⟨List.mem_of_find?_eq_some h, List.find?_some (p := fun r : CmdRow => r.selects w) h⟩

/-- The command decoder inverts the encoder. -/
theorem decodeCommand_eq_instr_iff : decodeCommand w = .instr i ↔ encode i = .command w := by
  unfold decodeCommand
  constructor
  · intro h
    split at h
    · next r hr =>
      cases h
      obtain ⟨hmem, hs⟩ := CmdRow.mem_and_selects_of_find hr
      exact (CmdRow.selects_iff hmem).mp hs
    · cases h
  · intro h
    obtain ⟨r, hr, rfl⟩ := exists_row_of_encode h
    have hs := (CmdRow.selects_iff hr).mpr h
    split
    · next r' hr' =>
      obtain ⟨hmem', hs'⟩ := CmdRow.mem_and_selects_of_find hr'
      rw [CmdRow.eq_of_selects hmem' hr hs' hs]
    · next hnone => exact absurd hs (List.find?_eq_none.mp hnone r hr)

/-- A word is illegal exactly if it selects no row. -/
theorem decodeCommand_eq_reject_iff :
    decodeCommand w = .reject .illegalCommand ↔ ∀ r ∈ cmdRows, ¬ r.selects w = true := by
  unfold decodeCommand
  rw [← List.find?_eq_none]
  split <;> simp [*]

/-- Decoding inverts encoding, for both encodings. -/
theorem decode_encode (i : Instr) : decode (encode i) = .instr i := by
  cases h : encode i with
  | command w => exact decodeCommand_eq_instr_iff.mpr h
  | wire bs => exact decodeWire_of_encode h

end

/-! ### The statements -/

/-- Settles O2, also for the byte counts that R85 does not name. -/
theorem decodeEncodeRoundTrip : Obligations.DecodeEncodeRoundTrip := fun i _ => decode_encode i

/-- Settles O3: a row selects only encodings of what it builds. -/
theorem decodedCommandWordReencodes : Obligations.DecodedCommandWordReencodes :=
  fun _ _ => decodeCommand_eq_instr_iff.mp

/-- Settles O4: each row has its own `OP`, so two of the rows that are left would differ there. -/
theorem commandRowsExclusive : Obligations.CommandRowsExclusive := by
  intro w
  have hop : (cmdRows.filter fun r => r.selects w).map (fun r => opField r.matchBits) =
      List.replicate (cmdRows.filter fun r => r.selects w).length (opField w) :=
    List.map_eq_replicate_iff.mpr fun r hr =>
      have ⟨hmem, hs⟩ := List.mem_filter.mp hr
      (CmdRow.opField_of_selects hmem hs).symm
  exact List.nodup_replicate.mp (hop ▸ cmdRows_opField_nodup.sublist (List.filter_sublist.map _))

/-- The operation codes of R81, and those without a command. -/
theorem opField_cases (op : BitVec 4) : 10 ≤ op.toNat ∨ op = 0 ∨ op = 1 ∨ op = 2 ∨ op = 3 ∨ op = 4 ∨ op = 5 ∨
    op = 6 ∨ op = 7 ∨ op = 8 ∨ op = 9 := by
  decide +revert

/-- Settles O5: `OP` leaves at most one row, which asks the fields that are not its operands to be zero. -/
theorem illegalWordsExactly : Obligations.IllegalWordsExactly := by
  intro w
  have hrows : decodeCommand w = .reject .illegalCommand ↔ ∀ r ∈ cmdRows, ¬ encode (r.build w) = .command w :=
    decodeCommand_eq_reject_iff.trans <| forall₂_congr fun r hr => not_congr (CmdRow.selects_iff hr)
  rw [hrows]
  simp only [cmdRows, List.forall_mem_cons, encode, Encoded.command.injEq, cmdWord_eq_iff]
  rcases opField_cases (opField w) with h | h | h | h | h | h | h | h | h | h | h
  · have hne (k : BitVec 4) (hk : k.toNat < 10) : opField w ≠ k := fun he => by subst he; omega
    simp [h, hne]
  all_goals
    simp only [h]
    grind

/-- Settles O1: the decoder evaluated at the twelve words. -/
theorem sampleWordsDecode : Obligations.SampleWordsDecode := by
  unfold Obligations.SampleWordsDecode
  decide

end Sys2Proof
end

section
/-! PROOFS. The step at an item of the program (R93), and the address multiplexer (R86). -/

namespace Sys2Proof.Machine

/-! ### The step at an item (R93) -/

section
variable {s : State}

/-- With no reset request and no fault recorded, a step runs the item at the position. -/
theorem step_eq_runItem {it : Item} (hr : s.resetReq = false) (hf : recordedFault s = none)
    (hit : s.prog[s.pc]? = some it) : step s = runItem it s := by
  simp [step, stepState, hr, hf, hit]

/-- Settles O6: `advance` is the position after the item. -/
theorem stepRunsDecodedItem : Obligations.StepRunsDecodedItem := by
  intro s e i hr hf hit hd
  have hrun : runEncoded e s = exec i s := by simp [runEncoded, hd]
  rw [step_eq_runItem hr hf hit]
  cases he : exec i s <;> simp [runItem, hrun, he, advance]

/-- Settles O7: after the fault entry `advance` leaves the position. -/
theorem stepIllegalWordFaults : Obligations.StepIllegalWordFaults := by
  intro s w hr hf hit hd
  obtain ⟨h0, -⟩ := recordedFault_none.mp hf
  have hrun : runEncoded (.command w) s = .next (faultState s 1 w) := by
    simp [runEncoded, decode, hd, execIllegal, h0, raiseFault_eq_faultState, FaultCode.bits]
  rw [step_eq_runItem hr hf hit]
  simp [runItem, hrun, advance, faultState]

/-- Settles O8: `advanceReady` is the position after the poll. -/
theorem stepWaitReadyPolls : Obligations.StepWaitReadyPolls := by
  intro s t hr hf hit he
  rw [step_waitReady hr hf hit he]
  by_cases hb : t.resp = some (.bool true) <;> simp [advanceReady, advance, hb]

/-- Settles O10: the step looks at the recorded fault first. -/
theorem environmentFaultStopsRun : Obligations.EnvironmentFaultStopsRun := by
  intro s c hr h0 ha hf
  have hrec : recordedFault s = some (.environment c) := by simp [recordedFault, h0, hf, ha]
  simp [step, stepState, hr, hrec]

end

/-! ### The address multiplexer (R86) -/

/-- Settles O34: three exchanges, and the address bytes joined again. -/
theorem addressSentMsbFirst : Obligations.AddressSentMsbFirst := by
  intro s a
  obtain ⟨r2, r1, r0, ht⟩ := addrOut_trace a s
  exact ⟨r2, r1, r0, ht, addrOfBytes_addrBytes a, by simp⟩

end Sys2Proof.Machine
end

section
/-! PROOFS. The flags of a read session: what is left of them in the state (R92, R121). -/

namespace Sys2Proof.Machine

section
variable {s : State}

/-- In a read session only the number of flags shows in the state. -/
theorem execSeq_readBytes (h : s.accepts) (hs : s.sess = .read) (l : List Bool) (is : List Instr) :
    execSeq (l.map .readByte ++ is) s = execSeq is (doReadByte^[l.length] s) := by
  induction l generalizing s with
  | nil => rfl
  | cons b l ih => exact (execSeq_cons (exec_readByte b h hs) _).trans (ih h hs)

theorem execSeq_cons_of_fault {i : Instr} {r : Fault} (he : exec i s = .fault r) (is : List Instr) :
    execSeq (i :: is) s = .fault r := by
  rw [execSeq, he]

/-- While a fault stands the first command of the rest of a read session stops, whatever its flag (R204). -/
theorem execSeq_readBytes_of_fault (h : s.fault.code ≠ 0) (l : List Bool) :
    execSeq (l.map .readByte ++ [.readStop]) s = .fault (.blockFaulted s.fault.code) := by
  cases l with
  | nil => exact execSeq_cons_of_fault (i := .readStop) (command_of_fault h) _
  | cons b l => exact execSeq_cons_of_fault (i := .readByte b) (command_of_fault h) _

end

/-- Settles O52: `read_start` opens a read session or leaves a fault, and both take any flags. -/
theorem lastFlagsDoNotMatter : Obligations.LastFlagsDoNotMatter := by
  intro s a l m hl
  cases he : exec (.readStart a) s with
  | fault r | refused r => simp [readBlockCommands, execSeq, he]
  | next t =>
    simp only [readBlockCommands, List.cons_append, execSeq_cons he]
    obtain ⟨h0, ⟨hc, rfl⟩ | ⟨c, -, rfl⟩⟩ := command_next he
    · obtain ⟨hd, -⟩ := (checkGroup_none .opens s).mp hc
      have hacc : (doReadStart a s).accepts := ⟨by simpa using h0, by simpa using hd⟩
      have hsess : (doReadStart a s).sess = .read := doReadStart_sess a s
      rw [execSeq_readBytes hacc hsess, execSeq_readBytes hacc hsess, hl]
    · have hne : (raiseFault c (wordOf (.readStart a)) s).fault.code ≠ 0 := (FaultCode.bits_range c).1
      rw [execSeq_readBytes_of_fault hne, execSeq_readBytes_of_fault hne]

end Sys2Proof.Machine
end

section
/-! PROOFS. What the assembler accepts (R91, R92): its items issue encodings, and no operand is truncated. -/

namespace Sys2Proof.Machine

/-- Every item that issues something issues the encoding of an instruction. -/
def IssuesEncodings (items : List Item) : Prop := ∀ e, .issue e ∈ items → ∃ i, encode i = e

section
variable {items items' : List Item}

theorem IssuesEncodings.append (h : IssuesEncodings items) (h' : IssuesEncodings items') :
    IssuesEncodings (items ++ items') :=
  fun e he => (List.mem_append.mp he).elim (h e) (h' e)

theorem IssuesEncodings.nil : IssuesEncodings [] := fun _ he => absurd he List.not_mem_nil

theorem IssuesEncodings.waitReady : IssuesEncodings [.waitReady] := fun _ he => by simp at he

theorem IssuesEncodings.issueAll (is : List Instr) : IssuesEncodings (issueAll is) := by
  intro e he
  obtain ⟨i, -, hi⟩ := List.mem_map.mp he
  exact ⟨i, Item.issue.inj hi⟩

theorem IssuesEncodings.expand (p : Pseudo) : IssuesEncodings p.expand := by
  cases p with
  | waitReady => exact .waitReady
  | readBlock => exact .issueAll _
  | program | eraseSector => exact (issueAll _).append .waitReady

end

/-- The same of a result of the assembler, if it is one. -/
def AcceptsEncodings (o : Option (List Item)) : Prop := ∀ items, o = some items → IssuesEncodings items

theorem AcceptsEncodings.none : AcceptsEncodings none := fun _ h => by cases h

theorem AcceptsEncodings.some {items : List Item} (h : IssuesEncodings items) : AcceptsEncodings (some items) :=
  fun _ hi => Option.some.inj hi ▸ h

theorem AcceptsEncodings.one (i : Instr) : AcceptsEncodings (one i) := .some (.issueAll _)

theorem AcceptsEncodings.expandWf (p : Pseudo) : AcceptsEncodings (expandWf p) := by
  unfold Machine.expandWf
  split
  · exact .some (.expand p)
  · exact .none

theorem AcceptsEncodings.bind {α : Type} (o : Option α) {f : α → Option (List Item)}
    (h : ∀ a, AcceptsEncodings (f a)) : AcceptsEncodings (o.bind f) := by
  cases o with
  | none => exact .none
  | some a => exact h a

/-- A mnemonic with its operands gives the items of a command or of a pseudo-instruction. -/
theorem AcceptsEncodings.assembleOp (k : Nat) (ns : List Nat) : AcceptsEncodings (assembleOp k ns) := by
  unfold Machine.assembleOp
  split
  case h_1 | h_3 | h_5 | h_8 | h_9 | h_11 => exact .one _
  case h_2 | h_4 | h_6 | h_7 | h_10 => exact .bind _ fun _ => .one _
  case h_12 => exact .expandWf _
  case h_13 | h_15 => exact .bind _ fun _ => .expandWf _
  case h_14 => exact .bind _ fun _ => .bind _ fun _ => .expandWf _
  case h_16 => exact .none

theorem AcceptsEncodings.assembleLine (cs : List Char) : AcceptsEncodings (assembleLine cs) := by
  unfold Machine.assembleLine
  split
  · exact .some .nil
  · exact .none
  · split
    · exact .assembleOp _ _
    · exact .none

theorem AcceptsEncodings.assembleLines (ls : List (List Char)) : AcceptsEncodings (assembleLines ls) := by
  induction ls with
  | nil => exact .some .nil
  | cons l ls ih =>
    unfold Machine.assembleLines
    split
    · next hl hls => exact .some ((assembleLine l _ hl).append (ih _ hls))
    · exact .none

/-! ### Operands that do not fit (R91) -/

theorem fits_of_le {width n : Nat} (h : 2 ^ width ≤ n) : fits width n = none := if_neg (Nat.not_lt.mpr h)

theorem fitsBytes_of_le {n : Nat} {ns : List Nat} (h : 2 ^ 8 ≤ n) (hn : n ∈ ns) : fitsBytes ns = none := by
  induction ns with
  | nil => cases hn
  | cons m ns ih =>
    obtain rfl | hn := List.mem_cons.mp hn
    · simp [fitsBytes, fits_of_le h]
    · simp [fitsBytes, ih hn]

/-- Settles O60: what is issued is an encoding, and an operand too wide gives no items. -/
theorem assembledItemsDecode : Obligations.AssembledItemsDecode := by
  refine ⟨fun cs items e h he => ?_, fun n a h => ?_, fun n ds h => ?_, fun n a ds h hn => ?_, fun n h => ?_,
    fun n h => ?_⟩
  · obtain ⟨i, rfl⟩ := AcceptsEncodings.assembleLines _ items h e he
    exact ⟨i, decode_encode i, rfl⟩
  · simp only [assembleOp, fits_of_le h, Option.bind_none, and_self]
  · simp only [assembleOp, fits_of_le h, Option.bind_none]
  · simp only [assembleOp, fitsBytes_of_le h hn, Option.bind_none, Option.bind_fun_none]
  · simp only [assembleOp, fits_of_le h, Option.bind_none]
  · simp only [assembleOp, fits_of_le (width := 1) h, Option.bind_none]

end Sys2Proof.Machine
end

section
/-! PROOFS. Identification and capacity: `init`, `getsize` and the capacity decoder (R100 to R102). -/

namespace Sys2Proof.Machine

/-! ### The capacity decoder (R100) -/

theorem capDecode_of_ne_winbond {m : Byte} (hm : m ≠ winbondMfr) (c : Byte) : capDecode m c = defaultCap :=
  if_pos hm

/-- A capacity code outside the table gets the default also under the Winbond id. -/
theorem capDecode_of_unlisted {c : Byte} (hc : c ∉ [(0x14 : Byte), 0x15, 0x16, 0x17, 0x18]) :
    capDecode winbondMfr c = defaultCap := by
  simp only [List.mem_cons, List.not_mem_nil, or_false, not_or] at hc
  obtain ⟨h14, h15, h16, h17, h18⟩ := hc
  simp only [capDecode, ne_eq, not_true_eq_false, if_false, if_neg h14, if_neg h15, if_neg h16, if_neg h17,
    if_neg h18]

/-- Settles O33: the two defaults hold for every byte they name, and the five listed codes are evaluated. -/
theorem capacityDecoderTable : Obligations.CapacityDecoderTable :=
  ⟨fun _ c hm => capDecode_of_ne_winbond hm c, rfl, rfl, rfl, rfl, rfl, fun _ hc => capDecode_of_unlisted hc⟩

/-! ### The two commands (R101, R102) -/

/-- Read Device ID is neither of the transactions that write the array. -/
theorem FlashSame.doInit (s : State) : FlashSame s (doInit s) :=
  .of_mem rfl (by rw [doInit_rf]; exact State.chip_mem fun _ _ => Rf.transact_mem 0x9F _ (by decide) (by decide))

/-- Settles O11: the block's events and frame hold for any chip, and the reference flash keeps its array. -/
theorem initCompletes : Obligations.InitCompletes := by
  intro s h0 hd
  have hexec : exec .init s = .next (doInit s) := exec_init h0 hd
  obtain ⟨r, m, y, c, hcap, htrace⟩ := doInit_events s
  exact ⟨doInit s, r, m, y, c, hexec, htrace, hcap, doInit_initDone s, doInit_cs s, doInit_sess s, doInit_fault s,
    doInit_resp s, doInit_wireLog s, exec_callerSame hexec, .doInit s⟩

/-- Settles O12: no check of R202 asks for a session, and the effect of `getsize` is its response. -/
theorem getsizeCompletes : Obligations.GetsizeCompletes :=
  fun _ h => exec_getsize h

end Sys2Proof.Machine
end

section
/-! PROOFS. The read session against any attached chip: `read_start`, `read_byte`, `read_stop` and a whole session
(R120 to R123). -/

namespace Sys2Proof.Machine

/-! ### Frames of the flash array -/

/-- Select and exchanges store nothing. -/
theorem FlashSame.doReadStart (a : Addr) (s : State) : FlashSame s (doReadStart a s) :=
  .of_mem (doReadStart_params a s) (by rw [doReadStart_rf]; exact State.chip_mem fun _ _ => by simp)

theorem FlashSame.doReadByte (s : State) : FlashSame s (doReadByte s) :=
  .of_mem rfl (by rw [doReadByte_rf]; exact State.chip_mem (s := s) fun _ _ => Rf.exchange_mem _ _ _)

variable {s : State}

/-- A deselect in a read session closes a Read Data transaction, or finds the flash frozen (R58, R65). -/
theorem BusInv.deselect_mem_of_read (h : BusInv s) (hs : s.sess = .read) (ha : s.attached = true) :
    (s.rf.deselect s.params).mem = s.rf.mem := by
  cases hf : s.rf.fault with
  | some c => rw [Rf.deselect_of_fault hf]
  | none =>
    obtain ⟨-, hread, -⟩ := h ha hf
    obtain ⟨a, n, htxn⟩ := hread hs
    rw [Rf.deselect_of_read hf htxn]

theorem FlashSame.doReadStop (h : BusInv s) (hs : s.sess = .read) : FlashSame s (doReadStop s) := by
  refine .of_mem rfl ?_
  rw [doReadStop_rf]
  split
  · next ha => exact h.deselect_mem_of_read hs ha
  · rfl

/-! ### The three commands -/

/-- Settles O13: the five events, and select and exchanges store nothing. -/
theorem readStartCompletes : Obligations.ReadStartCompletes := by
  intro s a h
  have hexec : exec (.readStart a) s = .next (doReadStart a s) := exec_readStart a h
  obtain ⟨r, r2, r1, r0, htrace⟩ := doReadStart_events s a
  exact ⟨doReadStart a s, r, r2, r1, r0, hexec, htrace, doReadStart_cs a s, doReadStart_sess a s,
    doReadStart_initDone a s, doReadStart_cap a s, doReadStart_fault a s, doReadStart_resp a s,
    doReadStart_wireLog a s, exec_callerSame hexec, .doReadStart a s⟩

/-- Settles O14: the byte received is both in the event and in the response, and the flag is not read. -/
theorem readByteCompletes : Obligations.ReadByteCompletes := by
  intro s l h hs
  have hexec : exec (.readByte l) s = .next (doReadByte s) := exec_readByte l h hs
  exact ⟨doReadByte s, received 0xFF s, hexec, doReadByte_trace s, doReadByte_resp s, doReadByte_cs s,
    (doReadByte_sess s).trans hs, doReadByte_initDone s, doReadByte_cap s, doReadByte_fault s,
    doReadByte_wireLog s, exec_callerSame hexec, .doReadByte s⟩

/-- Settles O15: under `BusInv` the deselect closes a Read Data transaction, which changes no byte. -/
theorem readStopCompletes : Obligations.ReadStopCompletes := by
  intro s h hs
  have hexec : exec .readStop s = .next (doReadStop s) := exec_readStop h hs
  exact ⟨doReadStop s, hexec, doReadStop_trace s, doReadStop_cs s, doReadStop_sess s, doReadStop_initDone s,
    doReadStop_cap s, doReadStop_fault s, doReadStop_resp s, doReadStop_wireLog s, exec_callerSame hexec,
    fun hbus => .doReadStop hbus hs⟩

/-! ### A whole session (R123) -/

/-- The rest of an open read session: one event and one response for each byte, then the deselect. -/
theorem readBytes_then_readStop (lasts : List Bool) (h : s.accepts) (hs : s.sess = .read) :
    ∃ (t : State) (data : List Byte), execSeq (lasts.map .readByte ++ [.readStop]) s = .next t ∧
      data.length = lasts.length ∧ t.trace = s.trace ++ (data.map (.xfer 0xFF) ++ [.csd]) ∧
      responses (lasts.map .readByte ++ [.readStop]) s =
        data.map (fun b => some (.byte b)) ++ [some .noValue] ∧
      t.sess = .idle ∧ t.cs = false := by
  induction lasts generalizing s with
  | nil =>
    have he : exec .readStop s = .next (doReadStop s) := exec_readStop h hs
    exact ⟨doReadStop s, [], execSeq_cons he [], rfl, rfl, responses_cons he [], rfl, rfl⟩
  | cons l lasts ih =>
    have he : exec (.readByte l) s = .next (doReadByte s) := exec_readByte l h hs
    obtain ⟨t, data, ht, hlen, htrace, hresp, hsess, hcs⟩ := ih (s := doReadByte s) h hs
    refine ⟨t, received 0xFF s :: data, (execSeq_cons he _).trans ht, congrArg Nat.succ hlen, ?_,
      (responses_cons he _).trans (congrArg _ hresp), hsess, hcs⟩
    simp [htrace]

/-- Settles O50: `read_start` opens the session that the other commands run in to its end. -/
theorem readSessionTrace : Obligations.ReadSessionTrace := by
  intro s a lasts h
  have he : exec (.readStart a) s = .next (doReadStart a s) := exec_readStart a h
  have hacc : (doReadStart a s).accepts := by simpa [State.accepts] using h.1
  obtain ⟨r, r2, r1, r0, hopen⟩ := doReadStart_events s a
  obtain ⟨t, data, ht, hlen, htrace, hresp, hsess, hcs⟩ :=
    readBytes_then_readStop lasts hacc (doReadStart_sess a s)
  refine ⟨t, [r, r2, r1, r0], data, (execSeq_cons he _).trans ht, rfl, hlen, ?_, ?_, hsess, hcs⟩
  · rw [htrace, hopen]
    simp [addrBytes]
  · rw [readBlockCommands, List.cons_append, responses_cons he, doReadStart_resp, hresp, List.cons_append]

end Sys2Proof.Machine
end

section
/-! PROOFS. The program session against any attached chip: `write_start`, `write_byte`, `write_stop` and a whole
session (R140 to R144). -/

namespace Sys2Proof.Machine

/-! ### Frames of the flash array -/

/-- A write enable, a select and exchanges store nothing. -/
theorem FlashSame.doWriteStart (a : Addr) (s : State) : FlashSame s (doWriteStart a s) := by
  refine .of_mem (doWriteStart_params a s) ?_
  rw [doWriteStart_rf]
  refine State.chip_mem fun p f => ?_
  rw [Rf.exchangeAll_mem, Rf.select_mem, Rf.transact_mem 0x06 [] (by decide) (by decide)]

theorem FlashSame.doWriteByte (d : Byte) (s : State) : FlashSame s (doWriteByte d s) :=
  .of_mem rfl (by rw [doWriteByte_rf]; exact State.chip_mem (s := s) fun _ _ => Rf.exchange_mem _ _ _)

variable {s : State}

/-- A deselect in a write session closes a Page Program transaction, or finds the flash frozen (R58, R67). -/
theorem BusInv.deselect_outside_of_write (h : BusInv s) (hs : s.sess = .write) (ha : s.attached = true) {x : Nat}
    (hx : ¬ ((txnAddr s.rf.txn).toNat - (txnAddr s.rf.txn).toNat % s.params.pageSize ≤ x ∧
      x < (txnAddr s.rf.txn).toNat - (txnAddr s.rf.txn).toNat % s.params.pageSize + s.params.pageSize)) :
    memRead s.params.image (s.rf.deselect s.params).mem x = memRead s.params.image s.rf.mem x := by
  cases hf : s.rf.fault with
  | some c => rw [Rf.deselect_of_fault hf]
  | none =>
    obtain ⟨-, -, hwrite⟩ := h ha hf
    obtain ⟨a, d, htxn, -, -⟩ := hwrite hs
    exact Rf.deselect_program_outside (by rw [htxn]; rfl) x hx

theorem FlashSameOutside.doWriteStop (h : BusInv s) (hs : s.sess = .write) :
    FlashSameOutside ((txnAddr s.rf.txn).toNat - (txnAddr s.rf.txn).toNat % s.params.pageSize)
      s.params.pageSize s (doWriteStop s) := by
  intro x hx
  simp only [State.flashByte, doWriteStop_params, doWriteStop_rf]
  split
  · next ha => exact h.deselect_outside_of_write hs ha hx
  · rfl

/-! ### The three commands -/

/-- Settles O16: the eight events, and before `write_stop` nothing is stored. -/
theorem writeStartCompletes : Obligations.WriteStartCompletes := by
  intro s a h
  have hexec : exec (.writeStart a) s = .next (doWriteStart a s) := exec_writeStart a h
  obtain ⟨q, r, r2, r1, r0, htrace⟩ := doWriteStart_events s a
  exact ⟨doWriteStart a s, q, r, r2, r1, r0, hexec, htrace, doWriteStart_cs a s, doWriteStart_sess a s,
    doWriteStart_initDone a s, doWriteStart_cap a s, doWriteStart_fault a s, doWriteStart_resp a s,
    doWriteStart_wireLog a s, exec_callerSame hexec, .doWriteStart a s⟩

/-- Settles O17: the data byte goes out in one exchange, whose received byte is only in the event. -/
theorem writeByteCompletes : Obligations.WriteByteCompletes := by
  intro s d h hs
  have hexec : exec (.writeByte d) s = .next (doWriteByte d s) := exec_writeByte d h hs
  exact ⟨doWriteByte d s, received d s, hexec, doWriteByte_trace d s, doWriteByte_resp d s, doWriteByte_cs d s,
    (doWriteByte_sess d s).trans hs, doWriteByte_initDone d s, doWriteByte_cap d s, doWriteByte_fault d s,
    doWriteByte_wireLog d s, exec_callerSame hexec, .doWriteByte d s⟩

/-- Settles O18: under `BusInv` the deselect closes a Page Program transaction, which stays in its page. -/
theorem writeStopCompletes : Obligations.WriteStopCompletes := by
  intro s h hs
  have hexec : exec .writeStop s = .next (doWriteStop s) := exec_writeStop h hs
  exact ⟨doWriteStop s, hexec, doWriteStop_trace s, doWriteStop_cs s, doWriteStop_sess s, doWriteStop_initDone s,
    doWriteStop_cap s, doWriteStop_fault s, doWriteStop_resp s, doWriteStop_wireLog s, exec_callerSame hexec,
    fun hbus => .doWriteStop hbus hs⟩

/-! ### A whole session (R144) -/

/-- The rest of an open write session: one event for each byte, then the deselect. -/
theorem writeBytes_then_writeStop (d : List Byte) (h : s.accepts) (hs : s.sess = .write) :
    ∃ (t : State) (rxs : List Byte), execSeq (d.map .writeByte ++ [.writeStop]) s = .next t ∧
      rxs.length = d.length ∧ t.trace = s.trace ++ (List.zipWith .xfer d rxs ++ [.csd]) ∧
      t.sess = .idle ∧ t.cs = false := by
  induction d generalizing s with
  | nil => exact ⟨doWriteStop s, [], execSeq_cons (exec_writeStop h hs) [], rfl, rfl, rfl, rfl⟩
  | cons b d ih =>
    obtain ⟨t, rxs, ht, hlen, htrace, hsess, hcs⟩ := ih (s := doWriteByte b s) h hs
    refine ⟨t, received b s :: rxs, (execSeq_cons (exec_writeByte b h hs) _).trans ht, congrArg Nat.succ hlen, ?_,
      hsess, hcs⟩
    simp [htrace]

/-- Settles O51: `write_start` sends the write enable and opens the session that the other commands run in to its
end. -/
theorem programSessionTrace : Obligations.ProgramSessionTrace := by
  intro s a d h
  have hacc : (doWriteStart a s).accepts := by simpa [State.accepts] using h.1
  obtain ⟨q, r, r2, r1, r0, hopen⟩ := doWriteStart_events s a
  obtain ⟨t, rxs, ht, hlen, htrace, hsess, hcs⟩ := writeBytes_then_writeStop d hacc (doWriteStart_sess a s)
  refine ⟨t, q, r :: r2 :: r1 :: r0 :: rxs, (execSeq_cons (exec_writeStart a h) _).trans ht,
    congrArg (· + 4) hlen, ?_, hsess, hcs⟩
  rw [htrace, hopen]
  simp [addrBytes]

end Sys2Proof.Machine
end

section
/-! PROOFS. Status and erase against any attached chip: the status-byte parser, `write_isbusy` and `erase` (R160 to
R163). -/

namespace Sys2Proof.Machine

/-! ### The status-byte parser (R160) -/

theorem statusBusy_iff_odd (y : Byte) : statusBusy y = true ↔ y.toNat % 2 = 1 := by
  simp only [statusBusy, BitVec.getLsbD, Nat.testBit_zero, decide_eq_true_eq]

/-- The mask of bits 7:1 has no bit 0, and the mask of bit 0 keeps it. -/
theorem statusBusy_of_upper_bits (y z : Byte) : statusBusy (y &&& 1 ||| z &&& 0xFE) = statusBusy y := by
  have hone : (1 : Byte).getLsbD 0 = true := rfl
  have hupper : (0xFE : Byte).getLsbD 0 = false := rfl
  simp only [statusBusy, BitVec.getLsbD_or, BitVec.getLsbD_and, hone, hupper, Bool.and_true, Bool.and_false,
    Bool.or_false]

/-- Settles O35: the parity of the byte is its bit 0, which the other seven bits do not reach. -/
theorem statusBusyIsBitZero : Obligations.StatusBusyIsBitZero :=
  ⟨statusBusy_iff_odd, statusBusy_of_upper_bits⟩

/-! ### Frames of the flash array -/

/-- Read Status-1 is neither of the transactions that write the array. -/
theorem FlashSame.doWriteIsbusy (s : State) : FlashSame s (doWriteIsbusy s) :=
  .of_mem rfl (by
    rw [doWriteIsbusy_rf]; exact State.chip_mem fun _ _ => Rf.transact_mem 0x05 _ (by decide) (by decide))

/-- The write enable changes the latch, not the array. -/
theorem FlashSame.wrenTxn (s : State) : FlashSame s (wrenTxn s) :=
  .of_mem (wrenTxn_params s) (by
    rw [wrenTxn_rf]; exact State.chip_mem fun _ _ => Rf.transact_mem 0x06 [] (by decide) (by decide))

/-- After its write enable, `erase` leaves the array as a Sector Erase of another bus master would. -/
theorem flashByte_doErase (a : Addr) (s : State) (x : Nat) :
    (doErase a s).flashByte x = (wireTxn (0x20 :: addrBytes a) (wrenTxn s)).flashByte x := by
  have hrf : (doErase a s).rf = (wrenTxn s).chip fun p f => f.transact p (0x20 :: addrBytes a) :=
    transaction_rf (0x20 :: addrBytes a) (wrenTxn s)
  rw [flashByte_wireTxn, State.flashByte, hrf, doErase_params, wrenTxn_params]

theorem FlashSameOutside.doErase (a : Addr) (s : State) :
    FlashSameOutside a.toNat s.params.sectorSize s (doErase a s) := by
  intro x hx
  have hx' : ¬ (a.toNat ≤ x ∧ x < a.toNat + (Machine.wrenTxn s).params.sectorSize) := by rwa [wrenTxn_params]
  calc (Machine.doErase a s).flashByte x
      = (Machine.wireTxn (0x20 :: addrBytes a) (Machine.wrenTxn s)).flashByte x := flashByte_doErase a s x
    _ = (Machine.wrenTxn s).flashByte x := FlashSameOutside.wireTxn_erase a (Machine.wrenTxn s) x hx'
    _ = s.flashByte x := FlashSame.wrenTxn s x

/-! ### The two commands (R161, R162) -/

/-- Settles O19: the second byte received is the status byte, and its bit 0 the response. -/
theorem writeIsbusyCompletes : Obligations.WriteIsbusyCompletes := by
  intro s h
  have hexec : exec .writeIsbusy s = .next (doWriteIsbusy s) := exec_writeIsbusy h
  obtain ⟨r, y, hresp, htrace⟩ := doWriteIsbusy_events s
  exact ⟨doWriteIsbusy s, r, y, hexec, htrace, hresp, doWriteIsbusy_cs s, (doWriteIsbusy_sess s).trans h.2,
    doWriteIsbusy_initDone s, doWriteIsbusy_cap s, doWriteIsbusy_fault s, doWriteIsbusy_wireLog s,
    exec_callerSame hexec, .doWriteIsbusy s⟩

/-- Settles O20: both transactions are closed by the command itself, and only the second reaches the array. -/
theorem eraseCompletes : Obligations.EraseCompletes := by
  intro s a h
  have hexec : exec (.erase a) s = .next (doErase a s) := exec_erase a h
  obtain ⟨q, r, r2, r1, r0, htrace⟩ := doErase_events s a
  exact ⟨doErase a s, q, r, r2, r1, r0, hexec, htrace, doErase_cs a s, (doErase_sess a s).trans h.2,
    doErase_initDone a s, doErase_cap a s, doErase_fault a s, doErase_resp a s, doErase_wireLog a s,
    exec_callerSame hexec, .doErase a s⟩

end Sys2Proof.Machine
end

section
/-! PROOFS. The stop of a faulted block (R204), and the session faults (R202, R203). -/

namespace Sys2Proof.Machine

/-! ### While a fault stands (R204) -/

section
variable {s : State}

/-- The block's own fault is recorded before any fault of the chip (log entry 7). -/
theorem recordedFault_of_blockFault (h : s.fault.code ≠ 0) :
    recordedFault s = some (.blockFaulted s.fault.code) := if_neg h

theorem step_of_recordedFault {r : Fault} (hr : s.resetReq = false) (hf : recordedFault s = some r) :
    step s = .fault r := by
  simp [step, stepState, hr, hf]

theorem exec_of_blockFault {i : Instr} {w : CmdWord} (h : s.fault.code ≠ 0) (hw : encode i = .command w) :
    exec i s = .fault (.blockFaulted s.fault.code) := by
  obtain ⟨body, hb⟩ := exec_eq_command hw
  rw [hb, command_of_fault h]

theorem runEncoded_of_illegal {w : CmdWord} (hd : decodeCommand w = .reject .illegalCommand) :
    runEncoded (.command w) s = execIllegal w s := by
  simp [runEncoded, decode, hd]

theorem execIllegal_of_blockFault (w : CmdWord) (h : s.fault.code ≠ 0) :
    execIllegal w s = .fault (.blockFaulted s.fault.code) := if_neg h

end

/-- Settles O9: the step, the frame of a command and the illegal word each look at the fault register first. -/
theorem faultedBlockTakesNoStep : Obligations.FaultedBlockTakesNoStep := by
  intro s h
  refine ⟨fun hr => ?step, fun i w hw => ?command, fun w hd => ?illegal⟩
  case step => exact step_of_recordedFault hr (recordedFault_of_blockFault h)
  case command => exact exec_of_blockFault h hw
  case illegal => rw [runEncoded_of_illegal hd, execIllegal_of_blockFault w h]

/-! ### The session checks (R202) -/

section
variable {s : State} {i : Instr} {w : CmdWord}

/-- A command that a check stops takes that check's fault with its own word, and nothing else (R203). -/
theorem exec_of_check {c : FaultCode} (h0 : s.fault.code = 0) (hw : encode i = .command w)
    (hc : check i s = some c) : exec i s = .next (faultState s c.bits w) := by
  obtain ⟨body, hb⟩ := exec_eq_command hw
  rw [hb, command_of_check h0 hc, wordOf_of_encode hw, raiseFault_eq_faultState]

/-- A command that opens a chip-select interval is stopped in either session. -/
theorem exec_opens_in_session (h : s.accepts) (hs : s.sess ≠ .idle) (hw : encode i = .command w)
    (hg : groupOf i = .opens) : exec i s = .next (faultState s 4 w) :=
  exec_of_check h.1 hw ((checkGroup_some _ s .sessionOpen).mpr ⟨hg, h.2, hs⟩)

/-- A byte or stop command outside its session. -/
def OutsideItsSession (i : Instr) (s : State) : Prop :=
  (groupOf i = .needsRead ∧ s.sess ≠ .read) ∨ (groupOf i = .needsWrite ∧ s.sess ≠ .write)

/-- A byte or stop command outside its session finds none open, or the one of the other kind. -/
theorem check_outside_session (hd : s.initDone = true) (h : OutsideItsSession i s) :
    check i s = some (if s.sess = .idle then .noSession else .wrongSession) := by
  by_cases hidle : s.sess = .idle
  · rw [if_pos hidle]
    exact (checkGroup_some _ s .noSession).mpr ⟨h.imp And.left And.left, hd, hidle⟩
  · have hother : (s.sess ≠ .read → s.sess = .write) ∧ (s.sess ≠ .write → s.sess = .read) := by
      cases hk : s.sess <;> simp_all
    rw [if_neg hidle]
    exact (checkGroup_some _ s .wrongSession).mpr ⟨hd, h.imp (.imp_right hother.1) (.imp_right hother.2)⟩

theorem exec_outside_session (h : s.accepts) (hw : encode i = .command w) (ho : OutsideItsSession i s) :
    exec i s = .next (faultState s (if s.sess = .idle then 5 else 6) w) := by
  have hbits : (if s.sess = .idle then FaultCode.noSession else .wrongSession).bits =
      if s.sess = .idle then 5 else 6 := apply_ite FaultCode.bits _ _ _
  rw [exec_of_check h.1 hw (check_outside_session h.2 ho), hbits]

end

/-- Settles O28: all four commands are in the group that opens a chip-select interval. -/
theorem openWhileOpenFaults : Obligations.OpenWhileOpenFaults := by
  intro s h hs
  exact ⟨fun _ => exec_opens_in_session h hs rfl rfl, fun _ => exec_opens_in_session h hs rfl rfl,
    exec_opens_in_session h hs rfl rfl, fun _ => exec_opens_in_session h hs rfl rfl⟩

/-- Settles O29: each of the four commands is in the group of its session. -/
theorem byteOrStopOutsideItsSessionFaults : Obligations.ByteOrStopOutsideItsSessionFaults := by
  intro s h
  refine ⟨fun hs l => ?read, fun hs d => ?write⟩
  case read => exact ⟨exec_outside_session h rfl (.inl ⟨rfl, hs⟩), exec_outside_session h rfl (.inl ⟨rfl, hs⟩)⟩
  case write => exact ⟨exec_outside_session h rfl (.inr ⟨rfl, hs⟩), exec_outside_session h rfl (.inr ⟨rfl, hs⟩)⟩

end Sys2Proof.Machine
end

section
/-! PROOFS. The reset of the block (R230, R231): what its step does, after a read session and in a write session. -/

namespace Sys2Proof.Machine

variable {s t : State}

/-- A requested reset is the next step, whatever fault stands (R230). -/
theorem step_of_resetReq (hr : s.resetReq = true) : step s = .next (blockReset s) := if_pos hr

theorem blockReset_trace_append (s : State) :
    (blockReset s).trace = s.trace ++ if s.cs then [.csd] else [] := by
  rw [blockReset_trace]
  split
  · rfl
  · exact (List.append_nil _).symm

/-- A chip that the block has not selected sees no event at a reset. -/
theorem blockReset_rf_of_deasserted (hcs : s.cs = false) : (blockReset s).rf = s.rf := by
  rw [blockReset_rf, if_neg (by simp [hcs])]

/-- A reference flash that the block has selected is deselected by a reset, as by a stop (R231). -/
theorem blockReset_rf_of_asserted (hcs : s.cs = true) (ha : s.attached = true) :
    (blockReset s).rf = s.rf.deselect s.params := by
  rw [blockReset_rf, if_pos ⟨hcs, ha⟩]

/-! ### After a read session -/

/-- A deselect in a read session changes the selection alone, or finds the flash frozen (R58, R65). -/
theorem BusInv.deselect_of_read (h : BusInv s) (hs : s.sess = .read) (ha : s.attached = true) :
    s.rf.deselect s.params = { s.rf with sel := (s.rf.deselect s.params).sel } := by
  cases hf : s.rf.fault with
  | some c => rw [Rf.deselect_of_fault hf]
  | none =>
    obtain ⟨-, hread, -⟩ := h ha hf
    obtain ⟨a, n, htxn⟩ := hread hs
    rw [Rf.deselect_of_read hf htxn]

/-- A reset in a read session changes the chip's selection alone. -/
theorem BusInv.blockReset_rf_of_read (h : BusInv s) (hs : s.sess = .read) :
    (Machine.blockReset s).rf = { s.rf with sel := (Machine.blockReset s).rf.sel } := by
  rw [Machine.blockReset_rf]
  split
  · next hchip => exact h.deselect_of_read hs hchip.2
  · rfl

/-- Settles O31: the step is `blockReset`, and under `BusInv` its deselect closes a Read Data transaction. -/
theorem blockResetEffect : Obligations.BlockResetEffect := by
  intro s hr
  refine ⟨blockReset s, step_of_resetReq hr, blockReset_trace_append s, blockReset_cs s, blockReset_sess s,
    blockReset_initDone s, congrArg FaultReg.code (blockReset_fault s), congrArg FaultReg.word (blockReset_fault s),
    blockReset_resetReq s, blockReset_resp s, blockReset_prog s, blockReset_pc s, blockReset_attached s,
    blockReset_params s, blockReset_wireLog s, blockReset_rf_of_deasserted, fun hbus hs => ?_⟩
  have hrf := hbus.blockReset_rf_of_read hs
  have hmem : (blockReset s).rf.mem = s.rf.mem := by rw [hrf]
  exact ⟨.of_mem (blockReset_params s) hmem, hrf⟩

/-! ### In a write session -/

/-- A reset in a write session whose address lies in the chip commits the page program (R67, R231). -/
theorem blockReset_rf_of_program {a : Addr} {d : List Byte} (hcs : s.cs = true) (hat : s.attached = true)
    (hf : s.rf.fault = none) (htxn : s.rf.txn = wireBytesOf (.pageProgram a d)) (hwel : s.rf.wel = true)
    (ha : a.toNat < s.params.size) :
    (blockReset s).rf =
      { s.rf with
        sel := false
        mem := programPage s.params s.rf.mem a.toNat d
        wel := false
        busy := s.params.tProg } := by
  rw [blockReset_rf_of_asserted hcs hat, Rf.deselect_of_program hf htxn hwel ha]

/-- The array after a page program, by its page (R67). -/
theorem flashByte_of_programPage {a : Nat} {d : List Byte} (hp : t.params = s.params)
    (hmem : t.rf.mem = programPage s.params s.rf.mem a d) (h : Rising s.rf.mem) (x : Nat) :
    t.flashByte x =
      if a - a % s.params.pageSize ≤ x ∧ x < a - a % s.params.pageSize + s.params.pageSize then
        s.flashByte x &&&
          (pageBuffer s.params.pageSize (a % s.params.pageSize) d).getD (x - (a - a % s.params.pageSize)) 0xFF
      else s.flashByte x := by
  simp only [State.flashByte, hp, hmem]
  exact memRead_programPage s.params h a d x

/-- The array after a page program of data that stay within the page, by address (R67). -/
theorem flashByte_of_programPage_within {a : Nat} {d : List Byte} (hp : t.params = s.params)
    (hmem : t.rf.mem = programPage s.params s.rf.mem a d) (h : Rising s.rf.mem) (hpage : 1 ≤ s.params.pageSize)
    (hd : a % s.params.pageSize + d.length ≤ s.params.pageSize) (x : Nat) :
    t.flashByte x =
      if a ≤ x ∧ x < a + d.length then s.flashByte x &&& d.getD (x - a) 0xFF else s.flashByte x := by
  simp only [State.flashByte, hp, hmem]
  exact memRead_programPage_within s.params h a d hpage hd x

/-- Settles O32: the reset's deselect ends in one page program, read back by page and, without a wrap, by
address. -/
theorem resetCommitsOpenProgram : Obligations.ResetCommitsOpenProgram := by
  rintro s a d hr - hcs ⟨hat, hwf, hf⟩ hm htxn hwel ha
  have hrf := blockReset_rf_of_program hcs hat hf htxn hwel ha
  have hmem := congrArg Rf.mem hrf
  have hpage := flashByte_of_programPage (blockReset_params s) hmem hm.1
  obtain ⟨-, -, -, hsize, -, -⟩ := RfParams.wf_parts hwf
  refine ⟨blockReset s, step_of_resetReq hr, congrArg Rf.busy hrf, congrArg Rf.wel hrf,
    (congrArg Rf.fault hrf).trans hf, fun k hk => ?_, fun x hx => ?_, fun hd => ?_⟩
  · rw [hpage, if_pos (by omega), Nat.add_sub_cancel_left]
  · rw [hpage, if_neg hx]
  · have hdata := flashByte_of_programPage_within (blockReset_params s) hmem hm.1 hsize hd
    refine ⟨fun k hk => ?_, fun x hx => ?_⟩
    · rw [hdata, if_pos (by omega), Nat.add_sub_cancel_left]
    · rw [hdata, if_neg hx]

end Sys2Proof.Machine
end
